-- ==== Sys2Proof/Word.lean ====
section
/-! DEFINITION. The bit-vector widths the spec names (00_scope.md R7, R12). Nothing here has behaviour of its own. -/

namespace Sys2Proof

/-- `u64` (R12): a generator state, a state buffer entry, the command operand, RESULT. -/
abbrev U64 := BitVec 64

/-- `u32` (R12): the command word, the counts N and P, STATUS. -/
abbrev U32 := BitVec 32

/-- The bit pattern of an `s32` (R12): one table entry or one accumulator value. Its value is `BitVec.toInt`. -/
abbrev S32 := BitVec 32

/-- The bit pattern of an `s8` (R12): one sample. Its value is `BitVec.toInt`; on the sample port the pattern itself
is the byte (R48). -/
abbrev S8 := BitVec 8

/-- `A`, the 20-bit entry address of a command word (R64, R66). -/
abbrev EntryAddr := BitVec 20

end Sys2Proof
end

