-- ==== Sys2Proof/Config.lean ====
section
/-! DEFINITION. What an implementation fixes (00_scope.md R8, 10_state.md R38), and the free values: constants with no
body for what the spec leaves open. -/

namespace Sys2Proof

/-- Sum of the absolute values of the coefficients, the quantity R8 bounds. -/
def absSum (coeff : Vector Int 64) : Nat := (coeff.toList.map Int.natAbs).sum

/-- The bound of R8 on `absSum` (decision D3): `2^31 − 1`. -/
abbrev coeffLimit : Nat := 2147483647

/-- The configuration parameters of R8, each with its legality. "A configuration outside the legal values is refused: the
model has no core for it": an illegal configuration is no value of this type (`Config.build` is the refusal). -/
structure Config where
  /-- `CFG_COEFF[0..63]`: coefficient k belongs to state bit k (R8, R89). -/
  coeff : Vector Int 64
  /-- `CFG_SHIFT`, 0 to 31 (R8, D4). -/
  shift : Fin 32
  /-- `BUF_DEPTH`: entries of SB and of OB (R8, D7). -/
  bufDepth : Nat
  /-- `P_PHYS`: physical filter lanes (R8, R109, D10). -/
  lanes : Nat
  /-- R8: `sum_k abs(CFG_COEFF[k]) <= 2^31 − 1`. -/
  coeff_bound : absSum coeff ≤ coeffLimit
  /-- R8: `1 <= BUF_DEPTH`. -/
  depth_pos : 1 ≤ bufDepth
  /-- R8: `BUF_DEPTH <= 2^20`. -/
  depth_le : bufDepth ≤ 1048576
  /-- R8: `P_PHYS >= 1`. -/
  lanes_pos : 1 ≤ lanes
  deriving DecidableEq, Repr

/-- Why a configuration is refused (R8, R140). Safe: there is then no core, so nothing can be claimed of one. -/
inductive ConfigRefusal where
  /-- `sum abs(CFG_COEFF)` exceeds `2^31 − 1` (I2). -/
  | coefficients
  /-- `CFG_SHIFT` is not 0 to 31 (I1). -/
  | shift
  /-- `BUF_DEPTH` is not 1 to 2^20 (I21). -/
  | bufDepth
  /-- `P_PHYS` is 0. -/
  | lanes
  deriving DecidableEq, Repr

/-- The core of a configuration, or the refusal R8 and R140 ask for. -/
def Config.build (coeff : Vector Int 64) (shift bufDepth lanes : Nat) : Except ConfigRefusal Config :=
  if hc : absSum coeff ≤ coeffLimit then
    if hs : shift < 32 then
      if hd : 1 ≤ bufDepth ∧ bufDepth ≤ 1048576 then
        if hl : 1 ≤ lanes then .ok ⟨coeff, ⟨shift, hs⟩, bufDepth, lanes, hc, hd.1, hd.2, hl⟩
        else .error .lanes
      else .error .bufDepth
    else .error .shift
  else .error .coefficients

/-- OPEN in the spec (R8, N4): the coefficients an implementation was given. No body: nothing can be proved of their values. -/
opaque Config.openCoeff : Nat → Int

/-- OPEN in the spec (R8, N4): the shift amount an implementation was given. No body. -/
opaque Config.openShift : Nat

/-- OPEN in the spec (R8, N16): the number of physical lanes, less one. No body. -/
opaque Config.openLanes : Nat

/-- Free value (R21, R148, D20): what `state_q` shows while `BUSY = 1`, at the model's n-th step. No body. -/
opaque Config.freeStateQ : Nat → BitVec 64

/-- Free value (R115, I7): what `sample_data` shows while `sample_valid = 0`, at the model's n-th step. No body. -/
opaque Config.freeSampleData : Nat → BitVec 8

theorem absSum_zero_le : absSum (Vector.replicate 64 0) ≤ coeffLimit := by decide

/-- The open parameters as one legal configuration, at the default depth `2^17` of R8. Every legal coefficient vector is
some value of `openCoeff`; a vector R8 refuses has no core, so the zero vector stands in its place and no claim can
tell. -/
def Config.built : Config :=
  let given := Vector.ofFn fun k : Fin 64 => Config.openCoeff k.val
  { coeff := if absSum given ≤ coeffLimit then given else Vector.replicate 64 0
    shift := ⟨Config.openShift % 32, Nat.mod_lt _ (by decide)⟩
    bufDepth := 131072
    lanes := Config.openLanes + 1
    coeff_bound := by
      split
      · assumption
      · exact absSum_zero_le
    depth_pos := by decide
    depth_le := by decide
    lanes_pos := Nat.le_add_left 1 _ }

end Sys2Proof
end

