-- ==== Sys2Proof/Syntax.lean ====
section
/-! DEFINITION. The command as the port carries it (30_encoding.md R61), the outcome codes (60_exceptions.md R126), the
operand formats (R65) and the one inductive of instructions: one constructor per row of spec/opcode_table.json. -/

namespace Sys2Proof

/-- One command transaction (R61): `cmd_word[31:0]` and `cmd_operand[63:0]`. -/
structure Command where
  word : U32
  operand : U64
  deriving DecidableEq, Repr

/-- The outcome codes of R126. Codes 5 to 15 are "never produced" (R27), so they are no value of this type. -/
inductive ErrCode where
  /-- 0: "the command was accepted and performed". -/
  | ok
  /-- 1, `E_ILLEGAL_OP`. -/
  | illegalOp
  /-- 2, `E_RESERVED_FIELD`. -/
  | reservedField
  /-- 3, `E_BAD_OPERAND`. -/
  | badOperand
  /-- 4, `E_RANGE`. -/
  | range
  deriving DecidableEq, Repr

/-- The seven operand formats of R65. -/
inductive Format where
  | z | v | c | cp | t | a | av
  deriving DecidableEq, Repr

/-- The instructions: the twelve commands of R67 and the table's row of illegal opcodes (R69). Operand fields have exactly
the widths of R64 and R65, unsigned (R66). -/
inductive Instr where
  /-- NOP (R118). -/
  | nop
  /-- SEED x (R83). -/
  | seed (x : U64)
  /-- STEP (R84). -/
  | step
  /-- FILL n (R85). -/
  | fill (n : U32)
  /-- LUTRD i, j (R95): sub-table and index. -/
  | lutrd (sub : BitVec 3) (idx : BitVec 8)
  /-- ACC x (R102). -/
  | acc (x : U64)
  /-- FILT1 x (R103). -/
  | filt1 (x : U64)
  /-- FILTER n, p (R110). -/
  | filter (n p : U32)
  /-- ITER n, p (R113). -/
  | iter (n p : U32)
  /-- SBWR a, x (R119). -/
  | sbwr (a : EntryAddr) (x : U64)
  /-- SBRD a (R120). -/
  | sbrd (a : EntryAddr)
  /-- OBRD a (R121). -/
  | obrd (a : EntryAddr)
  /-- The row "(illegal)" (R69): a command whose `OP` is 0xC to 0xF, with its whole word and operand. -/
  | illegal (word : U32) (operand : U64)
  deriving DecidableEq, Repr

end Sys2Proof
end

