-- ==== Sys2Proof/Machine/State.lean ====
section
/-! DEFINITION. The machine's state (10_state.md R19, R35–R38), the two agents beside the core that a run needs (the host's
commands and the sink's history, R16, R37), the input pins, and the state after reset (R39, R141). Plain data. -/

namespace Sys2Proof.Machine

open Sys2Proof

/-- One buffer (R33, R34): its written entries, each with its entry address, in rising order of address. An address that is
not listed is an unwritten entry, which "holds no value" (R45). The sample buffer's cells are `Host.Cell`s; the state buffer's
are whole 64-bit entries, since "there is no byte-addressed view of any buffer" (R47). -/
abbrev Memory (w : Nat) := List (Nat × BitVec w)

/-- The long commands (R63) as the sequencer holds them while `BUSY = 1` (R35). -/
inductive LongCommand where
  /-- FILL n (R85). -/
  | fill (n : U32)
  /-- FILTER n, p (R110). -/
  | filter (n p : U32)
  /-- ITER n, p (R113). -/
  | iter (n p : U32)
  deriving DecidableEq, Repr

/-- The part of a long command that is running and how far it is (R26, R35, R36). -/
inductive Work where
  /-- Phase 1: `done` advances have been made (R35). -/
  | fill (done : Nat)
  /-- Phase 2: `todo` holds the indices no worker has processed yet (R36), `active` the chunks that a lane has begun and
  not finished (R109). -/
  | filter (todo active : List Nat)
  /-- Phase 3: `taken` bytes have been taken by the sink; it is the index of the next byte (R35, R114). -/
  | emit (taken : Nat)
  deriving DecidableEq, Repr

/-- What the sequencer holds of a busy command (R35). -/
structure Job where
  command : LongCommand
  work : Work
  deriving DecidableEq, Repr

/-- The levels the outside world drives in one step, and the choice the spec leaves to the hardware in it. -/
structure Inputs where
  /-- The reset input `rst` (R141). -/
  rst : Bool
  /-- `cmd_valid`, driven by the host (R61): it presents the first command of its list, if there is one, or pauses. -/
  cmdValid : Bool
  /-- `sample_ready`, driven by the sink (R115). -/
  sampleReady : Bool
  /-- Which of the entries a lane may process now is processed in this step, counted modulo their number: the order and
  interleaving of the workers, which the spec leaves open (R106, R109, I4). -/
  worker : Nat
  deriving DecidableEq, Repr

/-- The state. The first nine fields are the core (configuration, R38; the state of R19); the others are the model's own
account of the agents around it. STATUS is not a field: each of its bits is a field or a function of the fields below
(Machine/Flags.lean). -/
structure State where
  /-- The configuration of R8: no command and no reset changes it (R38). -/
  cfg : Config
  /-- The generator register `S` (R20). -/
  S : U64
  /-- `RESULT` (R22). -/
  result : U64
  /-- `STATUS.ERR` (R27). -/
  err : ErrCode
  /-- The state buffer SB (R33). -/
  sb : Memory 64
  /-- The sample buffer OB (R34). -/
  ob : Memory 8
  /-- The sequencer and the workers (R35, R36); none when the core is idle. -/
  job : Option Job
  /-- The bytes the sink has taken, oldest first (R37). Not core state: reset leaves it (R142). -/
  sink : List (BitVec 8)
  /-- The host agent: the commands it has still to issue, in order (R16). The first stands on the command port whenever the host
  presents one (R61). -/
  host : List Command
  /-- The input levels of the next step. -/
  inputs : Inputs
  /-- The input levels of the steps after it; when the list has ended the levels stay as they are. -/
  script : List Inputs
  /-- The model's own count of its steps: the index at which the free values are read. -/
  tick : Nat
  deriving DecidableEq, Repr

/-- Why the machine stops. -/
inductive Fault where
  /-- A read of an unwritten entry of SB, by SBRD or by a worker of FILTER (R45). Safe: "a model faults on such a read", where the
  hardware goes on with an unspecified value. -/
  | unwrittenState (a : Nat)
  /-- A read of an unwritten entry of OB, by OBRD or by the emission of ITER (R45). Safe, as above. -/
  | unwrittenSample (a : Nat)
  deriving DecidableEq, Repr

/-- Why an instruction has no meaning. -/
inductive Refusal where
  /-- Raised by an arm of `exec` whose instruction has no meaning yet; no arm of this model raises it. Safe. -/
  | notModelled (mnemonic : String)
  deriving DecidableEq, Repr

/-- What a step or a meaning answers. -/
abbrev Answer := Host.Outcome State Fault Refusal

/-- The pins when nothing drives them: reset not asserted, the host presenting nothing, the sink not ready. -/
def Inputs.quiet : Inputs := { rst := false, cmdValid := false, sampleReady := false, worker := 0 }

/-- The machine after reset (R39, R141) in a given configuration, with no command on the port, nothing yet taken by the sink and
quiet pins. -/
def State.resetIn (cfg : Config) : State :=
  { cfg := cfg
    S := 1
    result := 0
    err := .ok
    sb := []
    ob := []
    job := none
    sink := []
    host := []
    inputs := Inputs.quiet
    script := []
    tick := 0 }

/-- The machine right after reset (R39, R141), in the configuration the implementation was built with. -/
def State.reset : State := State.resetIn Config.built

end Sys2Proof.Machine
end

