-- ==== Sys2Proof/Machine/Ops.lean ====
section
/-! DEFINITION. The named operations over the buffers, the registers, the ports and the sequencer. Every read and write of the
state goes through them. Rejecting a command, this core's only error (60_exceptions.md R124, R127, R130), is `State.raise`. -/

namespace Sys2Proof.Machine

open Sys2Proof

/-! ### Buffers (20_memory.md) -/

/-- `MemRead` (R15): the entry at an address, none when it is unwritten (R45). -/
def Memory.read {w : Nat} : Memory w → Nat → Option (BitVec w)
  | [], _ => none
  | (b, u) :: m, a => if a = b then some u else Memory.read m a

/-- `MemWrite` (R15): "an entry becomes written at the first write to it" (R45). Keeps the addresses rising. -/
def Memory.write {w : Nat} : Memory w → Nat → BitVec w → Memory w
  | [], a, v => [(a, v)]
  | (b, u) :: m, a, v =>
    if a < b then (a, v) :: (b, u) :: m
    else if a = b then (a, v) :: m
    else (b, u) :: Memory.write m a v

/-- The addresses rise strictly. -/
def Memory.rising {w : Nat} : Memory w → Bool
  | [] => true
  | [_] => true
  | (a, _) :: (b, u) :: m => decide (a < b) && Memory.rising ((b, u) :: m)

/-- The canonical form of a buffer of a given depth: addresses strictly rising and each below `BUF_DEPTH` (R42, R43). An unlisted
entry holds no value, so no listed entry can equal what an unlisted one reads as. -/
def Memory.wf {w : Nat} (depth : Nat) (m : Memory w) : Bool :=
  Memory.rising m && m.all fun cell => decide (cell.1 < depth)

/-! ### Registers, buffers and agents: one update each -/

/-- `S <- v`. -/
def State.setS (v : U64) (st : State) : State := { st with S := v }

/-- `RESULT <- v`. -/
def State.setResult (v : U64) (st : State) : State := { st with result := v }

/-- `STATUS.ERR <- code` (R27). -/
def State.setErr (code : ErrCode) (st : State) : State := { st with err := code }

/-- `MemWrite(SB, a, 8, v)`. -/
def State.writeSB (a : Nat) (v : U64) (st : State) : State := { st with sb := Memory.write st.sb a v }

/-- `MemWrite(OB, a, 1, v)`. -/
def State.writeOB (a : Nat) (v : S8) (st : State) : State := { st with ob := Memory.write st.ob a v }

/-- The sequencer's next state (R35). -/
def State.setJob (job : Option Job) (st : State) : State := { st with job := job }

/-- The sink takes a byte: it "is appended to the sink's history" (R114). -/
def State.pushSink (b : BitVec 8) (st : State) : State := { st with sink := st.sink ++ [b] }

/-- The commands the host has still to issue. -/
def State.setHost (host : List Command) (st : State) : State := { st with host := host }

/-- Time passes: the pins move to their next levels and the step count grows. Every step of the machine does this, whatever else it
does. -/
def State.clock (st : State) : State :=
  { st with
    inputs := st.script.headD st.inputs
    script := st.script.tail
    tick := st.tick + 1 }

/-! ### Acceptance (30_encoding.md R62, 60_exceptions.md R127) -/

/-- A command that is performed writes `ERR <- 0` at its acceptance (R27). -/
def State.accept (st : State) : State := State.setErr .ok st

/-- `raise Err(code)` (R127): "a rejected command sets `STATUS.ERR <- code`, completes at acceptance and changes nothing else". There is
no other exception entry and no return from one (R130, R131). -/
def State.raise (code : ErrCode) (st : State) : State := State.setErr code st

/-- The host's command has been taken off the port (R62: "the host may change them afterwards"). -/
def State.popHost (st : State) : State := State.setHost st.host.tail st

/-! ### Reset (70_reset_and_hazards.md R141, R142) -/

/-- The effect of `rst`: every piece of core state takes its reset value (R39) and a busy command is abandoned; the configuration
stays, "bytes the sink took before reset stay in the sink's history", and the host keeps the commands it has not issued. -/
def State.resetCore (st : State) : State :=
  { st with
    S := 1
    result := 0
    err := .ok
    sb := []
    ob := []
    job := none }

/-! ### The sequencer's phases (10_state.md R26, R35) -/

/-- N of a long command, as a number (R66). -/
def LongCommand.count : LongCommand → Nat
  | .fill n => n.toNat
  | .filter n _ => n.toNat
  | .iter n _ => n.toNat

/-- P of a long command, as a number (R66). FILL runs no workers; 1 stands there and is never read. -/
def LongCommand.chunks : LongCommand → Nat
  | .fill _ => 1
  | .filter _ p => p.toNat
  | .iter _ p => p.toNat

/-- The command as the port carried it: the sequencer keeps "the accepted command word and operand" (R35), which `encode` gives
back from this. -/
def LongCommand.instr : LongCommand → Instr
  | .fill n => .fill n
  | .filter n p => .filter n p
  | .iter n p => .iter n p

/-- The command completes: `BUSY` and `PHASE` return to 0 (R24, R26). -/
def State.finish (st : State) : State := State.setJob none st

/-- Phase 3 begins, or, with no byte to emit, the command completes (R113). -/
def State.enterEmit (cmd : LongCommand) (st : State) : State :=
  if cmd.count = 0 then State.finish st else State.setJob (some ⟨cmd, .emit 0⟩) st

/-- After the join (R107): ITER goes on to its emission, the others complete. -/
def State.afterFilter (cmd : LongCommand) (st : State) : State :=
  match cmd with
  | .fill _ => State.finish st
  | .filter _ _ => State.finish st
  | .iter _ _ => State.enterEmit cmd st

/-- Phase 2 begins with every index below N to be processed and no chunk begun; with N = 0 every chunk is empty and the join is
immediate (R111). -/
def State.enterFilter (cmd : LongCommand) (st : State) : State :=
  if cmd.count = 0 then State.afterFilter cmd st
  else State.setJob (some ⟨cmd, .filter (List.range cmd.count) []⟩) st

/-- After the last advance: ITER goes on to its filter part, FILL completes (R85, R113). -/
def State.afterFill (cmd : LongCommand) (st : State) : State :=
  match cmd with
  | .fill _ => State.finish st
  | .filter _ _ => State.finish st
  | .iter _ _ => State.enterFilter cmd st

/-- Phase 1 begins with no advance made; with N = 0 there is none to make. -/
def State.enterFill (cmd : LongCommand) (st : State) : State :=
  if cmd.count = 0 then State.afterFill cmd st else State.setJob (some ⟨cmd, .fill 0⟩) st

end Sys2Proof.Machine
end

