-- ==== Sys2Proof/Machine/Operands.lean ====
section
/-! DEFINITION. The spec's notation for values (00_scope.md R11–R14), the operand forms of every format as a meaning reads
them (30_encoding.md R65, R66), and the checks of 60_exceptions.md R128 that need the operand's value or `BUF_DEPTH`. -/

namespace Sys2Proof.Machine

open Sys2Proof

/-! ### Notation (R11–R14) -/

/-- `bits_w(n)`: the w-bit vector whose unsigned value is `n mod 2^w` (R12). -/
def bits (w : Nat) (n : Int) : BitVec w := BitVec.ofInt w n

/-- `asr(v, s)`: `floor(v / 2^s)` (R13). Integer division by a positive number rounds toward minus infinity. -/
def asr (v : Int) (s : Nat) : Int := v / (2 ^ s : Int)

/-- `trunc8(v)`: `sint(bits_8(v))`, modular, never saturating (R14). -/
def trunc8 (v : Int) : Int := (bits 8 v).toInt

/-- `sext_64(v)` (R12). -/
def sext64 {w : Nat} (v : BitVec w) : U64 := v.signExtend 64

/-- Byte i of a u64 value, `x[8i+7:8i]` (R11, R46, R97). -/
def byteOf (x : U64) (i : Nat) : BitVec 8 := x.extractLsb' (8 * i) 8

/-! ### Operand forms (R65, R66) -/

/-- N as a number: unsigned, zero-extended (R66). -/
abbrev countOf (n : U32) : Nat := n.toNat

/-- P as a number: unsigned, zero-extended (R66). -/
abbrev chunksOf (p : U32) : Nat := p.toNat

/-- A as a number: unsigned, zero-extended (R66). -/
abbrev entryOf (a : EntryAddr) : Nat := a.toNat

/-! ### Checks at acceptance (R128) -/

/-- Check 4 of formats C and CP: `N > BUF_DEPTH` is E_RANGE. -/
def countTooBig (n : U32) (st : State) : Bool := decide (st.cfg.bufDepth < countOf n)

/-- Check 4 of formats A and AV: `A >= BUF_DEPTH` is E_RANGE. -/
def addrOutside (a : EntryAddr) (st : State) : Bool := decide (st.cfg.bufDepth ≤ entryOf a)

/-- Check 3 of format CP: `P = 0` is E_BAD_OPERAND. -/
def noChunks (p : U32) : Bool := p == 0

/-- A command of format C goes on to its effect if check 4 passes, and is rejected if not. -/
def withCount (n : U32) (st : State) (effect : State → Answer) : Answer :=
  if countTooBig n st then .next (State.raise .range st) else effect st

/-- A command of format CP: check 3 (P = 0), then check 4 (R128). -/
def withCountAndChunks (n p : U32) (st : State) (effect : State → Answer) : Answer :=
  if noChunks p then .next (State.raise .badOperand st) else withCount n st effect

/-- A command of format A or AV goes on to its effect at the entry its address names if check 4 passes. -/
def withEntry (a : EntryAddr) (st : State) (effect : Nat → State → Answer) : Answer :=
  if addrOutside a st then .next (State.raise .range st) else effect (entryOf a) st

end Sys2Proof.Machine
end

