-- ==== Sys2Proof/Machine/HostAccess.lean ====
section
/-! DEFINITION. The host access commands NOP, SBWR, SBRD and OBRD (45_host_access.md), and the illegal opcodes (30_encoding.md R69). -/

namespace Sys2Proof.Machine

open Sys2Proof

/-- NOP (R118): `ERR <- 0` and nothing else. -/
def execNop (st : State) : Answer := .next (State.accept st)

/-- SBWR a, x (R119): rejected when `A >= BUF_DEPTH`, else `MemWrite(SB, A, 8, X); ERR <- 0`. -/
def execSbwr (a : EntryAddr) (x : U64) (st : State) : Answer :=
  withEntry a st fun k t => .next (State.writeSB k x (State.accept t))

/-- SBRD a (R120): rejected when `A >= BUF_DEPTH`, else `RESULT <- MemRead(SB, A, 8); ERR <- 0`. An unwritten entry faults (R45). -/
def execSbrd (a : EntryAddr) (st : State) : Answer :=
  withEntry a st fun k t =>
    match Memory.read t.sb k with
    | none => .fault (.unwrittenState k)
    | some x => .next (State.setResult x (State.accept t))

/-- OBRD a (R121): rejected when `A >= BUF_DEPTH`, else `RESULT <- sext_64(bits_8(MemRead(OB, A, 1))); ERR <- 0`. An unwritten entry
faults (R45). Nothing is emitted to the sink. -/
def execObrd (a : EntryAddr) (st : State) : Answer :=
  withEntry a st fun k t =>
    match Memory.read t.ob k with
    | none => .fault (.unwrittenSample k)
    | some b => .next (State.setResult (sext64 b) (State.accept t))

/-- A command with an illegal opcode (R69): "rejected with `E_ILLEGAL_OP` and has no other effect", whatever its other bits (R128, check
1 comes first). -/
def execIllegal (_word : U32) (_operand : U64) (st : State) : Answer := .next (State.raise .illegalOp st)

end Sys2Proof.Machine
end

