-- ==== Sys2Proof/Machine/Lut.lean ====
section
/-! DEFINITION. The LUT_table_ROM_8x256 and its command LUTRD (41_lut_rom.md). The ROM is a function of the configuration: no
command writes it and reset does not change it (R32, R94). -/

namespace Sys2Proof.Machine

open Sys2Proof

/-- `CFG_COEFF[k]` (R89). Only k = 0..63 is ever read; 0 stands beyond. -/
def coeffAt (cfg : Config) (k : Nat) : Int := (cfg.coeff[k]?).getD 0

/-- One term of R90: plus the coefficient when the bit is 1, minus it when the bit is 0. -/
def signedBy (bit : Bool) (c : Int) : Int := if bit then c else -c

/-- `LUT(i, j)` as a mathematical integer: the sum over k in 0..7 of the coefficient of state bit 8i+k, its sign by bit k of j (R90).
It does not depend on `CFG_SHIFT` (90_conflicts.md C2). -/
def lutSum (cfg : Config) (i : Nat) (j : BitVec 8) : Int :=
  ((List.range 8).map fun k => signedBy (j.getLsbD k) (coeffAt cfg (8 * i + k))).sum

/-- `LUT(i, j)` "stored as an s32" (R90). Under R8 the store is exact (R91). -/
def lut (cfg : Config) (i : Nat) (j : BitVec 8) : S32 := bits 32 (lutSum cfg i j)

/-- The 11-bit ROM address of `(i, j)`: `i * 256 + j` (R44, R88). -/
def romAddress (i : BitVec 3) (j : BitVec 8) : BitVec 11 := (i.setWidth 11 <<< 8) ||| j.setWidth 11

/-- The ROM read by its 11-bit address: i in bits 10:8, j in bits 7:0 (R44). -/
def romRead (cfg : Config) (a : BitVec 11) : S32 := lut cfg (a.extractLsb' 8 3).toNat (a.extractLsb' 0 8)

/-- LUTRD i, j (R95): `RESULT <- sext_64(bits_32(LUT(I, J))); ERR <- 0`. -/
def execLutrd (sub : BitVec 3) (idx : BitVec 8) (st : State) : Answer :=
  .next (State.setResult (sext64 (romRead st.cfg (romAddress sub idx))) (State.accept st))

end Sys2Proof.Machine
end

