-- ==== Sys2Proof/Machine/Fir.lean ====
section
/-! DEFINITION. The FIR_accumulator_with_right_shift and its commands ACC and FILT1 (42_fir_accumulator.md). -/

namespace Sys2Proof.Machine

open Sys2Proof

/-- `accSum(x)` (R98): the eight table entries of the bytes of x, "computed in a 32-bit two's-complement accumulator" (D5). -/
def accSum (cfg : Config) (x : U64) : S32 := ((List.range 8).map fun i => lut cfg i (byteOf x i)).sum

/-- `filterOne(x) = trunc8(asr(accSum(x), CFG_SHIFT))` (R100), as its 8-bit pattern: `bits_8` of the shifted sum (R14). The shift is
applied once, to the whole sum. -/
def filterOne (cfg : Config) (x : U64) : S8 := bits 8 (asr (accSum cfg x).toInt cfg.shift.val)

/-- ACC x (R102): `RESULT <- sext_64(bits_32(accSum(X))); ERR <- 0`. -/
def execAcc (x : U64) (st : State) : Answer :=
  .next (State.setResult (sext64 (accSum st.cfg x)) (State.accept st))

/-- FILT1 x (R103): `RESULT <- sext_64(bits_8(filterOne(X))); ERR <- 0`. -/
def execFilt1 (x : U64) (st : State) : Answer :=
  .next (State.setResult (sext64 (filterOne st.cfg x)) (State.accept st))

end Sys2Proof.Machine
end

