-- ==== Sys2Proof/Machine/Dispatcher.lean ====
section
/-! DEFINITION. The parallel_sample_dispatcher and its command FILTER (43_dispatcher.md). The workers run one entry a step, in
whatever order `Inputs.worker` chooses among those the lanes allow. -/

namespace Sys2Proof.Machine

open Sys2Proof

/-! ### The partition (R105) -/

/-- `q = floor(N / P)` (R105). -/
abbrev chunkQuota (n p : Nat) : Nat := n / p

/-- `start(c) = c * q` (R105). -/
abbrev chunkStart (n p c : Nat) : Nat := c * chunkQuota n p

/-- `len(c)`: q, and for the last chunk `N − (P − 1) * q` (R105). -/
abbrev chunkLen (n p c : Nat) : Nat :=
  if c < p - 1 then chunkQuota n p else n - (p - 1) * chunkQuota n p

/-- k lies in `chunk(c) = [start(c), start(c) + len(c))` (R105). -/
def inChunk (n p c k : Nat) : Bool :=
  decide (chunkStart n p c ≤ k) && decide (k < chunkStart n p c + chunkLen n p c)

/-- The chunk an index belongs to, that is, the worker that processes it (R106): with q > 0 the quotient k / q, but never past the
last chunk; with q = 0 every index is the last chunk's (R111). -/
def chunkOf (n p k : Nat) : Nat :=
  if chunkQuota n p = 0 then p - 1 else min (k / chunkQuota n p) (p - 1)

/-! ### The workers (R106, R109) -/

/-- The indices some lane may process now: those of a chunk a lane has begun, and any other while a lane is free. "A lane may process
several chunks one after another; a chunk is never split between lanes" (R109). -/
def laneChoices (lanes n p : Nat) (todo active : List Nat) : List Nat :=
  todo.filter fun k => active.contains (chunkOf n p k) || decide (active.length < lanes)

/-- The index processed in this step: the `choice`-th of those allowed. Were none allowed (no reachable state: a begun chunk has an
index left), any index left stands in. -/
def pickIndex (lanes n p : Nat) (todo active : List Nat) (choice : Nat) : Nat :=
  let allowed := laneChoices lanes n p todo active
  let pool := if allowed.isEmpty then todo else allowed
  (pool[choice % pool.length]?).getD 0

/-- The chunks begun and unfinished once index k of chunk c is done and `rest` is left (R109). -/
def activeAfter (n p c : Nat) (rest active : List Nat) : List Nat :=
  if rest.any fun j => chunkOf n p j == c then
    if active.contains c then active else c :: active
  else active.erase c

/-- One step of the workers, for FILTER and for the second part of ITER: a worker reads SB[k], computes `filterOne(SB[k])` and writes it to
OB[k] (R106). A read of an unwritten entry faults (R45). The join is the step after which no index is left (R107). -/
def filterAdvance (cmd : LongCommand) (todo active : List Nat) (choice : Nat) (st : State) : Answer :=
  let k := pickIndex st.cfg.lanes cmd.count cmd.chunks todo active choice
  match Memory.read st.sb k with
  | none => .fault (.unwrittenState k)
  | some x =>
    let written := State.writeOB k (filterOne st.cfg x) st
    let rest := todo.erase k
    if rest.isEmpty then .next (State.afterFilter cmd written)
    else
      let c := chunkOf cmd.count cmd.chunks k
      .next (State.setJob (some ⟨cmd, .filter rest (activeAfter cmd.count cmd.chunks c rest active)⟩) written)

/-- FILTER n, p (R110) at acceptance: rejected when `P = 0` or `N > BUF_DEPTH`, else `ERR <- 0` and phase 2 begins, which
`filterAdvance` runs until the join with `BUSY = 1`. -/
def execFilter (n p : U32) (st : State) : Answer :=
  withCountAndChunks n p st fun t => .next (State.enterFilter (.filter n p) (State.accept t))

end Sys2Proof.Machine
end

