-- ==== Sys2Proof/Machine/Lfsr.lean ====
section
/-! DEFINITION. The LFSR_feedback_unit and its commands SEED, STEP and FILL (40_lfsr.md). -/

namespace Sys2Proof.Machine

open Sys2Proof

/-- `fb = x[63] XOR x[62] XOR x[60] XOR x[59]` (R79). -/
def feedback (x : U64) : BitVec 1 :=
  BitVec.ofBool (Bool.xor (Bool.xor (Bool.xor (x.getLsbD 63) (x.getLsbD 62)) (x.getLsbD 60)) (x.getLsbD 59))

/-- `next(x) = (x << 1) OR zext_64(fb)`, bit 63 of x discarded after its use in fb (R79). Total, 0 included (R78, R80). -/
def next (x : U64) : U64 := (x <<< 1) ||| (feedback x).setWidth 64

/-- `next^n(x)`: the state after n advances (R81). -/
def nextN : Nat → U64 → U64
  | 0, x => x
  | n + 1, x => nextN n (next x)

/-- SEED x (R83): `S <- X; ERR <- 0`. Every X is accepted, 0 too; SZ follows S. -/
def execSeed (x : U64) (st : State) : Answer := .next (State.setS x (State.accept st))

/-- STEP (R84): `S <- next(S); RESULT <- S` (the new value) `; ERR <- 0`. -/
def execStep (st : State) : Answer :=
  .next (State.setResult (next st.S) (State.setS (next st.S) (State.accept st)))

/-- FILL n (R85) at acceptance: rejected when `N > BUF_DEPTH`, else `ERR <- 0` and the sequencer enters phase 1, which makes one
advance a step (`fillAdvance`) with `BUSY = 1` until the last. -/
def execFill (n : U32) (st : State) : Answer :=
  withCount n st fun t => .next (State.enterFill (.fill n) (State.accept t))

/-- One advance of phase 1, for FILL and for the first part of ITER: `S <- next(S); MemWrite(SB, k, 8, S)` with k the advances
already made (R85). -/
def fillAdvance (cmd : LongCommand) (k : Nat) (st : State) : State :=
  let advanced := State.writeSB k (next st.S) (State.setS (next st.S) st)
  if k + 1 < cmd.count then State.setJob (some ⟨cmd, .fill (k + 1)⟩) advanced
  else State.afterFill cmd advanced

end Sys2Proof.Machine
end

