-- ==== Sys2Proof/Machine/Stream.lean ====
section
/-! DEFINITION. The stream iteration ITER and the sample output port (44_stream.md). -/

namespace Sys2Proof.Machine

open Sys2Proof

/-- ITER n, p (R113) at acceptance: rejected when `P = 0` or `N > BUF_DEPTH`, else `ERR <- 0` and the three parts follow: phase 1
(`fillAdvance`), phase 2 (`filterAdvance`), phase 3 (`emitAdvance`). -/
def execIter (n p : U32) (st : State) : Answer :=
  withCountAndChunks n p st fun t => .next (State.enterFill (.iter n p) (State.accept t))

/-- One step of part 3 (R114): the core offers OB[k] and holds it until the sink is ready; in the step where `sample_ready` is 1 the byte is
taken, and after the last the command completes. While the sink does not take it nothing happens: the core is stuck, not faulted
(R117). Reading an unwritten entry faults (R45; no ITER does it, R113). -/
def emitAdvance (cmd : LongCommand) (k : Nat) (ready : Bool) (st : State) : Answer :=
  match Memory.read st.ob k with
  | none => .fault (.unwrittenSample k)
  | some b =>
    if ready then
      let taken := State.pushSink b st
      if k + 1 < cmd.count then .next (State.setJob (some ⟨cmd, .emit (k + 1)⟩) taken)
      else .next (State.finish taken)
    else .next st

end Sys2Proof.Machine
end

