-- ==== Sys2Proof/Machine/Dispatch.lean ====
section
/-! DEFINITION. One arm per constructor of Instr: the meaning of a command at its acceptance (R62). -/

namespace Sys2Proof.Machine

open Sys2Proof

def exec (i : Instr) (s : State) : Host.Outcome State Fault Refusal :=
  match i with
  | .nop => Sys2Proof.Machine.execNop s
  | .seed x => Sys2Proof.Machine.execSeed x s
  | .step => Sys2Proof.Machine.execStep s
  | .fill n => Sys2Proof.Machine.execFill n s
  | .lutrd sub idx => Sys2Proof.Machine.execLutrd sub idx s
  | .acc x => Sys2Proof.Machine.execAcc x s
  | .filt1 x => Sys2Proof.Machine.execFilt1 x s
  | .filter n p => Sys2Proof.Machine.execFilter n p s
  | .iter n p => Sys2Proof.Machine.execIter n p s
  | .sbwr a x => Sys2Proof.Machine.execSbwr a x s
  | .sbrd a => Sys2Proof.Machine.execSbrd a s
  | .obrd a => Sys2Proof.Machine.execObrd a s
  | .illegal word operand => Sys2Proof.Machine.execIllegal word operand s

end Sys2Proof.Machine
end

