-- ==== Sys2Proof/WellFormed.lean ====
section
/-! DEFINITION. Which terms of `Instr` are commands. The operand widths of R64 and R65 are the widths of the constructors'
fields, so an operand out of its field cannot be written; the one check left is the opcode of an illegal command. The
assembler's own range checks (R73), on unbounded numbers, are `Source.inRange` of Machine/Assembler.lean. -/

namespace Sys2Proof

/-- R69: `OP` is 0xC, 0xD, 0xE or 0xF, that is, bits 3 and 2 of the command word are 1. -/
def illegalWord (word : U32) : Bool := word.getLsbD 3 && word.getLsbD 2

/-- A well-formed instruction: an `illegal` one holds a word whose opcode is illegal. -/
def Instr.wellFormed : Instr → Bool
  | .nop => true
  | .seed _ => true
  | .step => true
  | .fill _ => true
  | .lutrd _ _ => true
  | .acc _ => true
  | .filt1 _ => true
  | .filter _ _ => true
  | .iter _ _ => true
  | .sbwr _ _ => true
  | .sbrd _ => true
  | .obrd _ => true
  | .illegal word _ => illegalWord word

end Sys2Proof
end

