-- ==== Sys2Proof/Decode.lean ====
section
/-! DEFINITION. The command word's fields (30_encoding.md R64), the formats (R65), the decoder (R67–R70, with the checks 1 to
3 of R128 that need no configuration) and, after it, the encoder (R74). -/

namespace Sys2Proof

/-- `OP`, bits 3:0 of the command word (R64). -/
def opField (word : U32) : BitVec 4 := word.extractLsb' 0 4

/-- `RSV`, bits 11:4 of the command word (R64). -/
def rsvField (word : U32) : BitVec 8 := word.extractLsb' 4 8

/-- `ADDR`, bits 31:12 of the command word (R64). -/
def addrField (word : U32) : EntryAddr := word.extractLsb' 12 20

/-- `N`, bits 31:0 of the operand (formats C and CP, R65). -/
def countField (operand : U64) : U32 := operand.extractLsb' 0 32

/-- `P`, bits 63:32 of the operand (format CP, R65). In format C these bits must be zero. -/
def chunksField (operand : U64) : U32 := operand.extractLsb' 32 32

/-- `J`, bits 7:0 of the operand (format T, R65). -/
def indexField (operand : U64) : BitVec 8 := operand.extractLsb' 0 8

/-- `I`, bits 10:8 of the operand (format T, R65). -/
def subTableField (operand : U64) : BitVec 3 := operand.extractLsb' 8 3

/-- The format of each opcode (R67); none for 0xC to 0xF (R69). -/
def formatOf (op : BitVec 4) : Option Format :=
  match op.toNat with
  | 0 => some .z
  | 1 => some .v
  | 2 => some .z
  | 3 => some .c
  | 4 => some .t
  | 5 => some .v
  | 6 => some .v
  | 7 => some .cp
  | 8 => some .cp
  | 9 => some .av
  | 10 => some .a
  | 11 => some .a
  | _ => none

/-- Formats A and AV use `ADDR`; in every other format it "must be zero" (R64, R65). -/
def Format.usesAddr : Format → Bool
  | .a => true
  | .av => true
  | .z => false
  | .v => false
  | .c => false
  | .cp => false
  | .t => false

/-- "a nonzero bit its format does not use (formats Z, C, T, A)" (R70): the operand has one. -/
def Format.operandExcess : Format → U64 → Bool
  | .z, operand => operand != 0
  | .c, operand => operand.extractLsb' 32 32 != 0
  | .t, operand => operand.extractLsb' 11 53 != 0
  | .a, operand => operand != 0
  | .v, _ => false
  | .cp, _ => false
  | .av, _ => false

/-- The instruction a legal opcode selects (R67), its operands read as R65 and R66 say. -/
def instrOf (c : Command) : Instr :=
  match (opField c.word).toNat with
  | 0 => .nop
  | 1 => .seed c.operand
  | 2 => .step
  | 3 => .fill (countField c.operand)
  | 4 => .lutrd (subTableField c.operand) (indexField c.operand)
  | 5 => .acc c.operand
  | 6 => .filt1 c.operand
  | 7 => .filter (countField c.operand) (chunksField c.operand)
  | 8 => .iter (countField c.operand) (chunksField c.operand)
  | 9 => .sbwr (addrField c.word) c.operand
  | 10 => .sbrd (addrField c.word)
  | 11 => .obrd (addrField c.word)
  | _ => .illegal c.word c.operand

/-- The decoder, total on every command: the instruction, or the error code its fields are rejected with (R70). The order is
that of R128: opcode, then reserved word bits, then operand bits. An illegal opcode is itself a row of the table, whose
meaning rejects it. The checks that need the operand's value or `BUF_DEPTH` (P = 0 and check 4) are the core's at
acceptance (R73) and stand in the meanings. -/
def decode (c : Command) : Except ErrCode Instr :=
  match formatOf (opField c.word) with
  | none => .ok (.illegal c.word c.operand)
  | some f =>
    if rsvField c.word ≠ 0 then .error .reservedField
    else if f.usesAddr = false ∧ addrField c.word ≠ 0 then .error .reservedField
    else if f.operandExcess c.operand = true then .error .badOperand
    else .ok (instrOf c)

/-- A command word of opcode `op` with `ADDR = 0` (R74). -/
def plainWord (op : BitVec 4) : U32 := op.setWidth 32

/-- A command word of opcode `op` with an address: `(A << 12) OR OP` (R74). -/
def addrWord (a : EntryAddr) (op : BitVec 4) : U32 := (a.setWidth 32 <<< 12) ||| op.setWidth 32

/-- The operand `(P << 32) OR N` of format CP (R74). -/
def countOperand (n p : U32) : U64 := (p.setWidth 64 <<< 32) ||| n.setWidth 64

/-- The operand `(I << 8) OR J` of format T (R74). -/
def tableOperand (sub : BitVec 3) (idx : BitVec 8) : U64 := (sub.setWidth 64 <<< 8) ||| idx.setWidth 64

/-- The encoder (R74): the command word and the operand of an instruction. -/
def encode : Instr → Command
  | .nop => ⟨plainWord 0x0, 0⟩
  | .seed x => ⟨plainWord 0x1, x⟩
  | .step => ⟨plainWord 0x2, 0⟩
  | .fill n => ⟨plainWord 0x3, countOperand n 0⟩
  | .lutrd sub idx => ⟨plainWord 0x4, tableOperand sub idx⟩
  | .acc x => ⟨plainWord 0x5, x⟩
  | .filt1 x => ⟨plainWord 0x6, x⟩
  | .filter n p => ⟨plainWord 0x7, countOperand n p⟩
  | .iter n p => ⟨plainWord 0x8, countOperand n p⟩
  | .sbwr a x => ⟨addrWord a 0x9, x⟩
  | .sbrd a => ⟨addrWord a 0xA, 0⟩
  | .obrd a => ⟨addrWord a 0xB, 0⟩
  | .illegal word operand => ⟨word, operand⟩

/-- The command whose 96 bits are the low `nbits` bits of `w`, the rest zero: the command word is bits 31:0 and the operand
bits 95:32. The port carries both whole (R47, R61), so no byte order enters. -/
def commandOfBits (nbits w : Nat) : Command :=
  let bits := w % 2 ^ nbits
  ⟨BitVec.ofNat 32 bits, BitVec.ofNat 64 (bits / 2 ^ 32)⟩

/-- The instruction the decoder reads from an instruction whose bits are `w`, numbered as spec/opcode_table.json numbers
them. -/
def decodeTableWord (nbits w : Nat) : Option Instr := (decode (commandOfBits nbits w)).toOption

end Sys2Proof
end

