-- ==== Sys2Proof/Machine/Sequencer.lean ====
section
/-! DEFINITION. The core sequencer (00_scope.md R16, 30_encoding.md R62, R63): which event a step is, how a busy command goes on, and how
a command comes to stand on the port. -/

namespace Sys2Proof.Machine

open Sys2Proof

/-- What happens in a step. -/
inductive Event where
  /-- `rst` is asserted (R141). -/
  | reset
  /-- A command is busy and goes on (R63). -/
  | work (job : Job)
  /-- Nothing is busy and the host presents nothing (R139). -/
  | idle
  /-- The command on the port is accepted and its fields are legal: it selects this instruction (R62, R68). -/
  | accept (i : Instr)
  /-- The command on the port is accepted and rejected for its fields, with this code (R70, R127). -/
  | reject (code : ErrCode)
  deriving DecidableEq, Repr

/-- The event of the next step. Reset comes before all else: "while it is asserted no command is accepted" (R141) and a byte on offer is
withdrawn (R142). A busy command comes before the port: a host that presents a command then "is held" (R62), and a
command is accepted when `cmd_valid = 1` and `cmd_ready = 1`. -/
def eventOf (st : State) : Event :=
  if st.inputs.rst then .reset
  else
    match st.job with
    | some job => .work job
    | none =>
      if st.inputs.cmdValid then
        match st.host with
        | [] => .idle
        | c :: _ =>
          match decode c with
          | .ok i => .accept i
          | .error code => .reject code
      else .idle

/-- One step of a busy command, with the input levels of the step. -/
def workOn (job : Job) (inputs : Inputs) (st : State) : Answer :=
  match job.work with
  | .fill done => .next (fillAdvance job.command done st)
  | .filter todo active => filterAdvance job.command todo active inputs.worker st
  | .emit taken => emitAdvance job.command taken inputs.sampleReady st

/-- The command `c` stands next on the port of an idle core with reset not asserted, so that the very next step accepts it. -/
def State.present (c : Command) (st : State) : State :=
  { st with
    job := none
    host := c :: st.host
    inputs := { st.inputs with rst := false, cmdValid := true } }

end Sys2Proof.Machine
end

