-- ==== Sys2Proof/Machine/Step.lean ====
section
/-! DEFINITION. One step of the machine. -/

namespace Sys2Proof.Machine

open Sys2Proof

/-- One step: the pins and the count of steps move on (`State.clock`), and the event of the step happens. A command accepted leaves the port
and is executed, or rejected for its fields (R62, R127). -/
def step (s : State) : Host.Outcome State Fault Refusal :=
  match eventOf s with
  | .reset => .next (State.resetCore (State.clock s))
  | .work job => workOn job s.inputs (State.clock s)
  | .idle => .next (State.clock s)
  | .accept i => exec i (State.popHost (State.clock s))
  | .reject code => .next (State.raise code (State.popHost (State.clock s)))

/-- The state with the instruction whose bits are `w` on the command port of an idle core (this core fetches nothing, R59: commands come from
the host). -/
def State.withFetchWord (s : State) (nbits w : Nat) : State := State.present (commandOfBits nbits w) s

end Sys2Proof.Machine
end

