-- ==== Sys2Proof/Machine/Assembler.lean ====
section
/-! DEFINITION. The assembler the spec gives its commands (30_encoding.md R72–R75): source lines, operand ranges, pseudo-instructions and
the assembled form. It makes commands; it is no part of a step. -/

namespace Sys2Proof.Machine

open Sys2Proof

/-- A source line's command (R73, R75): a mnemonic and its operands as the unbounded unsigned numbers that were written. -/
inductive Source where
  | nop
  | seed (x : Nat)
  | step
  | fill (n : Nat)
  | lutrd (i j : Nat)
  | acc (x : Nat)
  | filt1 (x : Nat)
  | filter (n p : Nat)
  | iter (n p : Nat)
  | sbwr (a x : Nat)
  | sbrd (a : Nat)
  | obrd (a : Nat)
  /-- SEEDRST: `SEED 1` (R75). -/
  | seedrst
  /-- ITERDEF: `ITER 131072, 4` (R75). -/
  | iterdef
  deriving DecidableEq, Repr

/-- The operand ranges of R73. "The assembler does not check `N <= BUF_DEPTH`, `A < BUF_DEPTH` or `P >= 1`; the core does." -/
def Source.inRange : Source → Bool
  | .nop => true
  | .seed x => decide (x < 2 ^ 64)
  | .step => true
  | .fill n => decide (n < 2 ^ 32)
  | .lutrd i j => decide (i ≤ 7) && decide (j ≤ 255)
  | .acc x => decide (x < 2 ^ 64)
  | .filt1 x => decide (x < 2 ^ 64)
  | .filter n p => decide (n < 2 ^ 32) && decide (p < 2 ^ 32)
  | .iter n p => decide (n < 2 ^ 32) && decide (p < 2 ^ 32)
  | .sbwr a x => decide (a < 2 ^ 20) && decide (x < 2 ^ 64)
  | .sbrd a => decide (a < 2 ^ 20)
  | .obrd a => decide (a < 2 ^ 20)
  | .seedrst => true
  | .iterdef => true

/-- The instruction of a source command, its fields filled as R73 says and its pseudo-instructions expanded as R75 says. -/
def Source.instr : Source → Instr
  | .nop => .nop
  | .seed x => .seed (BitVec.ofNat 64 x)
  | .step => .step
  | .fill n => .fill (BitVec.ofNat 32 n)
  | .lutrd i j => .lutrd (BitVec.ofNat 3 i) (BitVec.ofNat 8 j)
  | .acc x => .acc (BitVec.ofNat 64 x)
  | .filt1 x => .filt1 (BitVec.ofNat 64 x)
  | .filter n p => .filter (BitVec.ofNat 32 n) (BitVec.ofNat 32 p)
  | .iter n p => .iter (BitVec.ofNat 32 n) (BitVec.ofNat 32 p)
  | .sbwr a x => .sbwr (BitVec.ofNat 20 a) (BitVec.ofNat 64 x)
  | .sbrd a => .sbrd (BitVec.ofNat 20 a)
  | .obrd a => .obrd (BitVec.ofNat 20 a)
  | .seedrst => .seed 1
  | .iterdef => .iter 131072 4

/-- Why a line is no command: "an assembler error, not a command" (R73). -/
inductive AsmError where
  /-- The mnemonic is none of R73 and R75. -/
  | mnemonic
  /-- An operand is not an unsigned number as R72 writes it, or there are too few or too many. -/
  | operands
  /-- An operand is outside its range (R73). -/
  | outOfRange
  deriving DecidableEq, Repr

/-- A source command assembled: the command word and operand of R74, or an error for an operand out of range. -/
def assemble (src : Source) : Except AsmError Command :=
  if src.inRange then .ok (encode src.instr) else .error .outOfRange

/-! ### Text (R72, R74) -/

/-- Spaces and tabs separate; R72 names no other white space. -/
def isBlank (c : Char) : Bool := c == ' ' || c == '\t'

/-- The text without the blanks at its two ends. -/
def trimBlanks (text : List Char) : List Char := ((text.dropWhile isBlank).reverse.dropWhile isBlank).reverse

/-- The value of a digit in a base, none if it is no digit of it. -/
def digitValue (base : Nat) (c : Char) : Option Nat :=
  let v :=
    if '0' ≤ c ∧ c ≤ '9' then c.toNat - '0'.toNat
    else if 'a' ≤ c ∧ c ≤ 'f' then c.toNat - 'a'.toNat + 10
    else if 'A' ≤ c ∧ c ≤ 'F' then c.toNat - 'A'.toNat + 10
    else base
  if v < base then some v else none

/-- The value of a row of digits, read from the left onto what has been read. -/
def digitsValue (base : Nat) : Nat → List Char → Option Nat
  | read, [] => some read
  | read, c :: rest => (digitValue base c).bind fun d => digitsValue base (read * base + d) rest

/-- A number: decimal, or hexadecimal with `0x` (R72). -/
def numberValue : List Char → Option Nat
  | [] => none
  | '0' :: 'x' :: [] => none
  | '0' :: 'x' :: digits => digitsValue 16 0 digits
  | digits => digitsValue 10 0 digits

/-- The text cut at its commas. -/
def splitCommas : List Char → List (List Char)
  | [] => [[]]
  | ',' :: rest => [] :: splitCommas rest
  | c :: rest =>
    match splitCommas rest with
    | [] => [[c]]
    | part :: parts => (c :: part) :: parts

/-- The operands after the mnemonic: none, or numbers separated by commas (R72). -/
def operandValues (text : List Char) : Option (List Nat) :=
  if (trimBlanks text).isEmpty then some []
  else (splitCommas text).mapM fun part => numberValue (trimBlanks part)

/-- The source command of a mnemonic, in capitals, and its operands (R73, R75). -/
def sourceOf (mnemonic : List Char) (operands : List Nat) : Except AsmError Source :=
  if mnemonic = "NOP".toList then match operands with | [] => .ok .nop | _ => .error .operands
  else if mnemonic = "SEED".toList then match operands with | [x] => .ok (.seed x) | _ => .error .operands
  else if mnemonic = "STEP".toList then match operands with | [] => .ok .step | _ => .error .operands
  else if mnemonic = "FILL".toList then match operands with | [n] => .ok (.fill n) | _ => .error .operands
  else if mnemonic = "LUTRD".toList then match operands with | [i, j] => .ok (.lutrd i j) | _ => .error .operands
  else if mnemonic = "ACC".toList then match operands with | [x] => .ok (.acc x) | _ => .error .operands
  else if mnemonic = "FILT1".toList then match operands with | [x] => .ok (.filt1 x) | _ => .error .operands
  else if mnemonic = "FILTER".toList then match operands with | [n, p] => .ok (.filter n p) | _ => .error .operands
  else if mnemonic = "ITER".toList then match operands with | [n, p] => .ok (.iter n p) | _ => .error .operands
  else if mnemonic = "SBWR".toList then match operands with | [a, x] => .ok (.sbwr a x) | _ => .error .operands
  else if mnemonic = "SBRD".toList then match operands with | [a] => .ok (.sbrd a) | _ => .error .operands
  else if mnemonic = "OBRD".toList then match operands with | [a] => .ok (.obrd a) | _ => .error .operands
  else if mnemonic = "SEEDRST".toList then match operands with | [] => .ok .seedrst | _ => .error .operands
  else if mnemonic = "ITERDEF".toList then match operands with | [] => .ok .iterdef | _ => .error .operands
  else .error .mnemonic

/-- One source line (R72): no command when it holds nothing but blanks and a comment, else its command or an error. -/
def assembleLine (line : List Char) : Except AsmError (Option Command) :=
  let text := trimBlanks (line.takeWhile (· != ';'))
  if text.isEmpty then .ok none
  else
    let mnemonic := (text.takeWhile fun c => !isBlank c).map Char.toUpper
    match operandValues (text.dropWhile fun c => !isBlank c) with
    | none => .error .operands
    | some operands => do
      let src ← sourceOf mnemonic operands
      let c ← assemble src
      return some c

/-- A hexadecimal digit, in capitals. -/
def hexDigit (v : Nat) : Char := Char.ofNat (if v < 10 then '0'.toNat + v else 'A'.toNat + (v - 10))

/-- A number in so many hexadecimal digits, "most significant digit first" (R74). -/
def hexDigits : Nat → Nat → List Char
  | 0, _ => []
  | width + 1, v => hexDigits width (v / 16) ++ [hexDigit (v % 16)]

/-- The written form of an assembled command, `WWWWWWWW:OOOOOOOOOOOOOOOO` (R74). -/
def writtenForm (c : Command) : List Char := hexDigits 8 c.word.toNat ++ ':' :: hexDigits 16 c.operand.toNat

end Sys2Proof.Machine
end

