-- ==== Sys2Proof/Machine/Flags.lean ====
section
/-! DEFINITION. The fields of STATUS and the register itself (10_state.md R23–R28). There are no other flags and no condition
codes (R31). -/

namespace Sys2Proof.Machine

open Sys2Proof

/-- The number of an outcome code (R126). -/
def errNumber : ErrCode → BitVec 4
  | .ok => 0
  | .illegalOp => 1
  | .reservedField => 2
  | .badOperand => 3
  | .range => 4

/-- `BUSY`: an accepted command has not completed (R24). -/
def State.busy (st : State) : Bool := st.job.isSome

/-- `SZ`: "the combinational flag `(S = 0)`" (R25). -/
def State.sz (st : State) : Bool := st.S == 0

/-- The phase number of a part of a long command (R26). -/
def Work.phase : Work → BitVec 2
  | .fill _ => 1
  | .filter _ _ => 2
  | .emit _ => 3

/-- `PHASE`: 0 when idle, else the part that is running (R26). -/
def State.phase (st : State) : BitVec 2 :=
  match st.job with
  | none => 0
  | some job => Work.phase job.work

/-- `STATUS` (R23): ERR in bits 7:4, PHASE in 3:2, SZ in 1, BUSY in 0, and zeros in 31:8 (R28). -/
def State.status (st : State) : U32 :=
  ((errNumber st.err).setWidth 32 <<< 4) ||| ((State.phase st).setWidth 32 <<< 2) |||
    ((BitVec.ofBool (State.sz st)).setWidth 32 <<< 1) ||| (BitVec.ofBool (State.busy st)).setWidth 32

end Sys2Proof.Machine
end

