-- ==== Sys2Proof/Machine/Ports.lean ====
section
/-! DEFINITION. What the outside world sees of the core (10_state.md R40): its output ports. They are functions of the state;
reading one has no side effect (R51). -/

namespace Sys2Proof.Machine

open Sys2Proof

/-- `state_q`: S while `BUSY = 0`; while `BUSY = 1` its value is unspecified and the model gives it any value (R21, R148): a free
value. -/
def State.stateQ (st : State) : U64 :=
  if State.busy st then Config.freeStateQ st.tick else st.S

/-- `result`: RESULT (R22), busy or not (R148). -/
def State.resultPort (st : State) : U64 := st.result

/-- `status`: STATUS (R23), valid at every moment (R148). -/
def State.statusPort (st : State) : U32 := State.status st

/-- `cmd_ready`: `NOT BUSY` (R62), and 0 while reset is asserted (R141). -/
def State.cmdReady (st : State) : Bool := !State.busy st && !st.inputs.rst

/-- The host presents a command (R61): it drives `cmd_valid` and has one to issue. -/
def State.cmdValid (st : State) : Bool := st.inputs.cmdValid && !st.host.isEmpty

/-- The byte on offer to the sink: in part 3 of an ITER, the OB entry at the emit index (R113, R114). -/
def State.offered (st : State) : Option (BitVec 8) :=
  match st.job with
  | some ⟨_, .emit taken⟩ => Memory.read st.ob taken
  | some ⟨_, .fill _⟩ => none
  | some ⟨_, .filter _ _⟩ => none
  | none => none

/-- `sample_valid`: 0 outside part 3 of an ITER (R115). -/
def State.sampleValid (st : State) : Bool := (State.offered st).isSome

/-- `sample_data`: the byte on offer; "meaningful only while `sample_valid = 1`" (R115), and else a free value (I7). -/
def State.sampleData (st : State) : BitVec 8 := (State.offered st).getD (Config.freeSampleData st.tick)

/-- The command word and operand the sequencer keeps while `BUSY = 1` (R35); none when idle ("no command held", R39). -/
def State.heldCommand (st : State) : Option Command := st.job.map fun job => encode job.command.instr

end Sys2Proof.Machine
end

