-- ==== Sys2Proof/Safety.lean ====
section
/-! DEFINITION. The terms claims are stated in: runs (70_reset_and_hazards.md R153), what the environment must not do for a command to complete
(R152), the invariant of the machine, the checks of 60_exceptions.md R128 written out as the spec writes them, and the sums of R90 and R99
over the coefficients themselves. -/

namespace Sys2Proof.Machine

open Sys2Proof

/-! ### Runs -/

/-- `k` steps; the run ends at the first fault or refusal. -/
def runFor : Nat → State → Answer
  | 0, s => .next s
  | k + 1, s =>
    match step s with
    | .next t => runFor k t
    | .fault f => .fault f
    | .refused r => .refused r

/-- Reset is not asserted, now or later. -/
def NoReset (s : State) : Prop := s.inputs.rst = false ∧ ∀ i ∈ s.script, i.rst = false

/-- The sink takes a byte in every step, now and later. -/
def SinkReady (s : State) : Prop := s.inputs.sampleReady = true ∧ ∀ i ∈ s.script, i.sampleReady = true

/-- The host presents its next command in every step, now and later, for as long as it has one. -/
def HostReady (s : State) : Prop := s.inputs.cmdValid = true ∧ ∀ i ∈ s.script, i.cmdValid = true

/-- The sink takes no byte in any step, now or later. -/
def SinkNeverReady (s : State) : Prop := s.inputs.sampleReady = false ∧ ∀ i ∈ s.script, i.sampleReady = false

/-- The core is idle, reset is not asserted and the host presents `c`: the next step accepts `c` (R62). -/
def Presents (s : State) (c : Command) : Prop :=
  s.job = none ∧ s.inputs.rst = false ∧ s.inputs.cmdValid = true ∧ s.host.head? = some c

/-- The two states differ at most in the pins, the script and the step count: the core, the sink's history and the host's commands are the same. -/
def SameButPins (s t : State) : Prop :=
  t = { s with inputs := t.inputs, script := t.script, tick := t.tick }

/-- The run has ended: every command of the host's list has been accepted and `BUSY = 0` (R153). -/
def RunEnded (s : State) : Prop := s.host = [] ∧ State.busy s = false

/-- What is observed of a run that has ended (R153). A fault is the run's own outcome (`Host.Outcome.fault`), which no later step clears
(R140). -/
structure Observation where
  S : U64
  result : U64
  status : U32
  sb : Memory 64
  ob : Memory 8
  sink : List (BitVec 8)
  deriving DecidableEq, Repr

/-- The observation of a state (R153). -/
def State.observe (s : State) : Observation := ⟨s.S, s.result, State.status s, s.sb, s.ob, s.sink⟩

/-- What is left once a command is accepted: the state the effect starts from (R62). -/
def afterAcceptance (s : State) : State := State.popHost (State.clock s)

/-! ### The checks of R128, on the numbers of the word and the operand -/

/-- The code a command reports at acceptance: the checks of R128 in their order, on the command's two numbers. -/
def checkCode (depth word operand : Nat) : ErrCode :=
  let op := word % 16
  let rsv := word / 16 % 256
  let addr := word / 4096
  let low := operand % 2 ^ 32
  let high := operand / 2 ^ 32
  if 12 ≤ op then .illegalOp
  else if rsv ≠ 0 then .reservedField
  else if ¬(op = 9 ∨ op = 10 ∨ op = 11) ∧ addr ≠ 0 then .reservedField
  else if (op = 0 ∨ op = 2) ∧ operand ≠ 0 then .badOperand
  else if op = 3 ∧ high ≠ 0 then .badOperand
  else if op = 4 ∧ operand / 2 ^ 11 ≠ 0 then .badOperand
  else if (op = 10 ∨ op = 11) ∧ operand ≠ 0 then .badOperand
  else if (op = 7 ∨ op = 8) ∧ high = 0 then .badOperand
  else if (op = 3 ∨ op = 7 ∨ op = 8) ∧ depth < low then .range
  else if (op = 9 ∨ op = 10 ∨ op = 11) ∧ depth ≤ addr then .range
  else .ok

/-! ### The sums of R90 and R99, over the coefficient vector -/

/-- The sum of R90: over the eight coefficients of byte i. -/
def tableSum (cfg : Config) (i : Fin 8) (j : BitVec 8) : Int :=
  ∑ k : Fin 8, if j.getLsbD k then cfg.coeff[8 * i.val + k.val] else -cfg.coeff[8 * i.val + k.val]

/-- The sum of R99: over all 64 coefficients, "the direct filter". -/
def directSum (cfg : Config) (x : U64) : Int :=
  ∑ k : Fin 64, if x.getLsbD k then cfg.coeff[k] else -cfg.coeff[k]

/-! ### The sequential reading of the commands (R54, R86, R116) -/

/-- What one command makes of the generator register and which bytes it sends to the sink, when it runs to its end by itself. -/
def streamStep (cfg : Config) (S : U64) : Instr → U64 × List (BitVec 8)
  | .nop => (S, [])
  | .seed x => (x, [])
  | .step => (next S, [])
  | .fill n => if cfg.bufDepth < n.toNat then (S, []) else (nextN n.toNat S, [])
  | .lutrd _ _ => (S, [])
  | .acc _ => (S, [])
  | .filt1 _ => (S, [])
  | .filter _ _ => (S, [])
  | .iter n p =>
    if p = 0 ∨ cfg.bufDepth < n.toNat then (S, [])
    else (nextN n.toNat S, (List.range n.toNat).map fun k => filterOne cfg (nextN (k + 1) S))
  | .sbwr _ _ => (S, [])
  | .sbrd _ => (S, [])
  | .obrd _ => (S, [])
  | .illegal _ _ => (S, [])

/-- The same of a command as the host presents it: one that is rejected for its fields changes neither (R127). -/
def streamCommand (cfg : Config) (S : U64) (c : Command) : U64 × List (BitVec 8) :=
  match decode c with
  | .ok i => streamStep cfg S i
  | .error _ => (S, [])

/-- The same of a list of commands, each run to its end before the next. -/
def streamRun (cfg : Config) : U64 → List Command → U64 × List (BitVec 8)
  | S, [] => (S, [])
  | S, c :: rest =>
    let first := streamCommand cfg S c
    let after := streamRun cfg first.1 rest
    (after.1, first.2 ++ after.2)

/-! ### The assembler (R73, R74) -/

/-- A source command whose operands are in the given range is assembled to the command of these two numbers, which decodes to the source
command's instruction; out of the range it is an assembler error and no command. -/
def Assembles (src : Source) (range : Prop) (word operand : Nat) : Prop :=
  (range → ∃ c, assemble src = .ok c ∧ c.word.toNat = word ∧ c.operand.toNat = operand ∧ decode c = .ok src.instr) ∧
  (¬range → assemble src = .error .outOfRange)

/-! ### The invariant -/

/-- The command runs part 1: it is a FILL or an ITER (R35, R113). -/
def LongCommand.Fills (cmd : LongCommand) : Prop := (∃ n, cmd = .fill n) ∨ ∃ n p, cmd = .iter n p

/-- The command runs part 2: it is a FILTER or an ITER (R36, R113). -/
def LongCommand.Filters (cmd : LongCommand) : Prop := (∃ n p, cmd = .filter n p) ∨ ∃ n p, cmd = .iter n p

/-- The command runs part 3: it is an ITER (R114). -/
def LongCommand.Emits (cmd : LongCommand) : Prop := ∃ n p, cmd = .iter n p

/-- A worker has written OB[k] from SB[k], both written (R106). -/
def Filtered (s : State) (k : Nat) : Prop :=
  ∃ x, Memory.read s.sb k = some x ∧ Memory.read s.ob k = some (filterOne s.cfg x)

/-- SB[k] is written. -/
def StateWritten (s : State) (k : Nat) : Prop := (Memory.read s.sb k).isSome = true

/-- In part 1 (FILL and ITER): the advances made are fewer than N, each has written its entry, and the last one written is S (R35, R85). -/
def FillInv (s : State) (cmd : LongCommand) (done : Nat) : Prop :=
  (∀ n p, cmd ≠ .filter n p) ∧ done < cmd.count ∧ (∀ k, k < done → StateWritten s k) ∧
  (0 < done → Memory.read s.sb (done - 1) = some s.S)

/-- In part 2 (FILTER and ITER): some indices below N are left, each once; the others are filtered (R106); an ITER has every state it needs
(R113); the list of chunks begun holds exactly those that have an index done and an index left, each once, and they are no more than the lanes
(R109). -/
def FilterInv (s : State) (cmd : LongCommand) (todo active : List Nat) : Prop :=
  (∀ n, cmd ≠ .fill n) ∧ todo ≠ [] ∧ todo.Nodup ∧ (∀ k ∈ todo, k < cmd.count) ∧
  (∀ k, k < cmd.count → k ∉ todo → Filtered s k) ∧
  (∀ n p, cmd = .iter n p → ∀ k, k < cmd.count → StateWritten s k) ∧
  active.Nodup ∧ active.length ≤ s.cfg.lanes ∧
  ∀ c, c ∈ active ↔
    (∃ j, j < cmd.count ∧ j ∉ todo ∧ chunkOf cmd.count cmd.chunks j = c) ∧ ∃ k ∈ todo, chunkOf cmd.count cmd.chunks k = c

/-- In part 3 (ITER alone): bytes are left to take, and every entry is filtered (R56, R107). -/
def EmitInv (s : State) (cmd : LongCommand) (taken : Nat) : Prop :=
  (∃ n p, cmd = .iter n p) ∧ taken < cmd.count ∧ ∀ k, k < cmd.count → Filtered s k

/-- What holds of the part of a command that is running. -/
def WorkInv (s : State) (cmd : LongCommand) : Work → Prop
  | .fill done => FillInv s cmd done
  | .filter todo active => FilterInv s cmd todo active
  | .emit taken => EmitInv s cmd taken

/-- What holds of the sequencer and the workers while a command is busy. -/
def JobInv (s : State) (job : Job) : Prop :=
  job.command.count ≤ s.cfg.bufDepth ∧ 1 ≤ job.command.chunks ∧ WorkInv s job.command job.work

/-- The invariant of the machine: both buffers in canonical form, every address below `BUF_DEPTH`, and the sequencer's and the workers' hidden state
(R35, R36) what the running command has made it. -/
def CoreInv (s : State) : Prop :=
  Memory.wf s.cfg.bufDepth s.sb = true ∧ Memory.wf s.cfg.bufDepth s.ob = true ∧
  ∀ job, s.job = some job → JobInv s job

/-- Steps of part 2 of a command, one for each entry. -/
def LongCommand.filterSteps : LongCommand → Nat
  | .fill _ => 0
  | .filter n _ => n.toNat
  | .iter n _ => n.toNat

/-- Steps of part 3 of a command in which the sink takes a byte. -/
def LongCommand.emitSteps : LongCommand → Nat
  | .fill _ => 0
  | .filter _ _ => 0
  | .iter n _ => n.toNat

/-- Steps left of a part that is running and of the parts after it. -/
def Job.left (job : Job) : Nat :=
  match job.work with
  | .fill done => (job.command.count - done) + (job.command.filterSteps + job.command.emitSteps)
  | .filter todo _ => todo.length + job.command.emitSteps
  | .emit taken => job.command.count - taken

/-- Steps of a busy command that are left before it completes, not counting those in which the sink takes no byte (R152). -/
def stepsLeft (s : State) : Nat := (s.job.map Job.left).getD 0

end Sys2Proof.Machine
end

