-- ==== Sys2Proof/Certificates/Slice0/Obligations.lean ====
section
/-! DEFINITION. The statements for the provers, each a Prop. A docstring names the rules of spec/ a statement formalises. -/

open Sys2Proof Sys2Proof.Machine

/-! ### Encoding -/

/-- R64, R65, R74: decoding an encoded well-formed instruction gives it back, every operand at every value. -/
def Obligations.DecodeOfEncode : Prop :=
  ∀ i : Instr, i.wellFormed = true → decode (encode i) = .ok i

/-- R67, R68: a command the decoder takes is the encoding of the well-formed instruction it gives, so no two commands select one instruction and
no bit of a command is ignored. -/
def Obligations.EncodeOfDecode : Prop :=
  ∀ (c : Command) (i : Instr), decode c = .ok i → encode i = c ∧ i.wellFormed = true

/-- R74: the word of an encoded command is `(A << 12) OR OP` in formats A and AV and `OP` otherwise; the operand is X, N, `(P << 32) OR N`,
`(I << 8) OR J` or 0. -/
def Obligations.AssembledForm : Prop :=
  (∀ i : Instr, (∀ w o, i ≠ .illegal w o) →
    (encode i).word.toNat =
      match i with
      | .nop => 0
      | .seed _ => 1
      | .step => 2
      | .fill _ => 3
      | .lutrd _ _ => 4
      | .acc _ => 5
      | .filt1 _ => 6
      | .filter _ _ => 7
      | .iter _ _ => 8
      | .sbwr a _ => a.toNat * 2 ^ 12 + 9
      | .sbrd a => a.toNat * 2 ^ 12 + 10
      | .obrd a => a.toNat * 2 ^ 12 + 11
      | .illegal w _ => w.toNat) ∧
  (∀ i : Instr, (∀ w o, i ≠ .illegal w o) →
    (encode i).operand.toNat =
      match i with
      | .nop => 0
      | .seed x => x.toNat
      | .step => 0
      | .fill n => n.toNat
      | .lutrd sub idx => sub.toNat * 2 ^ 8 + idx.toNat
      | .acc x => x.toNat
      | .filt1 x => x.toNat
      | .filter n p => p.toNat * 2 ^ 32 + n.toNat
      | .iter n p => p.toNat * 2 ^ 32 + n.toNat
      | .sbwr _ x => x.toNat
      | .sbrd _ => 0
      | .obrd _ => 0
      | .illegal _ o => o.toNat)

/-- R74's examples and the first and the last word of the illegal range (R69), written out from the encoding tables, decode to the commands they stand for. -/
def Obligations.WrittenWordsDecode : Prop :=
  decode ⟨0x00000002, 0⟩ = .ok .step ∧
  decode ⟨0x00000001, 0x8000000000000000⟩ = .ok (.seed 0x8000000000000000) ∧
  decode ⟨0x00000007, 0x0000000700000064⟩ = .ok (.filter 100 7) ∧
  decode ⟨0x00005009, 0x0000000000001234⟩ = .ok (.sbwr 5 0x1234) ∧
  decode ⟨0x0006300B, 0⟩ = .ok (.obrd 99) ∧
  decode ⟨0x00000004, 0x0000000000000780⟩ = .ok (.lutrd 7 0x80) ∧
  decode ⟨0x0000000C, 0⟩ = .ok (.illegal 0x0000000C 0) ∧
  decode ⟨0xFFFFFFFF, 1⟩ = .ok (.illegal 0xFFFFFFFF 1)

/-! ### The configuration -/

/-- R8, R140: the parameters make a core exactly when they are legal, and then they are that core's; otherwise the configuration is refused. -/
def Obligations.ConfigurationsAreBuiltOrRefused : Prop :=
  ∀ (coeff : Vector Int 64) (shift bufDepth lanes : Nat),
    (((coeff.toList.map Int.natAbs).sum ≤ 2 ^ 31 - 1 ∧ shift ≤ 31 ∧ 1 ≤ bufDepth ∧ bufDepth ≤ 2 ^ 20 ∧ 1 ≤ lanes) →
      ∃ cfg, Config.build coeff shift bufDepth lanes = .ok cfg ∧
        cfg.coeff = coeff ∧ cfg.shift.val = shift ∧ cfg.bufDepth = bufDepth ∧ cfg.lanes = lanes) ∧
    (¬((coeff.toList.map Int.natAbs).sum ≤ 2 ^ 31 - 1 ∧ shift ≤ 31 ∧ 1 ≤ bufDepth ∧ bufDepth ≤ 2 ^ 20 ∧ 1 ≤ lanes) →
      ∃ why, Config.build coeff shift bufDepth lanes = .error why)

/-! ### The step -/

/-- R62, R63: when the command on the port of an idle core decodes to i, the step is exec of i, at the state in which the command has left the port
and the pins have moved on (the host's list and the pins are the model's account of the agents: log entries 4 and 5). -/
def Obligations.StepRunsTheDecodedCommand : Prop :=
  ∀ (s : State) (c : Command) (i : Instr), Presents s c → decode c = .ok i →
    step s = exec i (afterAcceptance s)

/-- R127, R128: every command reports the code of the first check that fails. A rejected one writes that code to ERR and changes nothing else, whatever its
other bits; one that passes every check decodes and is executed, and its acceptance writes ERR = 0.
(That the command leaves the host's list and the pins move on, `afterAcceptance`, is the model's account of the agents: log entries 4 and 5.) -/
def Obligations.AcceptanceReportsTheFirstFailingCheck : Prop :=
  ∀ (s : State) (c : Command), Presents s c →
    let code := checkCode s.cfg.bufDepth c.word.toNat c.operand.toNat
    (code ≠ .ok → step s = .next { afterAcceptance s with err := code }) ∧
    (code = .ok → ∃ i, decode c = .ok i ∧ step s = exec i (afterAcceptance s) ∧
      ∀ t, step s = .next t → t.err = .ok)

/-- R69: a command whose OP is 0xC to 0xF is rejected with E_ILLEGAL_OP and has no other effect, whatever its other bits.
(That the command leaves the host's list and the pins move on, `afterAcceptance`, is the model's account of the agents: log entries 4 and 5.) -/
def Obligations.IllegalOpcodesAreRejected : Prop :=
  (∀ (s : State) (c : Command), Presents s c → 12 ≤ c.word.toNat % 16 →
    step s = .next { afterAcceptance s with err := .illegalOp }) ∧
  ∀ (w : U32) (o : U64) (s : State), exec (.illegal w o) s = .next { s with err := .illegalOp }

/-- R141, R142: in a step with `rst` asserted, busy or not, `cmd_ready` is 0 and the core takes its reset values: the command is abandoned, a byte on offer withdrawn, the configuration as it
was, and the bytes the sink took before stay in its history. -/
def Obligations.ResetPinResetsTheCore : Prop :=
  ∀ s : State, s.inputs.rst = true → State.cmdReady s = false ∧ ∃ t, step s = .next t ∧
    t.S = 1 ∧ t.result = 0 ∧ State.status t = 0 ∧ (∀ a, Memory.read t.sb a = none) ∧ (∀ a, Memory.read t.ob a = none) ∧
    t.job = none ∧ State.heldCommand t = none ∧ State.sampleValid t = false ∧ t.cfg = s.cfg ∧ s.sink <+: t.sink

/-- R39, R144: the reset values of every piece of state, in every configuration, State.reset's own among them. (The configuration of State.reset is log entry 2; the quiet pins
and the empty lists of the agents, under which `cmd_ready` is 1, are log entry 21.) -/
def Obligations.ResetValues : Prop :=
  State.reset = State.resetIn Config.built ∧
  ∀ cfg : Config, let s := State.resetIn cfg
    s.S = 1 ∧ s.result = 0 ∧ State.busy s = false ∧ State.sz s = false ∧ State.phase s = 0 ∧ s.err = .ok ∧
    State.status s = 0 ∧ (∀ a, Memory.read s.sb a = none) ∧ (∀ a, Memory.read s.ob a = none) ∧
    s.job = none ∧ State.heldCommand s = none ∧ State.sampleValid s = false ∧ State.cmdReady s = true ∧ s.cfg = cfg

/-- R35, R62, R147: while a command is busy the port is not ready, and a step with no reset that answers a next state leaves every command the host has to issue where it is; the sequencer
keeps the command word and operand that were accepted, from the acceptance on and for as long as it is busy. -/
def Obligations.BusyCoreHoldsTheHost : Prop :=
  (∀ s : State, State.busy s = true → State.cmdReady s = false) ∧
  (∀ s t : State, s.inputs.rst = false → State.busy s = true → step s = .next t →
    t.host = s.host ∧ (State.busy t = true → State.heldCommand t = State.heldCommand s)) ∧
  ∀ (s t : State) (c : Command), Presents s c → step s = .next t → State.busy t = true → State.heldCommand t = some c

/-- R139: an idle core with no command presented keeps all state; only the pins and the step count move on. -/
def Obligations.IdleCoreKeepsAllState : Prop :=
  ∀ s : State, s.job = none → State.cmdValid s = false → s.inputs.rst = false →
    ∃ t, step s = .next t ∧ SameButPins s t

/-- R23 to R28, R126: the fields of STATUS, ERR with the numbers of R126, the reserved bits zero, and PHASE is 0 exactly when BUSY is 0. (SZ = (S = 0) also while
BUSY = 1, where R25 does not call SZ valid, is the model's: log entry 14.) -/
def Obligations.StatusFields : Prop :=
  ∀ s : State,
    (State.status s).getLsbD 0 = s.job.isSome ∧
    (State.status s).getLsbD 1 = (s.S == 0) ∧
    (State.status s).extractLsb' 2 2 = State.phase s ∧
    (State.status s).extractLsb' 4 4 = errNumber s.err ∧
    (State.status s).extractLsb' 8 24 = 0 ∧
    (errNumber s.err).toNat ≤ 4 ∧
    errNumber .ok = 0 ∧ errNumber .illegalOp = 1 ∧ errNumber .reservedField = 2 ∧ errNumber .badOperand = 3 ∧
    errNumber .range = 4 ∧
    (State.phase s = 0 ↔ State.busy s = false)

/-- R21, R22, R24, R40, R62, R141: while the core is idle `state_q` shows S; `result` shows RESULT and `status` STATUS at every moment; `cmd_ready` is NOT BUSY while reset is
not asserted. -/
def Obligations.PortsShowTheRegisters : Prop :=
  ∀ s : State,
    (State.busy s = false → State.stateQ s = s.S) ∧ State.resultPort s = s.result ∧ State.statusPort s = State.status s ∧
    (s.inputs.rst = false → State.cmdReady s = !State.busy s)

/-! ### What each command does -/

/-- R118: NOP writes ERR = 0 and changes nothing else. -/
def Obligations.NopOnlyClearsErr : Prop :=
  ∀ s : State, exec .nop s = .next { s with err := .ok }

/-- R83: SEED x makes S = x, for every x, and writes ERR = 0; nothing else changes, and SZ then reads (x = 0). -/
def Obligations.SeedLoadsS : Prop :=
  ∀ (x : U64) (s : State), exec (.seed x) s = .next { s with S := x, err := .ok } ∧
    ∀ t, exec (.seed x) s = .next t → State.sz t = (x == 0)

/-- R84, R25: STEP makes S and RESULT the next state and writes ERR = 0; nothing else changes, and SZ keeps its value. -/
def Obligations.StepAdvancesS : Prop :=
  ∀ s : State, exec .step s = .next { s with S := next s.S, result := next s.S, err := .ok } ∧
    ∀ t, exec .step s = .next t → State.sz t = State.sz s

/-- R90, R95: LUTRD i, j puts the sign-extended table entry, the signed sum of the eight coefficients of byte i by the bits of j, into RESULT and writes ERR = 0;
nothing else changes. -/
def Obligations.LutrdReadsTheEntry : Prop :=
  ∀ (sub : BitVec 3) (idx : BitVec 8) (s : State), ∃ t, exec (.lutrd sub idx) s = .next t ∧
    t = { s with result := t.result, err := .ok } ∧
    t.result.toInt = tableSum s.cfg ⟨sub.toNat, sub.isLt⟩ idx

/-- R99, R102: ACC x puts the signed sum of the 64 coefficients by the bits of x, exact and sign-extended, into RESULT and writes ERR = 0; nothing else changes. -/
def Obligations.AccReturnsTheDirectSum : Prop :=
  ∀ (x : U64) (s : State), ∃ t, exec (.acc x) s = .next t ∧
    t = { s with result := t.result, err := .ok } ∧ t.result.toInt = directSum s.cfg x

/-- R13, R14, R100, R103: FILT1 x puts the sum shifted right toward minus infinity by CFG_SHIFT and wrapped to a signed 8-bit value, sign-extended, into RESULT and
writes ERR = 0; nothing else changes. -/
def Obligations.Filt1ReturnsTheSample : Prop :=
  ∀ (x : U64) (s : State), ∃ t, exec (.filt1 x) s = .next t ∧
    t = { s with result := t.result, err := .ok } ∧
    -128 ≤ t.result.toInt ∧ t.result.toInt ≤ 127 ∧
    t.result.toInt % 256 = Int.fdiv (directSum s.cfg x) (2 ^ s.cfg.shift.val) % 256

/-- R119: SBWR a, x writes entry A of SB and ERR = 0 and changes nothing else, every other entry included, when `A < BUF_DEPTH`; else it is rejected with E_RANGE. -/
def Obligations.SbwrWritesOneEntry : Prop :=
  ∀ (a : EntryAddr) (x : U64) (s : State),
    (a.toNat < s.cfg.bufDepth → ∃ t, exec (.sbwr a x) s = .next t ∧ t = { s with sb := t.sb, err := .ok } ∧
      ∀ k, Memory.read t.sb k = if k = a.toNat then some x else Memory.read s.sb k) ∧
    (s.cfg.bufDepth ≤ a.toNat → exec (.sbwr a x) s = .next { s with err := .range })

/-- R120, R45: SBRD a puts a written entry into RESULT and writes ERR = 0 and changes nothing else; an unwritten entry faults; `A >= BUF_DEPTH` is rejected with E_RANGE. -/
def Obligations.SbrdReadsOneEntry : Prop :=
  ∀ (a : EntryAddr) (s : State),
    (a.toNat < s.cfg.bufDepth → ∀ x, Memory.read s.sb a.toNat = some x →
      exec (.sbrd a) s = .next { s with result := x, err := .ok }) ∧
    (a.toNat < s.cfg.bufDepth → Memory.read s.sb a.toNat = none → exec (.sbrd a) s = .fault (.unwrittenState a.toNat)) ∧
    (s.cfg.bufDepth ≤ a.toNat → exec (.sbrd a) s = .next { s with err := .range })

/-- R121, R45: OBRD a puts a written sample, sign-extended, into RESULT and writes ERR = 0 and changes nothing else (nothing is emitted); an unwritten entry faults;
`A >= BUF_DEPTH` is rejected with E_RANGE. -/
def Obligations.ObrdReadsOneSample : Prop :=
  ∀ (a : EntryAddr) (s : State),
    (a.toNat < s.cfg.bufDepth → ∀ b, Memory.read s.ob a.toNat = some b →
      ∃ t, exec (.obrd a) s = .next t ∧ t = { s with result := t.result, err := .ok } ∧ t.result.toInt = b.toInt) ∧
    (a.toNat < s.cfg.bufDepth → Memory.read s.ob a.toNat = none → exec (.obrd a) s = .fault (.unwrittenSample a.toNat)) ∧
    (s.cfg.bufDepth ≤ a.toNat → exec (.obrd a) s = .next { s with err := .range })

/-- R85: FILL n with `N <= BUF_DEPTH` is accepted with ERR = 0 and completes after N steps in which reset is not asserted. Before the last, BUSY = 1 and PHASE = 1.
Then `SB[k] = next^(k+1)(S0)` for k < N, `S = next^N(S0)`, and everything else, the entries from N on and RESULT among them, is as before. (One advance a step is the model's granularity: log entries 6 and 7.) -/
def Obligations.FillStoresTheAdvances : Prop :=
  ∀ (n : U32) (s : State), s.job = none → NoReset s → n.toNat ≤ s.cfg.bufDepth →
    ∃ t u, exec (.fill n) s = .next t ∧ t.err = .ok ∧ t.S = s.S ∧ runFor n.toNat t = .next u ∧
      (∀ m, m < n.toNat → ∃ v, runFor m t = .next v ∧ State.busy v = true ∧ State.phase v = 1) ∧
      SameButPins { s with S := nextN n.toNat s.S, err := .ok, sb := u.sb } u ∧
      (∀ k, k < n.toNat → Memory.read u.sb k = some (nextN (k + 1) s.S)) ∧
      (∀ k, n.toNat ≤ k → Memory.read u.sb k = Memory.read s.sb k)

/-- R107, R108, R110: FILTER n, p with `P >= 1`, `N <= BUF_DEPTH` and SB[0..N-1] written is accepted with ERR = 0 and completes after N worker steps in which reset is not
asserted, in whatever order the workers run and whatever P and P_PHYS are. Before the last, BUSY = 1 and PHASE = 2. Then `OB[k] = filterOne(SB[k])` for k < N and
everything else, the entries from N on, SB, S and RESULT among them, is as before. (One entry a step, and completion at
acceptance for N = 0: log entries 6 and 7.) -/
def Obligations.FilterFiltersEveryEntry : Prop :=
  ∀ (n p : U32) (s : State), s.job = none → NoReset s → p ≠ 0 → n.toNat ≤ s.cfg.bufDepth →
    (∀ k, k < n.toNat → StateWritten s k) →
    ∃ t u, exec (.filter n p) s = .next t ∧ t.err = .ok ∧ t.ob = s.ob ∧ runFor n.toNat t = .next u ∧
      (∀ m, m < n.toNat → ∃ v, runFor m t = .next v ∧ State.busy v = true ∧ State.phase v = 2) ∧
      SameButPins { s with err := .ok, ob := u.ob } u ∧
      (∀ k, k < n.toNat → Memory.read u.ob k = (Memory.read s.sb k).map (filterOne s.cfg)) ∧
      (∀ k, n.toNat ≤ k → Memory.read u.ob k = Memory.read s.ob k)

/-- R26, R113: ITER n, p with `P >= 1` and `N <= BUF_DEPTH` is accepted with ERR = 0 and, with a sink that takes every byte and no reset, completes after 3 N steps; before
the last BUSY = 1, and PHASE is 1 in the first N, 2 in the next N and 3 in the last N. Then SB and S are what FILL n leaves, `OB[k] = filterOne(SB[k])` for k < N, the sink has
taken these N bytes in ascending order, and everything else is as before; no entry needs to have been written. (One advance, entry or byte a step, and completion at acceptance
for N = 0: log entries 6 and 7.) -/
def Obligations.IterFillsFiltersAndEmits : Prop :=
  ∀ (n p : U32) (s : State), s.job = none → NoReset s → SinkReady s → p ≠ 0 → n.toNat ≤ s.cfg.bufDepth →
    ∃ t u, exec (.iter n p) s = .next t ∧ t.err = .ok ∧ t.S = s.S ∧ t.sink = s.sink ∧ runFor (3 * n.toNat) t = .next u ∧
      (∀ m, m < 3 * n.toNat → ∃ v, runFor m t = .next v ∧ State.busy v = true ∧
        State.phase v = if m < n.toNat then 1 else if m < 2 * n.toNat then 2 else 3) ∧
      SameButPins { s with S := nextN n.toNat s.S, err := .ok, sb := u.sb, ob := u.ob, sink := u.sink } u ∧
      (∀ k, k < n.toNat → Memory.read u.sb k = some (nextN (k + 1) s.S)) ∧
      (∀ k, k < n.toNat → Memory.read u.ob k = some (filterOne s.cfg (nextN (k + 1) s.S))) ∧
      (∀ k, n.toNat ≤ k → Memory.read u.sb k = Memory.read s.sb k ∧ Memory.read u.ob k = Memory.read s.ob k) ∧
      u.sink = s.sink ++ (List.range n.toNat).map fun k => filterOne s.cfg (nextN (k + 1) s.S)

/-- R128: FILL, FILTER and ITER are rejected before any effect: with E_BAD_OPERAND when P = 0 (FILTER, ITER), and else with E_RANGE when `N > BUF_DEPTH`. -/
def Obligations.LongCommandsAreRejected : Prop :=
  ∀ (n p : U32) (s : State),
    (s.cfg.bufDepth < n.toNat → exec (.fill n) s = .next { s with err := .range }) ∧
    exec (.filter n 0) s = .next { s with err := .badOperand } ∧
    exec (.iter n 0) s = .next { s with err := .badOperand } ∧
    (p ≠ 0 → s.cfg.bufDepth < n.toNat →
      exec (.filter n p) s = .next { s with err := .range } ∧ exec (.iter n p) s = .next { s with err := .range })

/-- R86: FILL n leaves S equal to what n STEPs leave, and SB[k] equal to the RESULT of the (k+1)-th of them; of everything else it leaves what they leave, but for RESULT, which it does not
write: OB, the entries of SB from N on, the sink's history, and ERR (which no STEP, for N = 0, leaves as it was). The states depend on nothing but the seed and the number of
advances. The STEPs are n executions of STEP one after another. -/
def Obligations.FillIsStepRepeated : Prop :=
  ∀ (n : U32) (s : State) (steps : Nat → State), s.job = none → NoReset s → n.toNat ≤ s.cfg.bufDepth →
    steps 0 = s → (∀ k, k < n.toNat → exec .step (steps k) = .next (steps (k + 1))) →
    ∃ t u m, exec (.fill n) s = .next t ∧ runFor m t = .next u ∧ State.busy u = false ∧
      SameButPins { steps n.toNat with result := s.result, err := .ok, sb := u.sb } u ∧
      (0 < n.toNat → u.err = (steps n.toNat).err) ∧
      (∀ k, k < n.toNat → Memory.read u.sb k = some (steps (k + 1)).result) ∧
      (∀ k, n.toNat ≤ k → Memory.read u.sb k = Memory.read (steps n.toNat).sb k) ∧
      ∀ k, k ≤ n.toNat → (steps k).S = nextN k s.S

/-! ### The generator -/

/-- R79: bit 0 of next(x) is the XOR of bits 63, 62, 60 and 59 of x, and every other bit k + 1 is bit k of x. -/
def Obligations.NextShiftsAndFeedsBack : Prop :=
  ∀ x : U64,
    (next x).getLsbD 0 = Bool.xor (Bool.xor (x.getLsbD 63) (x.getLsbD 62)) (Bool.xor (x.getLsbD 60) (x.getLsbD 59)) ∧
    ∀ k, k < 63 → (next x).getLsbD (k + 1) = x.getLsbD k

/-- R80: next(0) = 0 and next(x) is not 0 for x not 0, so a nonzero S stays nonzero and a zero S zero under any number of advances. -/
def Obligations.NextKeepsZeroAndNonzero : Prop :=
  next 0 = 0 ∧ (∀ x : U64, x ≠ 0 → next x ≠ 0) ∧ ∀ (n : Nat) (x : U64), nextN n x = 0 ↔ x = 0

/-- R81: with `b(n)` the bit 0 of `next^n(seed)`, bit k of `next^n(seed)` is `b(n − k)` for k < n (and k < 64), and
`b(n) = b(n−64) XOR b(n−63) XOR b(n−61) XOR b(n−60)` for n ≥ 64. -/
def Obligations.StateIsASlidingWindow : Prop :=
  (∀ (seed : U64) (n k : Nat), k < n → k < 64 → (nextN n seed).getLsbD k = (nextN (n - k) seed).getLsbD 0) ∧
  ∀ (seed : U64) (n : Nat), 64 ≤ n →
    (nextN n seed).getLsbD 0 =
      Bool.xor (Bool.xor ((nextN (n - 64) seed).getLsbD 0) ((nextN (n - 63) seed).getLsbD 0))
        (Bool.xor ((nextN (n - 61) seed).getLsbD 0) ((nextN (n - 60) seed).getLsbD 0))

/-- R82: from any nonzero seed the generator produces every nonzero 64-bit value exactly once in 2^64 - 1 advances and is then back at the seed, not before. -/
def Obligations.GeneratorHasMaximalLength : Prop :=
  ∀ seed : U64, seed ≠ 0 →
    nextN (2 ^ 64 - 1) seed = seed ∧
    (∀ m, 0 < m → m < 2 ^ 64 - 1 → nextN m seed ≠ seed) ∧
    ∀ y : U64, y ≠ 0 → ∃! m, m < 2 ^ 64 - 1 ∧ nextN m seed = y

/-- R25: only SEED and reset change SZ: every other step that answers a next state keeps it. (Of the steps of a busy command, where R25 does not call SZ valid, this says
the model's SZ: log entry 14.) -/
def Obligations.OnlySeedAndResetChangeSz : Prop :=
  ∀ s t : State, step s = .next t → s.inputs.rst = false → (∀ x, eventOf s ≠ .accept (.seed x)) →
    State.sz t = State.sz s

/-! ### The table and the accumulator -/

/-- R90, R91: every entry is the exact sum of R90, stored as an s32 without wrapping, and lies within 2^31 - 1 of 0; it is twice the sum of the coefficients whose bit is 1 less the sum of the
byte's eight; and it depends on nothing but the coefficients, not on CFG_SHIFT. -/
def Obligations.TableEntriesAreExact : Prop :=
  ∀ (cfg : Config) (i : Fin 8) (j : BitVec 8), (lut cfg i.val j).toInt = tableSum cfg i j ∧
    -2147483647 ≤ tableSum cfg i j ∧ tableSum cfg i j ≤ 2147483647 ∧
    (lut cfg i.val j).toInt =
      2 * (∑ k : Fin 8, if j.getLsbD k then cfg.coeff[8 * i.val + k.val] else 0) - ∑ k : Fin 8, cfg.coeff[8 * i.val + k.val] ∧
    ∀ other : Config, other.coeff = cfg.coeff → lut other i.val j = lut cfg i.val j

/-- R92: `LUT(i, 255 − j) = −LUT(i, j)`, and 255 - j is the bitwise complement of j. -/
def Obligations.TableIsAntisymmetric : Prop :=
  ∀ (cfg : Config) (i : Fin 8) (j : BitVec 8), (lut cfg i.val (255 - j)).toInt = -(lut cfg i.val j).toInt ∧ 255 - j = ~~~j

/-- R93: entry 0 of a sub-table is minus the sum of its byte's coefficients and entry 255 plus it; setting bit k adds twice coefficient 8i + k; and a byte of zero coefficients has
a zero sub-table. -/
def Obligations.TableLaws : Prop :=
  ∀ (cfg : Config) (i : Fin 8),
    (lut cfg i.val 0).toInt = -∑ k : Fin 8, cfg.coeff[8 * i.val + k.val] ∧
    (lut cfg i.val 255).toInt = ∑ k : Fin 8, cfg.coeff[8 * i.val + k.val] ∧
    (∀ (j : BitVec 8) (k : Fin 8), j.getLsbD k = false →
      (lut cfg i.val (j ||| BitVec.twoPow 8 k.val)).toInt = (lut cfg i.val j).toInt + 2 * cfg.coeff[8 * i.val + k.val]) ∧
    ((∀ k : Fin 8, cfg.coeff[8 * i.val + k.val] = 0) → ∀ j, lut cfg i.val j = 0)

/-- R98: the 32-bit accumulator never wraps: its value is the integer sum of the eight entries of the bytes of x, and lies within 2^31 - 1 of 0. -/
def Obligations.AccumulatorNeverWraps : Prop :=
  ∀ (cfg : Config) (x : U64),
    (accSum cfg x).toInt = ∑ i : Fin 8, (lut cfg i.val (x.extractLsb' (8 * i.val) 8)).toInt ∧
    -2147483647 ≤ (accSum cfg x).toInt ∧ (accSum cfg x).toInt ≤ 2147483647

/-- R99: the sum of the eight table lookups is the direct filter's sum over the 64 coefficients, and twice the sum of those whose bit is 1 less the sum of all. -/
def Obligations.TableLookupEqualsDirectFilter : Prop :=
  ∀ (cfg : Config) (x : U64),
    (accSum cfg x).toInt = directSum cfg x ∧
    (accSum cfg x).toInt = 2 * (∑ k : Fin 64, if x.getLsbD k then cfg.coeff[k] else 0) - ∑ k : Fin 64, cfg.coeff[k]

/-- R101: complementing every bit of the state negates the sum; with all coefficients zero every sample is 0; with shift 0 the sample is the sum wrapped to 8 bits. -/
def Obligations.SampleCornerCases : Prop :=
  ∀ (cfg : Config) (x : U64),
    (accSum cfg (~~~x)).toInt = -(accSum cfg x).toInt ∧
    ((∀ k : Fin 64, cfg.coeff[k] = 0) → filterOne cfg x = 0) ∧
    (cfg.shift = 0 → (filterOne cfg x).toInt = trunc8 (accSum cfg x).toInt)

/-! ### The dispatcher -/

/-- R105: the chunks of N and P >= 1 are contiguous, in ascending order, disjoint, and their union is [0, N); the last ends at N. -/
def Obligations.ChunksPartitionTheRange : Prop :=
  ∀ n p : Nat, 1 ≤ p →
    chunkStart n p 0 = 0 ∧
    (∀ c, c + 1 < p → chunkStart n p c + chunkLen n p c = chunkStart n p (c + 1)) ∧
    chunkStart n p (p - 1) + chunkLen n p (p - 1) = n ∧
    (∀ k, k < n → ∃! c, c < p ∧ inChunk n p c k = true) ∧
    (∀ c k, c < p → inChunk n p c k = true → k < n)

/-- R106: every index below N is processed by the worker of the chunk it lies in, and by no other. -/
def Obligations.EachIndexHasItsWorker : Prop :=
  ∀ n p k : Nat, 1 ≤ p → k < n →
    chunkOf n p k < p ∧ ∀ c, c < p → (inChunk n p c k = true ↔ c = chunkOf n p k)

/-- R108, R112: the samples do not depend on P, on P_PHYS, or on the order and interleaving of the workers. Two cores that agree on the coefficients, the shift and the written entries
SB[0..N-1] and run FILTER with any two P >= 1, any lanes and any choices of workers both
reach the join, with `OB[k] = filterOne(SB[k])` and so the same OB[0..N-1]. -/
def Obligations.FilterDoesNotDependOnTheWorkers : Prop :=
  ∀ (n p q : U32) (s z : State), p ≠ 0 → q ≠ 0 → s.job = none → z.job = none → NoReset s → NoReset z →
    n.toNat ≤ s.cfg.bufDepth → n.toNat ≤ z.cfg.bufDepth → s.cfg.coeff = z.cfg.coeff → s.cfg.shift = z.cfg.shift →
    (∀ k, k < n.toNat → StateWritten s k ∧ Memory.read z.sb k = Memory.read s.sb k) →
    ∃ t u v w j l, exec (.filter n p) s = .next t ∧ runFor j t = .next u ∧ State.busy u = false ∧
      exec (.filter n q) z = .next v ∧ runFor l v = .next w ∧ State.busy w = false ∧
      ∀ k, k < n.toNat → Memory.read u.ob k = (Memory.read s.sb k).map (filterOne s.cfg) ∧
        Memory.read w.ob k = Memory.read u.ob k

/-- R45, R111: a FILTER that has an unwritten entry below N to read ends in the fault that names such an entry, whatever order the workers run in. (One entry a step,
and so at most N steps: log entry 6. The run's outcome as the record of the fault: log entry 10.) -/
def Obligations.FilterFaultsOnAnUnwrittenEntry : Prop :=
  ∀ (n p : U32) (s : State), s.job = none → NoReset s → p ≠ 0 → n.toNat ≤ s.cfg.bufDepth →
    (∃ k, k < n.toNat ∧ ¬ StateWritten s k) →
    ∃ t a, exec (.filter n p) s = .next t ∧ runFor n.toNat t = .fault (.unwrittenState a) ∧
      a < n.toNat ∧ ¬ StateWritten s a

/-! ### The stream -/

/-- R114, R115: `sample_valid` is 0 outside part 3 of an ITER, and in the states of the invariant 1 exactly when PHASE is 3. In part 3 the byte on offer is the OB entry at the emit index; in a
step where the sink is ready and reset is not asserted it is appended to the sink's history, and the core offers the next byte or, after the last, completes with
`sample_valid = 0`. -/
def Obligations.ReadySinkTakesTheOfferedByte : Prop :=
  (∀ s : State, (∀ cmd k, s.job ≠ some ⟨cmd, .emit k⟩) → State.sampleValid s = false) ∧
  (∀ s : State, CoreInv s → (State.sampleValid s = true ↔ State.phase s = 3)) ∧
  ∀ (s : State) (cmd : LongCommand) (k : Nat) (b : BitVec 8), CoreInv s →
    s.job = some ⟨cmd, .emit k⟩ → Memory.read s.ob k = some b → s.inputs.rst = false → s.inputs.sampleReady = true →
    State.sampleValid s = true ∧ State.sampleData s = b ∧
    ∃ t, step s = .next t ∧
      SameButPins { s with sink := s.sink ++ [b], job := t.job } t ∧
      (k + 1 < cmd.count → t.job = some ⟨cmd, .emit (k + 1)⟩ ∧ State.sampleValid t = true) ∧
      (cmd.count = k + 1 → t.job = none ∧ State.sampleValid t = false)

/-- R117: while the sink does not take the byte and reset is not asserted, ITER stays where it is: BUSY = 1, PHASE = 3, the same byte on offer, no state changed, no command accepted and no
fault; and with a sink that never takes a byte it does so for ever. -/
def Obligations.StalledSinkHoldsTheCore : Prop :=
  (∀ (s : State) (cmd : LongCommand) (k : Nat), CoreInv s → s.job = some ⟨cmd, .emit k⟩ →
    s.inputs.rst = false → s.inputs.sampleReady = false →
    ∃ t, step s = .next t ∧ SameButPins s t ∧ State.busy t = true ∧ State.phase t = 3 ∧
      State.sampleValid t = true ∧ State.sampleData t = State.sampleData s) ∧
  ∀ (s : State) (cmd : LongCommand) (k steps : Nat), CoreInv s → s.job = some ⟨cmd, .emit k⟩ →
    NoReset s → SinkNeverReady s →
    ∃ t, runFor steps s = .next t ∧ SameButPins s t ∧ State.busy t = true ∧ State.phase t = 3

/-- R116: from a state with S = S0, a host that issues ITERs of legal counts without a pause, whatever their P, to a sink that takes every byte gets `bits_8(filterOne(next^t(S0)))` for t = 1, 2, ..., T in
this order, T the sum of the counts, and S ends as `next^T(S0)`. -/
def Obligations.StreamOfIterations : Prop :=
  ∀ (s : State) (counts : List (U32 × U32)), s.job = none → NoReset s → SinkReady s → HostReady s →
    (∀ np ∈ counts, np.1.toNat ≤ s.cfg.bufDepth ∧ np.2 ≠ 0) →
    s.host = counts.map (fun np => encode (.iter np.1 np.2)) →
    ∃ (steps : Nat) (u : State), runFor steps s = .next u ∧ RunEnded u ∧
      let total := (counts.map fun np => np.1.toNat).sum
      u.S = nextN total s.S ∧
      u.sink = s.sink ++ (List.range total).map fun t => filterOne s.cfg (nextN (t + 1) s.S)

/-- R54, R116: whatever commands the host issues, rejected ones among them, and however it and the sink wait, a run with no reset that ends with every command completed leaves S, and
has sent to the sink the bytes, that the commands give one after another: ITERs emit `bits_8(filterOne(next^t(S)))` with t running on from one to the next, SEED restarts the count
and STEP and FILL shift it, and no other command and no P changes either. -/
def Obligations.StreamLaw : Prop :=
  ∀ (s u : State) (steps : Nat), s.job = none → NoReset s → runFor steps s = .next u → RunEnded u →
    u.S = (streamRun s.cfg s.S s.host).1 ∧ u.sink = s.sink ++ (streamRun s.cfg s.S s.host).2

/-- R54, R108, R117, R151: what a run leaves does not depend on time. Two runs of the same commands from the same idle core, with any pauses of the host and of the sink and any choices of
workers, neither with a reset, both to their end, leave the same observation (R153). -/
def Obligations.ObservationDoesNotDependOnTiming : Prop :=
  ∀ (s z u v : State) (j k : Nat), CoreInv s → s.job = none → SameButPins s z → NoReset s → NoReset z →
    runFor j s = .next u → runFor k z = .next v → RunEnded u → RunEnded v → State.observe u = State.observe v

/-- R113: an ITER never reads an unwritten entry: no step of a busy ITER faults or is refused. -/
def Obligations.IterNeverFaults : Prop :=
  ∀ (s : State) (n p : U32) (work : Work), CoreInv s → s.job = some ⟨.iter n p, work⟩ → ∃ t, step s = .next t

/-! ### The whole machine -/

/-- R22: RESULT is written only by STEP, LUTRD, ACC, FILT1, SBRD and OBRD (and by reset): a step that changes it is one of these. -/
def Obligations.OnlyReturningCommandsWriteResult : Prop :=
  ∀ s t : State, step s = .next t → t.result ≠ s.result →
    s.inputs.rst = true ∨ eventOf s = .accept .step ∨ (∃ i j, eventOf s = .accept (.lutrd i j)) ∨
    (∃ x, eventOf s = .accept (.acc x)) ∨ (∃ x, eventOf s = .accept (.filt1 x)) ∨
    (∃ a, eventOf s = .accept (.sbrd a)) ∨ ∃ a, eventOf s = .accept (.obrd a)

/-- R20: S is written only by SEED, STEP, the advances of FILL and ITER, and reset: a step that changes it is one of these, and writes what the rule of each gives. (One advance a step: log
entry 6. That the busy command is a FILL or an ITER holds in the states of the invariant.) -/
def Obligations.OnlyTheGeneratorWritesS : Prop :=
  ∀ s t : State, step s = .next t → t.S ≠ s.S →
    (s.inputs.rst = true ∧ t.S = 1) ∨ (eventOf s = .accept .step ∧ t.S = next s.S) ∨
    (∃ x, eventOf s = .accept (.seed x) ∧ t.S = x) ∨
    ∃ cmd done, s.job = some ⟨cmd, .fill done⟩ ∧ t.S = next s.S ∧ (CoreInv s → cmd.Fills)

/-- R33, R34, R42, R43: SB is written only by the advances of FILL and ITER and by SBWR, and OB only by the workers of FILTER and ITER (the host cannot write OB). Reset apart, a step that changes
SB is an advance, which writes the entry of its number, or accepts SBWR, which writes entry A; one that changes OB is a worker's, which writes the entry it picked; every other entry is as
before. (One entry a step, and the choice of the worker: log entries 6 and 8. The commands' names hold in the states of the invariant.) -/
def Obligations.BuffersHaveOnlyTheirWriters : Prop :=
  ∀ s t : State, step s = .next t → s.inputs.rst = false →
    (t.sb ≠ s.sb →
      (∃ cmd done, s.job = some ⟨cmd, .fill done⟩ ∧ (CoreInv s → cmd.Fills) ∧
        ∀ k, Memory.read t.sb k = if k = done then some (next s.S) else Memory.read s.sb k) ∨
      (∃ a x, eventOf s = .accept (.sbwr a x) ∧
        ∀ k, Memory.read t.sb k = if k = a.toNat then some x else Memory.read s.sb k)) ∧
    (t.ob ≠ s.ob →
      ∃ cmd todo active, s.job = some ⟨cmd, .filter todo active⟩ ∧ (CoreInv s → cmd.Filters) ∧
        let picked := pickIndex s.cfg.lanes cmd.count cmd.chunks todo active s.inputs.worker
        ∀ k, Memory.read t.ob k =
          if k = picked then (Memory.read s.sb picked).map (filterOne s.cfg) else Memory.read s.ob k)

/-- R45: an entry of SB or OB that is written stays written until reset. -/
def Obligations.WrittenEntriesStayWritten : Prop :=
  ∀ s t : State, step s = .next t → s.inputs.rst = false → ∀ k,
    ((Memory.read s.sb k).isSome = true → (Memory.read t.sb k).isSome = true) ∧
    ((Memory.read s.ob k).isSome = true → (Memory.read t.ob k).isSome = true)

/-- R27, R124: ERR is written only when a command is accepted, and by reset: an idle step with no command and every step of a busy command keep it. -/
def Obligations.ErrIsWrittenOnlyAtAcceptance : Prop :=
  ∀ s t : State, step s = .next t → t.err ≠ s.err →
    s.inputs.rst = true ∨ (State.busy s = false ∧ ((∃ i, eventOf s = .accept i) ∨ ∃ code, eventOf s = .reject code ∧ t.err = code))

/-- R38, R51, R142: no step changes the configuration, and the sink's history only grows, by at most one byte a step, the OB entry at the emit index, and only in part 3 of an ITER (none in a
step with reset asserted: log entry 9). That the command in part 3 is an ITER holds in the states of the invariant. -/
def Obligations.ConfigurationAndHistoryAreKept : Prop :=
  ∀ s t : State, step s = .next t →
    t.cfg = s.cfg ∧
    (t.sink = s.sink ∨
      (∃ cmd k b, s.job = some ⟨cmd, .emit k⟩ ∧ (CoreInv s → cmd.Emits) ∧ Memory.read s.ob k = some b ∧
        s.inputs.sampleReady = true ∧ s.inputs.rst = false ∧ t.sink = s.sink ++ [b]))

/-- The invariant holds at reset, in every configuration. -/
def Obligations.InvariantAtReset : Prop :=
  CoreInv State.reset ∧ ∀ cfg : Config, CoreInv (State.resetIn cfg)

/-- Every step keeps the invariant: both buffers in canonical form below BUF_DEPTH (R42, R43), and the sequencer's and the workers' hidden state what the running command has made it
(R35, R36, R106, R109). -/
def Obligations.InvariantKeptByEveryStep : Prop :=
  ∀ s t : State, CoreInv s → step s = .next t → CoreInv t

/-- R152: a busy step that the sink does not hold up and reset does not end makes one step's progress, or ends in the fault of R45 (FILTER only). The steps are the model's own
granularity (log entry 6). -/
def Obligations.BusyStepsMakeProgress : Prop :=
  ∀ s : State, CoreInv s → s.inputs.rst = false → State.busy s = true →
    ((∃ cmd k, s.job = some ⟨cmd, .emit k⟩) → s.inputs.sampleReady = true) →
    (∃ t, step s = .next t ∧ stepsLeft t + 1 = stepsLeft s ∧ (stepsLeft t = 0 ↔ State.busy t = false)) ∨
    (∃ a n p todo active, step s = .fault (.unwrittenState a) ∧ s.job = some ⟨.filter n p, .filter todo active⟩ ∧
      a < n.toNat ∧ ¬ StateWritten s a)

/-- R152: from every state of the invariant in which an ITER or a FILL is busy, with no reset and a sink that takes every byte, the command completes within `stepsLeft` steps. (The
steps are the model's own granularity: log entry 6.) -/
def Obligations.FillAndIterComplete : Prop :=
  ∀ (s : State) (job : Job), CoreInv s → s.job = some job → (∀ n p, job.command ≠ .filter n p) →
    NoReset s → SinkReady s →
    ∃ u, runFor (stepsLeft s) s = .next u ∧ State.busy u = false

/-! ### The assembler -/

/-- R73, R74, R75: for each mnemonic, the command word and the operand as numbers of the source's numbers, the range of each operand, the decoding of the command, and the error for an operand out
of its range; SEEDRST and ITERDEF are `SEED 1` and `ITER 131072, 4`. -/
def Obligations.AssembledSourceDecodes : Prop :=
  Assembles .nop True 0 0 ∧
  (∀ x, Assembles (.seed x) (x < 2 ^ 64) 1 x) ∧
  Assembles .step True 2 0 ∧
  (∀ n, Assembles (.fill n) (n < 2 ^ 32) 3 n) ∧
  (∀ i j, Assembles (.lutrd i j) (i ≤ 7 ∧ j ≤ 255) 4 (i * 2 ^ 8 + j)) ∧
  (∀ x, Assembles (.acc x) (x < 2 ^ 64) 5 x) ∧
  (∀ x, Assembles (.filt1 x) (x < 2 ^ 64) 6 x) ∧
  (∀ n p, Assembles (.filter n p) (n < 2 ^ 32 ∧ p < 2 ^ 32) 7 (p * 2 ^ 32 + n)) ∧
  (∀ n p, Assembles (.iter n p) (n < 2 ^ 32 ∧ p < 2 ^ 32) 8 (p * 2 ^ 32 + n)) ∧
  (∀ a x, Assembles (.sbwr a x) (a < 2 ^ 20 ∧ x < 2 ^ 64) (a * 2 ^ 12 + 9) x) ∧
  (∀ a, Assembles (.sbrd a) (a < 2 ^ 20) (a * 2 ^ 12 + 10) 0) ∧
  (∀ a, Assembles (.obrd a) (a < 2 ^ 20) (a * 2 ^ 12 + 11) 0) ∧
  Assembles .seedrst True 1 1 ∧
  Assembles .iterdef True 8 (4 * 2 ^ 32 + 131072) ∧
  assemble .seedrst = assemble (.seed 1) ∧ assemble .iterdef = assemble (.iter 131072 4)
end

