-- ==== Sys2Proof/Laws/Encoding.lean ====
section
/-! SUPPORT. The fields of the words and operands the encoder writes: each reads back what was put there, and no other bit is set. -/

namespace Sys2Proof

@[simp] theorem countField_countOperand (n p : U32) : countField (countOperand n p) = n := by
  ext i hi
  simp [countField, countOperand, hi]
  omega

@[simp] theorem chunksField_countOperand (n p : U32) : chunksField (countOperand n p) = p := by
  ext i hi
  simp [chunksField, countOperand, hi, show 32 + i < 64 by omega]

/-- Bits 63:32 of a count operand, as the format check of FILL reads them. -/
@[simp] theorem extract_high_countOperand (n p : U32) : (countOperand n p).extractLsb' 32 32 = p :=
  chunksField_countOperand n p

@[simp] theorem indexField_tableOperand (sub : BitVec 3) (idx : BitVec 8) :
    indexField (tableOperand sub idx) = idx := by
  ext i hi
  simp [indexField, tableOperand, hi]
  omega

@[simp] theorem subTableField_tableOperand (sub : BitVec 3) (idx : BitVec 8) :
    subTableField (tableOperand sub idx) = sub := by
  ext i hi
  simp [subTableField, tableOperand, hi, show 8 + i < 64 by omega]

@[simp] theorem extract_high_tableOperand (sub : BitVec 3) (idx : BitVec 8) :
    (tableOperand sub idx).extractLsb' 11 53 = 0 := by
  ext i hi
  simp only [tableOperand, BitVec.getElem_extractLsb', BitVec.getLsbD_or, BitVec.getLsbD_shiftLeft,
    BitVec.getLsbD_setWidth, BitVec.ofNat_eq_ofNat, BitVec.getElem_zero, Bool.or_eq_false_iff, Bool.and_eq_false_iff]
  exact ⟨.inr (.inr (BitVec.getLsbD_of_ge _ _ (by omega))), .inr (BitVec.getLsbD_of_ge _ _ (by omega))⟩

@[simp] theorem addrField_addrWord (a : EntryAddr) (op : BitVec 4) : addrField (addrWord a op) = a := by
  ext i hi
  simp [addrField, addrWord, hi, show 12 + i < 32 by omega,
    BitVec.getLsbD_of_ge op (12 + i) (by omega)]

@[simp] theorem opField_addrWord (a : EntryAddr) (op : BitVec 4) : opField (addrWord a op) = op := by
  ext i hi
  simp only [opField, addrWord, BitVec.getElem_extractLsb', BitVec.getLsbD_or, BitVec.getLsbD_shiftLeft,
    BitVec.getLsbD_setWidth]
  simp [hi, show i < 12 by omega, show i < 32 by omega]

@[simp] theorem rsvField_addrWord (a : EntryAddr) (op : BitVec 4) : rsvField (addrWord a op) = 0 := by
  ext i hi
  simp only [rsvField, addrWord, BitVec.getElem_extractLsb', BitVec.getLsbD_or, BitVec.getLsbD_shiftLeft,
    BitVec.getLsbD_setWidth]
  simp [show 4 + i < 12 by omega]

@[simp] theorem opField_plainWord (op : BitVec 4) : opField (plainWord op) = op := by
  ext i hi
  simp [opField, plainWord, hi]
  omega

@[simp] theorem rsvField_plainWord (op : BitVec 4) : rsvField (plainWord op) = 0 := by
  ext i hi
  simp [rsvField, plainWord]

@[simp] theorem addrField_plainWord (op : BitVec 4) : addrField (plainWord op) = 0 := by
  ext i hi
  simp [addrField, plainWord]
  intro h
  exact BitVec.getLsbD_of_ge _ _ (by omega)

/-- An illegal word selects no format (R69), and only an illegal word does. -/
theorem formatOf_eq_none_iff (word : U32) : formatOf (opField word) = none ↔ illegalWord word = true := by
  have h : ∀ op : BitVec 4, formatOf op = none ↔ (op.getLsbD 3 && op.getLsbD 2) = true := by decide
  simpa [illegalWord, opField] using h (opField word)

/-! The same words and operands as numbers. -/

theorem addrWord_toNat (a : EntryAddr) (op : BitVec 4) :
    (addrWord a op).toNat = a.toNat * 2 ^ 12 + op.toNat := by
  have ha := a.isLt
  have ho := op.isLt
  have h : addrWord a op = (a.setWidth 32 <<< 12) + op.setWidth 32 := by
    rw [addrWord, ← BitVec.add_eq_or_of_and_eq_zero]
    ext i hi
    simp
    intro _ _
    exact BitVec.getLsbD_of_ge _ _ (by omega)
  rw [h]
  simp [Nat.shiftLeft_eq]
  omega

theorem countOperand_toNat (n p : U32) : (countOperand n p).toNat = p.toNat * 2 ^ 32 + n.toNat := by
  have hn := n.isLt
  have hp := p.isLt
  have h : countOperand n p = (p.setWidth 64 <<< 32) + n.setWidth 64 := by
    rw [countOperand, ← BitVec.add_eq_or_of_and_eq_zero]
    ext i hi
    simp
    intro _ _
    exact BitVec.getLsbD_of_ge _ _ (by omega)
  rw [h]
  simp [Nat.shiftLeft_eq]
  omega

theorem tableOperand_toNat (sub : BitVec 3) (idx : BitVec 8) :
    (tableOperand sub idx).toNat = sub.toNat * 2 ^ 8 + idx.toNat := by
  have hs := sub.isLt
  have hi := idx.isLt
  have h : tableOperand sub idx = (sub.setWidth 64 <<< 8) + idx.setWidth 64 := by
    rw [tableOperand, ← BitVec.add_eq_or_of_and_eq_zero]
    ext i hi
    simp
    intro _ _
    exact BitVec.getLsbD_of_ge _ _ (by omega)
  rw [h]
  simp [Nat.shiftLeft_eq]
  omega

/-- A command word is its three fields (R64). -/
theorem word_eq_fields (w : U32) :
    w.toNat = (addrField w).toNat * 2 ^ 12 + (rsvField w).toNat * 2 ^ 4 + (opField w).toNat := by
  have := w.isLt
  simp [addrField, rsvField, opField, Nat.shiftRight_eq_div_pow]
  omega

/-- An operand is its two halves (format CP, R65). -/
theorem operand_eq_fields (o : U64) : o.toNat = (chunksField o).toNat * 2 ^ 32 + (countField o).toNat := by
  have := o.isLt
  simp [chunksField, countField, Nat.shiftRight_eq_div_pow]
  omega

/-- The fields as the spec's check list writes them, on the number of the word (R128). -/
theorem opField_toNat (w : U32) : (opField w).toNat = w.toNat % 16 := by simp [opField]

theorem rsvField_toNat (w : U32) : (rsvField w).toNat = w.toNat / 16 % 256 := by
  simp [rsvField, Nat.shiftRight_eq_div_pow]

theorem addrField_toNat (w : U32) : (addrField w).toNat = w.toNat / 4096 := by
  have := w.isLt
  simp [addrField, Nat.shiftRight_eq_div_pow]
  omega

theorem countField_toNat (o : U64) : (countField o).toNat = o.toNat % 2 ^ 32 := by simp [countField]

theorem chunksField_toNat (o : U64) : (chunksField o).toNat = o.toNat / 2 ^ 32 := by
  have := o.isLt
  simp [chunksField, Nat.shiftRight_eq_div_pow]
  omega

end Sys2Proof
end

