-- ==== Sys2Proof/Laws/Lfsr.lean ====
section
/-! SUPPORT. The feedback function bit by bit, and n-fold advances (40_lfsr.md R79–R81). -/

namespace Sys2Proof.Machine

open Sys2Proof

theorem next_getLsbD_succ (x : U64) {k : Nat} (h : k < 63) : (next x).getLsbD (k + 1) = x.getLsbD k := by
  simp only [next, BitVec.getLsbD_or, BitVec.getLsbD_shiftLeft, BitVec.getLsbD_setWidth]
  simp [show k + 1 < 64 by omega]

theorem next_getLsbD_zero (x : U64) :
    (next x).getLsbD 0 = Bool.xor (Bool.xor (Bool.xor (x.getLsbD 63) (x.getLsbD 62)) (x.getLsbD 60)) (x.getLsbD 59) := by
  simp only [next, BitVec.getLsbD_or, BitVec.getLsbD_shiftLeft, BitVec.getLsbD_setWidth, feedback]
  simp

@[simp] theorem next_zero : next 0 = 0 := by decide

/-- The feedback function is linear over bitwise XOR. -/
theorem next_xor (x y : U64) : next (x ^^^ y) = next x ^^^ next y := by
  apply BitVec.eq_of_getLsbD_eq
  intro k hk
  cases k with
  | zero =>
    simp only [BitVec.getLsbD_xor, next_getLsbD_zero]
    generalize x.getLsbD 63 = a
    generalize x.getLsbD 62 = b
    generalize x.getLsbD 60 = c
    generalize x.getLsbD 59 = d
    generalize y.getLsbD 63 = e
    generalize y.getLsbD 62 = f
    generalize y.getLsbD 60 = g
    generalize y.getLsbD 59 = h
    revert a b c d e f g h
    decide
  | succ k => simp only [BitVec.getLsbD_xor, next_getLsbD_succ _ (show k < 63 by omega)]

@[simp] theorem nextN_zero (x : U64) : nextN 0 x = x := rfl

theorem nextN_succ (n : Nat) (x : U64) : nextN (n + 1) x = next (nextN n x) := by
  induction n generalizing x with
  | zero => rfl
  | succ n ih => exact ih (next x)

theorem nextN_add (m n : Nat) (x : U64) : nextN (m + n) x = nextN n (nextN m x) := by
  induction n with
  | zero => rfl
  | succ n ih => rw [← Nat.add_assoc, nextN_succ, nextN_succ, ih]

theorem nextN_xor (n : Nat) (x y : U64) : nextN n (x ^^^ y) = nextN n x ^^^ nextN n y := by
  induction n with
  | zero => rfl
  | succ n ih => simp only [nextN_succ, ih, next_xor]

end Sys2Proof.Machine
end

