-- ==== Sys2Proof/Laws/Memory.lean ====
section
/-! SUPPORT. The laws of the two buffers: read after write, and the canonical form is kept. -/

namespace Sys2Proof.Machine

open Sys2Proof

variable {w : Nat}

@[simp] theorem Memory.read_nil (a : Nat) : Memory.read ([] : Memory w) a = none := rfl

/-- Read after write: the value at the address written, everything else as before. -/
theorem Memory.read_write (m : Memory w) (a b : Nat) (v : BitVec w) :
    Memory.read (Memory.write m a v) b = if b = a then some v else Memory.read m b := by
  induction m with
  | nil => simp [Memory.write, Memory.read]
  | cons cell m ih =>
    obtain ⟨c, u⟩ := cell
    simp only [Memory.write]
    split
    · simp [Memory.read]
    · split
      · next h => subst h; simp only [Memory.read]; split <;> rfl
      · next h1 h2 =>
        simp only [Memory.read, ih]
        by_cases hb : b = c
        · subst hb; simp [Ne.symm h2]
        · simp [hb]

@[simp] theorem Memory.read_write_same (m : Memory w) (a : Nat) (v : BitVec w) :
    Memory.read (Memory.write m a v) a = some v := by simp [Memory.read_write]

theorem Memory.read_write_other (m : Memory w) {a b : Nat} (v : BitVec w) (h : b ≠ a) :
    Memory.read (Memory.write m a v) b = Memory.read m b := by simp [Memory.read_write, h]

/-- A written entry stays written under any write. -/
theorem Memory.isSome_read_write (m : Memory w) (a b : Nat) (v : BitVec w)
    (h : (Memory.read m b).isSome = true) : (Memory.read (Memory.write m a v) b).isSome = true := by
  rw [Memory.read_write]
  split
  · rfl
  · exact h

/-- The rising form as Lean's own list predicate. -/
theorem Memory.rising_iff (m : Memory w) :
    Memory.rising m = true ↔ m.Pairwise fun c d => c.1 < d.1 := by
  induction m with
  | nil => simp [Memory.rising]
  | cons cell m ih =>
    cases m with
    | nil => simp [Memory.rising]
    | cons d m =>
      obtain ⟨a, u⟩ := cell
      obtain ⟨b, v⟩ := d
      simp only [Memory.rising, Bool.and_eq_true, decide_eq_true_eq, ih]
      constructor
      · rintro ⟨hab, hp⟩
        refine List.pairwise_cons.mpr ⟨?_, hp⟩
        intro e he
        rcases List.mem_cons.mp he with rfl | he'
        · exact hab
        · exact lt_trans hab ((List.pairwise_cons.mp hp).1 e he')
      · intro hp
        exact ⟨(List.pairwise_cons.mp hp).1 _ (List.mem_cons_self ..), (List.pairwise_cons.mp hp).2⟩

/-- The addresses after a write: those before it, and the address written. -/
theorem Memory.mem_write {m : Memory w} {a : Nat} {v : BitVec w} {c : Nat × BitVec w}
    (h : c ∈ Memory.write m a v) : c.1 = a ∨ c ∈ m := by
  induction m with
  | nil => simp only [Memory.write, List.mem_singleton] at h; exact .inl (by rw [h])
  | cons d m ih =>
    obtain ⟨b, u⟩ := d
    simp only [Memory.write] at h
    split at h
    · rcases List.mem_cons.mp h with rfl | h
      · exact .inl rfl
      · exact .inr h
    · split at h
      · rcases List.mem_cons.mp h with rfl | h
        · exact .inl rfl
        · exact .inr (List.mem_cons_of_mem _ h)
      · rcases List.mem_cons.mp h with rfl | h
        · exact .inr (List.mem_cons_self ..)
        · exact (ih h).imp id (List.mem_cons_of_mem _)

/-- A write keeps the addresses strictly rising. -/
theorem Memory.rising_write {m : Memory w} (h : Memory.rising m = true) (a : Nat) (v : BitVec w) :
    Memory.rising (Memory.write m a v) = true := by
  rw [Memory.rising_iff] at h ⊢
  induction m with
  | nil => simp [Memory.write]
  | cons d m ih =>
    obtain ⟨b, u⟩ := d
    obtain ⟨hb, hm⟩ := List.pairwise_cons.mp h
    simp only [Memory.write]
    split
    · next hlt =>
      refine List.pairwise_cons.mpr ⟨?_, h⟩
      intro e he
      rcases List.mem_cons.mp he with rfl | he
      · exact hlt
      · exact lt_trans hlt (hb e he)
    · split
      · next heq => subst heq; exact List.pairwise_cons.mpr ⟨hb, hm⟩
      · next h1 h2 =>
        refine List.pairwise_cons.mpr ⟨?_, ih hm⟩
        intro e he
        rcases Memory.mem_write he with h | h
        · simp only [h]; omega
        · exact hb e h

/-- The canonical form, in full (the one unfolding of `Memory.wf`). -/
theorem Memory.wf_iff (depth : Nat) (m : Memory w) :
    Memory.wf depth m = true ↔ Memory.rising m = true ∧ ∀ c ∈ m, c.1 < depth := by
  simp [Memory.wf]

@[simp] theorem Memory.wf_nil (depth : Nat) : Memory.wf depth ([] : Memory w) = true := by simp [Memory.wf, Memory.rising]

/-- A write below the depth keeps the canonical form: every memory operation keeps it, since this is the only one that changes a buffer. -/
theorem Memory.wf_write {depth : Nat} {m : Memory w} (h : Memory.wf depth m = true) {a : Nat}
    (ha : a < depth) (v : BitVec w) : Memory.wf depth (Memory.write m a v) = true := by
  rw [Memory.wf_iff] at h ⊢
  refine ⟨Memory.rising_write h.1 a v, ?_⟩
  intro c hc
  rcases Memory.mem_write hc with e | hm
  · rw [e]; exact ha
  · exact h.2 c hm

/-- An address with a value is listed, so it is below the depth of a canonical memory. -/
theorem Memory.lt_of_read {depth : Nat} {m : Memory w} (h : Memory.wf depth m = true) {a : Nat} {v : BitVec w}
    (hr : Memory.read m a = some v) : a < depth := by
  have hall := ((Memory.wf_iff depth m).mp h).2
  clear h
  induction m with
  | nil => simp at hr
  | cons c m ih =>
    obtain ⟨b, u⟩ := c
    simp only [Memory.read] at hr
    split at hr
    · next e => subst e; exact hall _ (List.mem_cons_self ..)
    · exact ih hr fun d hd => hall d (List.mem_cons_of_mem _ hd)

/-- Below its first address a buffer in canonical form has no entry. -/
theorem Memory.read_of_lt {a : Nat} {m : Memory w} (h : ∀ cell ∈ m, a < cell.1) : Memory.read m a = none := by
  induction m with
  | nil => rfl
  | cons cell m ih =>
    have h0 := h cell (List.mem_cons_self ..)
    simp only [Memory.read, if_neg h0.ne]
    exact ih fun d hd => h d (List.mem_cons_of_mem _ hd)

/-- Two buffers in canonical form that read the same are the same data. -/
theorem Memory.ext_of_read {m l : Memory w} (hm : Memory.rising m = true) (hl : Memory.rising l = true)
    (h : ∀ a, Memory.read m a = Memory.read l a) : m = l := by
  rw [Memory.rising_iff] at hm hl
  induction m generalizing l with
  | nil =>
    cases l with
    | nil => rfl
    | cons d l => have := h d.1; simp [Memory.read] at this
  | cons c m ih =>
    obtain ⟨a, u⟩ := c
    cases l with
    | nil => have := h a; simp [Memory.read] at this
    | cons d l =>
      obtain ⟨b, v⟩ := d
      obtain ⟨hm0, hm1⟩ := List.pairwise_cons.mp hm
      obtain ⟨hl0, hl1⟩ := List.pairwise_cons.mp hl
      have hab : a = b := by
        rcases lt_trichotomy a b with hlt | heq | hgt
        · have := h a
          rw [Memory.read_of_lt (m := (b, v) :: l)] at this
          · simp [Memory.read] at this
          · intro e he
            rcases List.mem_cons.mp he with rfl | he
            · exact hlt
            · exact lt_trans hlt (hl0 e he)
        · exact heq
        · have := h b
          rw [Memory.read_of_lt (m := (a, u) :: m)] at this
          · simp [Memory.read] at this
          · intro e he
            rcases List.mem_cons.mp he with rfl | he
            · exact hgt
            · exact lt_trans hgt (hm0 e he)
      subst hab
      have huv : u = v := by simpa [Memory.read] using h a
      subst huv
      rw [ih hm1 hl1]
      intro k
      by_cases hk : k = a
      · rw [hk, Memory.read_of_lt hm0, Memory.read_of_lt hl0]
      · simpa [Memory.read, hk] using h k

end Sys2Proof.Machine
end

