-- ==== Sys2Proof/Laws/State.lean ====
section
/-! SUPPORT. One lemma per field per update of the state, true by rfl, so that no proof unfolds a record update. -/

namespace Sys2Proof.Machine

open Sys2Proof

variable (st : State)

@[simp] theorem State.setS_cfg (v : U64) : (State.setS v st).cfg = st.cfg := rfl
@[simp] theorem State.setS_S (v : U64) : (State.setS v st).S = v := rfl
@[simp] theorem State.setS_result (v : U64) : (State.setS v st).result = st.result := rfl
@[simp] theorem State.setS_err (v : U64) : (State.setS v st).err = st.err := rfl
@[simp] theorem State.setS_sb (v : U64) : (State.setS v st).sb = st.sb := rfl
@[simp] theorem State.setS_ob (v : U64) : (State.setS v st).ob = st.ob := rfl
@[simp] theorem State.setS_job (v : U64) : (State.setS v st).job = st.job := rfl
@[simp] theorem State.setS_sink (v : U64) : (State.setS v st).sink = st.sink := rfl
@[simp] theorem State.setS_host (v : U64) : (State.setS v st).host = st.host := rfl
@[simp] theorem State.setS_inputs (v : U64) : (State.setS v st).inputs = st.inputs := rfl
@[simp] theorem State.setS_script (v : U64) : (State.setS v st).script = st.script := rfl
@[simp] theorem State.setS_tick (v : U64) : (State.setS v st).tick = st.tick := rfl

@[simp] theorem State.setResult_cfg (v : U64) : (State.setResult v st).cfg = st.cfg := rfl
@[simp] theorem State.setResult_S (v : U64) : (State.setResult v st).S = st.S := rfl
@[simp] theorem State.setResult_result (v : U64) : (State.setResult v st).result = v := rfl
@[simp] theorem State.setResult_err (v : U64) : (State.setResult v st).err = st.err := rfl
@[simp] theorem State.setResult_sb (v : U64) : (State.setResult v st).sb = st.sb := rfl
@[simp] theorem State.setResult_ob (v : U64) : (State.setResult v st).ob = st.ob := rfl
@[simp] theorem State.setResult_job (v : U64) : (State.setResult v st).job = st.job := rfl
@[simp] theorem State.setResult_sink (v : U64) : (State.setResult v st).sink = st.sink := rfl
@[simp] theorem State.setResult_host (v : U64) : (State.setResult v st).host = st.host := rfl
@[simp] theorem State.setResult_inputs (v : U64) : (State.setResult v st).inputs = st.inputs := rfl
@[simp] theorem State.setResult_script (v : U64) : (State.setResult v st).script = st.script := rfl
@[simp] theorem State.setResult_tick (v : U64) : (State.setResult v st).tick = st.tick := rfl

@[simp] theorem State.setErr_cfg (code : ErrCode) : (State.setErr code st).cfg = st.cfg := rfl
@[simp] theorem State.setErr_S (code : ErrCode) : (State.setErr code st).S = st.S := rfl
@[simp] theorem State.setErr_result (code : ErrCode) : (State.setErr code st).result = st.result := rfl
@[simp] theorem State.setErr_err (code : ErrCode) : (State.setErr code st).err = code := rfl
@[simp] theorem State.setErr_sb (code : ErrCode) : (State.setErr code st).sb = st.sb := rfl
@[simp] theorem State.setErr_ob (code : ErrCode) : (State.setErr code st).ob = st.ob := rfl
@[simp] theorem State.setErr_job (code : ErrCode) : (State.setErr code st).job = st.job := rfl
@[simp] theorem State.setErr_sink (code : ErrCode) : (State.setErr code st).sink = st.sink := rfl
@[simp] theorem State.setErr_host (code : ErrCode) : (State.setErr code st).host = st.host := rfl
@[simp] theorem State.setErr_inputs (code : ErrCode) : (State.setErr code st).inputs = st.inputs := rfl
@[simp] theorem State.setErr_script (code : ErrCode) : (State.setErr code st).script = st.script := rfl
@[simp] theorem State.setErr_tick (code : ErrCode) : (State.setErr code st).tick = st.tick := rfl

@[simp] theorem State.writeSB_cfg (a : Nat) (v : U64) : (State.writeSB a v st).cfg = st.cfg := rfl
@[simp] theorem State.writeSB_S (a : Nat) (v : U64) : (State.writeSB a v st).S = st.S := rfl
@[simp] theorem State.writeSB_result (a : Nat) (v : U64) : (State.writeSB a v st).result = st.result := rfl
@[simp] theorem State.writeSB_err (a : Nat) (v : U64) : (State.writeSB a v st).err = st.err := rfl
@[simp] theorem State.writeSB_sb (a : Nat) (v : U64) : (State.writeSB a v st).sb = Memory.write st.sb a v := rfl
@[simp] theorem State.writeSB_ob (a : Nat) (v : U64) : (State.writeSB a v st).ob = st.ob := rfl
@[simp] theorem State.writeSB_job (a : Nat) (v : U64) : (State.writeSB a v st).job = st.job := rfl
@[simp] theorem State.writeSB_sink (a : Nat) (v : U64) : (State.writeSB a v st).sink = st.sink := rfl
@[simp] theorem State.writeSB_host (a : Nat) (v : U64) : (State.writeSB a v st).host = st.host := rfl
@[simp] theorem State.writeSB_inputs (a : Nat) (v : U64) : (State.writeSB a v st).inputs = st.inputs := rfl
@[simp] theorem State.writeSB_script (a : Nat) (v : U64) : (State.writeSB a v st).script = st.script := rfl
@[simp] theorem State.writeSB_tick (a : Nat) (v : U64) : (State.writeSB a v st).tick = st.tick := rfl

@[simp] theorem State.writeOB_cfg (a : Nat) (v : S8) : (State.writeOB a v st).cfg = st.cfg := rfl
@[simp] theorem State.writeOB_S (a : Nat) (v : S8) : (State.writeOB a v st).S = st.S := rfl
@[simp] theorem State.writeOB_result (a : Nat) (v : S8) : (State.writeOB a v st).result = st.result := rfl
@[simp] theorem State.writeOB_err (a : Nat) (v : S8) : (State.writeOB a v st).err = st.err := rfl
@[simp] theorem State.writeOB_sb (a : Nat) (v : S8) : (State.writeOB a v st).sb = st.sb := rfl
@[simp] theorem State.writeOB_ob (a : Nat) (v : S8) : (State.writeOB a v st).ob = Memory.write st.ob a v := rfl
@[simp] theorem State.writeOB_job (a : Nat) (v : S8) : (State.writeOB a v st).job = st.job := rfl
@[simp] theorem State.writeOB_sink (a : Nat) (v : S8) : (State.writeOB a v st).sink = st.sink := rfl
@[simp] theorem State.writeOB_host (a : Nat) (v : S8) : (State.writeOB a v st).host = st.host := rfl
@[simp] theorem State.writeOB_inputs (a : Nat) (v : S8) : (State.writeOB a v st).inputs = st.inputs := rfl
@[simp] theorem State.writeOB_script (a : Nat) (v : S8) : (State.writeOB a v st).script = st.script := rfl
@[simp] theorem State.writeOB_tick (a : Nat) (v : S8) : (State.writeOB a v st).tick = st.tick := rfl

@[simp] theorem State.setJob_cfg (job : Option Job) : (State.setJob job st).cfg = st.cfg := rfl
@[simp] theorem State.setJob_S (job : Option Job) : (State.setJob job st).S = st.S := rfl
@[simp] theorem State.setJob_result (job : Option Job) : (State.setJob job st).result = st.result := rfl
@[simp] theorem State.setJob_err (job : Option Job) : (State.setJob job st).err = st.err := rfl
@[simp] theorem State.setJob_sb (job : Option Job) : (State.setJob job st).sb = st.sb := rfl
@[simp] theorem State.setJob_ob (job : Option Job) : (State.setJob job st).ob = st.ob := rfl
@[simp] theorem State.setJob_job (job : Option Job) : (State.setJob job st).job = job := rfl
@[simp] theorem State.setJob_sink (job : Option Job) : (State.setJob job st).sink = st.sink := rfl
@[simp] theorem State.setJob_host (job : Option Job) : (State.setJob job st).host = st.host := rfl
@[simp] theorem State.setJob_inputs (job : Option Job) : (State.setJob job st).inputs = st.inputs := rfl
@[simp] theorem State.setJob_script (job : Option Job) : (State.setJob job st).script = st.script := rfl
@[simp] theorem State.setJob_tick (job : Option Job) : (State.setJob job st).tick = st.tick := rfl

@[simp] theorem State.pushSink_cfg (b : BitVec 8) : (State.pushSink b st).cfg = st.cfg := rfl
@[simp] theorem State.pushSink_S (b : BitVec 8) : (State.pushSink b st).S = st.S := rfl
@[simp] theorem State.pushSink_result (b : BitVec 8) : (State.pushSink b st).result = st.result := rfl
@[simp] theorem State.pushSink_err (b : BitVec 8) : (State.pushSink b st).err = st.err := rfl
@[simp] theorem State.pushSink_sb (b : BitVec 8) : (State.pushSink b st).sb = st.sb := rfl
@[simp] theorem State.pushSink_ob (b : BitVec 8) : (State.pushSink b st).ob = st.ob := rfl
@[simp] theorem State.pushSink_job (b : BitVec 8) : (State.pushSink b st).job = st.job := rfl
@[simp] theorem State.pushSink_sink (b : BitVec 8) : (State.pushSink b st).sink = st.sink ++ [b] := rfl
@[simp] theorem State.pushSink_host (b : BitVec 8) : (State.pushSink b st).host = st.host := rfl
@[simp] theorem State.pushSink_inputs (b : BitVec 8) : (State.pushSink b st).inputs = st.inputs := rfl
@[simp] theorem State.pushSink_script (b : BitVec 8) : (State.pushSink b st).script = st.script := rfl
@[simp] theorem State.pushSink_tick (b : BitVec 8) : (State.pushSink b st).tick = st.tick := rfl

@[simp] theorem State.setHost_cfg (host : List Command) : (State.setHost host st).cfg = st.cfg := rfl
@[simp] theorem State.setHost_S (host : List Command) : (State.setHost host st).S = st.S := rfl
@[simp] theorem State.setHost_result (host : List Command) : (State.setHost host st).result = st.result := rfl
@[simp] theorem State.setHost_err (host : List Command) : (State.setHost host st).err = st.err := rfl
@[simp] theorem State.setHost_sb (host : List Command) : (State.setHost host st).sb = st.sb := rfl
@[simp] theorem State.setHost_ob (host : List Command) : (State.setHost host st).ob = st.ob := rfl
@[simp] theorem State.setHost_job (host : List Command) : (State.setHost host st).job = st.job := rfl
@[simp] theorem State.setHost_sink (host : List Command) : (State.setHost host st).sink = st.sink := rfl
@[simp] theorem State.setHost_host (host : List Command) : (State.setHost host st).host = host := rfl
@[simp] theorem State.setHost_inputs (host : List Command) : (State.setHost host st).inputs = st.inputs := rfl
@[simp] theorem State.setHost_script (host : List Command) : (State.setHost host st).script = st.script := rfl
@[simp] theorem State.setHost_tick (host : List Command) : (State.setHost host st).tick = st.tick := rfl

@[simp] theorem State.clock_cfg : (State.clock st).cfg = st.cfg := rfl
@[simp] theorem State.clock_S : (State.clock st).S = st.S := rfl
@[simp] theorem State.clock_result : (State.clock st).result = st.result := rfl
@[simp] theorem State.clock_err : (State.clock st).err = st.err := rfl
@[simp] theorem State.clock_sb : (State.clock st).sb = st.sb := rfl
@[simp] theorem State.clock_ob : (State.clock st).ob = st.ob := rfl
@[simp] theorem State.clock_job : (State.clock st).job = st.job := rfl
@[simp] theorem State.clock_sink : (State.clock st).sink = st.sink := rfl
@[simp] theorem State.clock_host : (State.clock st).host = st.host := rfl
@[simp] theorem State.clock_inputs : (State.clock st).inputs = st.script.headD st.inputs := rfl
@[simp] theorem State.clock_script : (State.clock st).script = st.script.tail := rfl
@[simp] theorem State.clock_tick : (State.clock st).tick = st.tick + 1 := rfl

@[simp] theorem State.accept_cfg : (State.accept st).cfg = st.cfg := rfl
@[simp] theorem State.accept_S : (State.accept st).S = st.S := rfl
@[simp] theorem State.accept_result : (State.accept st).result = st.result := rfl
@[simp] theorem State.accept_err : (State.accept st).err = .ok := rfl
@[simp] theorem State.accept_sb : (State.accept st).sb = st.sb := rfl
@[simp] theorem State.accept_ob : (State.accept st).ob = st.ob := rfl
@[simp] theorem State.accept_job : (State.accept st).job = st.job := rfl
@[simp] theorem State.accept_sink : (State.accept st).sink = st.sink := rfl
@[simp] theorem State.accept_host : (State.accept st).host = st.host := rfl
@[simp] theorem State.accept_inputs : (State.accept st).inputs = st.inputs := rfl
@[simp] theorem State.accept_script : (State.accept st).script = st.script := rfl
@[simp] theorem State.accept_tick : (State.accept st).tick = st.tick := rfl

@[simp] theorem State.raise_cfg (code : ErrCode) : (State.raise code st).cfg = st.cfg := rfl
@[simp] theorem State.raise_S (code : ErrCode) : (State.raise code st).S = st.S := rfl
@[simp] theorem State.raise_result (code : ErrCode) : (State.raise code st).result = st.result := rfl
@[simp] theorem State.raise_err (code : ErrCode) : (State.raise code st).err = code := rfl
@[simp] theorem State.raise_sb (code : ErrCode) : (State.raise code st).sb = st.sb := rfl
@[simp] theorem State.raise_ob (code : ErrCode) : (State.raise code st).ob = st.ob := rfl
@[simp] theorem State.raise_job (code : ErrCode) : (State.raise code st).job = st.job := rfl
@[simp] theorem State.raise_sink (code : ErrCode) : (State.raise code st).sink = st.sink := rfl
@[simp] theorem State.raise_host (code : ErrCode) : (State.raise code st).host = st.host := rfl
@[simp] theorem State.raise_inputs (code : ErrCode) : (State.raise code st).inputs = st.inputs := rfl
@[simp] theorem State.raise_script (code : ErrCode) : (State.raise code st).script = st.script := rfl
@[simp] theorem State.raise_tick (code : ErrCode) : (State.raise code st).tick = st.tick := rfl

@[simp] theorem State.popHost_cfg : (State.popHost st).cfg = st.cfg := rfl
@[simp] theorem State.popHost_S : (State.popHost st).S = st.S := rfl
@[simp] theorem State.popHost_result : (State.popHost st).result = st.result := rfl
@[simp] theorem State.popHost_err : (State.popHost st).err = st.err := rfl
@[simp] theorem State.popHost_sb : (State.popHost st).sb = st.sb := rfl
@[simp] theorem State.popHost_ob : (State.popHost st).ob = st.ob := rfl
@[simp] theorem State.popHost_job : (State.popHost st).job = st.job := rfl
@[simp] theorem State.popHost_sink : (State.popHost st).sink = st.sink := rfl
@[simp] theorem State.popHost_host : (State.popHost st).host = st.host.tail := rfl
@[simp] theorem State.popHost_inputs : (State.popHost st).inputs = st.inputs := rfl
@[simp] theorem State.popHost_script : (State.popHost st).script = st.script := rfl
@[simp] theorem State.popHost_tick : (State.popHost st).tick = st.tick := rfl

@[simp] theorem State.resetCore_cfg : (State.resetCore st).cfg = st.cfg := rfl
@[simp] theorem State.resetCore_S : (State.resetCore st).S = 1 := rfl
@[simp] theorem State.resetCore_result : (State.resetCore st).result = 0 := rfl
@[simp] theorem State.resetCore_err : (State.resetCore st).err = .ok := rfl
@[simp] theorem State.resetCore_sb : (State.resetCore st).sb = [] := rfl
@[simp] theorem State.resetCore_ob : (State.resetCore st).ob = [] := rfl
@[simp] theorem State.resetCore_job : (State.resetCore st).job = none := rfl
@[simp] theorem State.resetCore_sink : (State.resetCore st).sink = st.sink := rfl
@[simp] theorem State.resetCore_host : (State.resetCore st).host = st.host := rfl
@[simp] theorem State.resetCore_inputs : (State.resetCore st).inputs = st.inputs := rfl
@[simp] theorem State.resetCore_script : (State.resetCore st).script = st.script := rfl
@[simp] theorem State.resetCore_tick : (State.resetCore st).tick = st.tick := rfl

@[simp] theorem State.finish_cfg : (State.finish st).cfg = st.cfg := rfl
@[simp] theorem State.finish_S : (State.finish st).S = st.S := rfl
@[simp] theorem State.finish_result : (State.finish st).result = st.result := rfl
@[simp] theorem State.finish_err : (State.finish st).err = st.err := rfl
@[simp] theorem State.finish_sb : (State.finish st).sb = st.sb := rfl
@[simp] theorem State.finish_ob : (State.finish st).ob = st.ob := rfl
@[simp] theorem State.finish_job : (State.finish st).job = none := rfl
@[simp] theorem State.finish_sink : (State.finish st).sink = st.sink := rfl
@[simp] theorem State.finish_host : (State.finish st).host = st.host := rfl
@[simp] theorem State.finish_inputs : (State.finish st).inputs = st.inputs := rfl
@[simp] theorem State.finish_script : (State.finish st).script = st.script := rfl
@[simp] theorem State.finish_tick : (State.finish st).tick = st.tick := rfl

@[simp] theorem State.present_cfg (c : Command) : (State.present c st).cfg = st.cfg := rfl
@[simp] theorem State.present_S (c : Command) : (State.present c st).S = st.S := rfl
@[simp] theorem State.present_result (c : Command) : (State.present c st).result = st.result := rfl
@[simp] theorem State.present_err (c : Command) : (State.present c st).err = st.err := rfl
@[simp] theorem State.present_sb (c : Command) : (State.present c st).sb = st.sb := rfl
@[simp] theorem State.present_ob (c : Command) : (State.present c st).ob = st.ob := rfl
@[simp] theorem State.present_job (c : Command) : (State.present c st).job = none := rfl
@[simp] theorem State.present_sink (c : Command) : (State.present c st).sink = st.sink := rfl
@[simp] theorem State.present_host (c : Command) : (State.present c st).host = c :: st.host := rfl
@[simp] theorem State.present_inputs (c : Command) : (State.present c st).inputs = { st.inputs with rst := false, cmdValid := true } := rfl
@[simp] theorem State.present_script (c : Command) : (State.present c st).script = st.script := rfl
@[simp] theorem State.present_tick (c : Command) : (State.present c st).tick = st.tick := rfl

/-! The reset state (R39), field by field. -/

@[simp] theorem State.resetIn_cfg (cfg : Config) : (State.resetIn cfg).cfg = cfg := rfl
@[simp] theorem State.resetIn_S (cfg : Config) : (State.resetIn cfg).S = 1 := rfl
@[simp] theorem State.resetIn_result (cfg : Config) : (State.resetIn cfg).result = 0 := rfl
@[simp] theorem State.resetIn_err (cfg : Config) : (State.resetIn cfg).err = .ok := rfl
@[simp] theorem State.resetIn_sb (cfg : Config) : (State.resetIn cfg).sb = [] := rfl
@[simp] theorem State.resetIn_ob (cfg : Config) : (State.resetIn cfg).ob = [] := rfl
@[simp] theorem State.resetIn_job (cfg : Config) : (State.resetIn cfg).job = none := rfl
@[simp] theorem State.resetIn_sink (cfg : Config) : (State.resetIn cfg).sink = [] := rfl
@[simp] theorem State.resetIn_host (cfg : Config) : (State.resetIn cfg).host = [] := rfl
@[simp] theorem State.resetIn_inputs (cfg : Config) : (State.resetIn cfg).inputs = Inputs.quiet := rfl
@[simp] theorem State.resetIn_script (cfg : Config) : (State.resetIn cfg).script = [] := rfl
@[simp] theorem State.resetIn_tick (cfg : Config) : (State.resetIn cfg).tick = 0 := rfl

/-- Two states are equal when their fields are. -/
theorem State.eq_of_fields {s t : State} (h1 : s.cfg = t.cfg) (h2 : s.S = t.S) (h3 : s.result = t.result)
    (h4 : s.err = t.err) (h5 : s.sb = t.sb) (h6 : s.ob = t.ob) (h7 : s.job = t.job) (h8 : s.sink = t.sink)
    (h9 : s.host = t.host) (h10 : s.inputs = t.inputs) (h11 : s.script = t.script) (h12 : s.tick = t.tick) :
    s = t := by
  cases s
  cases t
  simp_all

end Sys2Proof.Machine
end

