-- ==== Sys2Proof/Laws/Ops.lean ====
section
/-! SUPPORT. One lemma per shared operation that says once everything it can do. The provers cite these instead of unfolding. -/

namespace Sys2Proof.Machine

open Sys2Proof

variable (st : State) (cmd : LongCommand)

/-! ### The checks at acceptance (R128) -/

theorem withCount_accepts {n : U32} {st : State} (h : n.toNat ≤ st.cfg.bufDepth) (f : State → Answer) :
    withCount n st f = f st := by
  have hb : countTooBig n st = false := decide_eq_false (Nat.not_lt.mpr h)
  simp [withCount, hb]

theorem withCount_rejects {n : U32} {st : State} (h : st.cfg.bufDepth < n.toNat) (f : State → Answer) :
    withCount n st f = .next (State.raise .range st) := by
  simp [withCount, countTooBig, countOf, h]

theorem withCountAndChunks_accepts {n p : U32} {st : State} (hp : p ≠ 0) (h : n.toNat ≤ st.cfg.bufDepth)
    (f : State → Answer) : withCountAndChunks n p st f = f st := by
  simp only [withCountAndChunks, noChunks, beq_eq_false_iff_ne.mpr hp, Bool.false_eq_true, if_false]
  exact withCount_accepts h f

theorem withCountAndChunks_noChunks (n : U32) (st : State) (f : State → Answer) :
    withCountAndChunks n 0 st f = .next (State.raise .badOperand st) := by
  simp [withCountAndChunks, noChunks]

theorem withCountAndChunks_rejects {n p : U32} {st : State} (hp : p ≠ 0) (h : st.cfg.bufDepth < n.toNat)
    (f : State → Answer) : withCountAndChunks n p st f = .next (State.raise .range st) := by
  simp only [withCountAndChunks, noChunks, beq_eq_false_iff_ne.mpr hp, Bool.false_eq_true, if_false]
  exact withCount_rejects h f

theorem withEntry_accepts {a : EntryAddr} {st : State} (h : a.toNat < st.cfg.bufDepth) (f : Nat → State → Answer) :
    withEntry a st f = f a.toNat st := by
  have hb : addrOutside a st = false := decide_eq_false (Nat.not_le.mpr h)
  simp [withEntry, entryOf, hb]

theorem withEntry_rejects {a : EntryAddr} {st : State} (h : st.cfg.bufDepth ≤ a.toNat) (f : Nat → State → Answer) :
    withEntry a st f = .next (State.raise .range st) := by
  simp [withEntry, addrOutside, entryOf, h]

/-- All that a command of format C can do: be rejected with E_RANGE, or have its effect (R128). -/
theorem withCount_cases (n : U32) (st : State) (f : State → Answer) :
    (st.cfg.bufDepth < n.toNat ∧ withCount n st f = .next (State.raise .range st)) ∨
    (n.toNat ≤ st.cfg.bufDepth ∧ withCount n st f = f st) := by
  rcases Nat.lt_or_ge st.cfg.bufDepth n.toNat with h | h
  · exact .inl ⟨h, withCount_rejects h f⟩
  · exact .inr ⟨h, withCount_accepts h f⟩

/-- All that a command of format CP can do (R128). -/
theorem withCountAndChunks_cases (n p : U32) (st : State) (f : State → Answer) :
    (p = 0 ∧ withCountAndChunks n p st f = .next (State.raise .badOperand st)) ∨
    (p ≠ 0 ∧ st.cfg.bufDepth < n.toNat ∧ withCountAndChunks n p st f = .next (State.raise .range st)) ∨
    (p ≠ 0 ∧ n.toNat ≤ st.cfg.bufDepth ∧ withCountAndChunks n p st f = f st) := by
  by_cases hp : p = 0
  · subst hp; exact .inl ⟨rfl, withCountAndChunks_noChunks n st f⟩
  · rcases Nat.lt_or_ge st.cfg.bufDepth n.toNat with h | h
    · exact .inr (.inl ⟨hp, h, withCountAndChunks_rejects hp h f⟩)
    · exact .inr (.inr ⟨hp, h, withCountAndChunks_accepts hp h f⟩)

/-- All that a command of format A or AV can do (R128). -/
theorem withEntry_cases (a : EntryAddr) (st : State) (f : Nat → State → Answer) :
    (st.cfg.bufDepth ≤ a.toNat ∧ withEntry a st f = .next (State.raise .range st)) ∨
    (a.toNat < st.cfg.bufDepth ∧ withEntry a st f = f a.toNat st) := by
  rcases Nat.lt_or_ge a.toNat st.cfg.bufDepth with h | h
  · exact .inr ⟨h, withEntry_accepts h f⟩
  · exact .inl ⟨h, withEntry_rejects h f⟩

/-! ### The phases: each changes the sequencer alone, to one named job -/

/-- The job phase 3 begins with. -/
def emitJob : Option Job := if cmd.count = 0 then none else some ⟨cmd, .emit 0⟩

/-- The job after the join. -/
def afterFilterJob : Option Job :=
  match cmd with
  | .fill _ => none
  | .filter _ _ => none
  | .iter _ _ => emitJob cmd

/-- The job phase 2 begins with. -/
def filterJob : Option Job := if cmd.count = 0 then none else some ⟨cmd, .filter (List.range cmd.count) []⟩

/-- The job after the last advance. -/
def afterFillJob : Option Job :=
  match cmd with
  | .fill _ => none
  | .filter _ _ => none
  | .iter _ _ => filterJob cmd

/-- The job phase 1 begins with. -/
def fillJob : Option Job := if cmd.count = 0 then none else some ⟨cmd, .fill 0⟩

theorem State.finish_eq : State.finish st = State.setJob none st := rfl

theorem State.enterEmit_eq : State.enterEmit cmd st = State.setJob (emitJob cmd) st := by
  unfold State.enterEmit emitJob
  split <;> rfl

theorem State.afterFilter_eq : State.afterFilter cmd st = State.setJob (afterFilterJob cmd) st := by
  cases cmd
  · rfl
  · rfl
  · exact State.enterEmit_eq st _

theorem afterFilterJob_of_count_zero (h : cmd.count = 0) : afterFilterJob cmd = none := by
  cases cmd <;> simp [afterFilterJob, emitJob, h]

theorem State.enterFilter_eq : State.enterFilter cmd st = State.setJob (filterJob cmd) st := by
  unfold State.enterFilter filterJob
  split
  · next h => rw [State.afterFilter_eq, afterFilterJob_of_count_zero cmd h]
  · rfl

theorem State.afterFill_eq : State.afterFill cmd st = State.setJob (afterFillJob cmd) st := by
  cases cmd
  · rfl
  · rfl
  · exact State.enterFilter_eq st _

theorem afterFillJob_of_count_zero (h : cmd.count = 0) : afterFillJob cmd = none := by
  cases cmd <;> simp [afterFillJob, filterJob, h]

theorem State.enterFill_eq : State.enterFill cmd st = State.setJob (fillJob cmd) st := by
  unfold State.enterFill fillJob
  split
  · next h => rw [State.afterFill_eq, afterFillJob_of_count_zero cmd h]
  · rfl

/-! ### One step of a busy command -/

/-- The job after the advance that follows `k` advances. -/
def nextFillJob (k : Nat) : Option Job :=
  if k + 1 < cmd.count then some ⟨cmd, .fill (k + 1)⟩ else afterFillJob cmd

/-- One advance: S and one entry of SB, then the sequencer (R85). -/
theorem fillAdvance_eq (k : Nat) :
    fillAdvance cmd k st =
      State.setJob (nextFillJob cmd k) (State.writeSB k (next st.S) (State.setS (next st.S) st)) := by
  unfold fillAdvance nextFillJob
  simp only
  split
  · rfl
  · rw [State.afterFill_eq]

/-- The job after a worker has processed index k. -/
def nextFilterJob (todo active : List Nat) (k : Nat) : Option Job :=
  if (todo.erase k).isEmpty then afterFilterJob cmd
  else some ⟨cmd, .filter (todo.erase k)
    (activeAfter cmd.count cmd.chunks (chunkOf cmd.count cmd.chunks k) (todo.erase k) active)⟩

/-- One step of the workers at the index picked: the fault of R45, or one entry of OB and then the sequencer (R106). -/
theorem filterAdvance_eq (todo active : List Nat) (choice : Nat) :
    filterAdvance cmd todo active choice st =
      match Memory.read st.sb (pickIndex st.cfg.lanes cmd.count cmd.chunks todo active choice) with
      | none => .fault (.unwrittenState (pickIndex st.cfg.lanes cmd.count cmd.chunks todo active choice))
      | some x => .next (State.setJob
          (nextFilterJob cmd todo active (pickIndex st.cfg.lanes cmd.count cmd.chunks todo active choice))
          (State.writeOB (pickIndex st.cfg.lanes cmd.count cmd.chunks todo active choice)
            (filterOne st.cfg x) st)) := by
  simp only [filterAdvance, nextFilterJob]
  generalize pickIndex st.cfg.lanes cmd.count cmd.chunks todo active choice = k
  cases Memory.read st.sb k with
  | none => rfl
  | some x =>
    simp only [State.afterFilter_eq]
    split <;> rfl

/-- The job after the byte at index k has been taken. -/
def nextEmitJob (k : Nat) : Option Job := if k + 1 < cmd.count then some ⟨cmd, .emit (k + 1)⟩ else none

/-- One step of the emission: the fault of R45; or, when the sink takes the byte, its history and the sequencer; or nothing (R114, R117). -/
theorem emitAdvance_eq (k : Nat) (ready : Bool) :
    emitAdvance cmd k ready st =
      match Memory.read st.ob k with
      | none => .fault (.unwrittenSample k)
      | some b =>
        if ready then .next (State.setJob (nextEmitJob cmd k) (State.pushSink b st)) else .next st := by
  simp only [emitAdvance, nextEmitJob]
  cases Memory.read st.ob k with
  | none => rfl
  | some b =>
    cases ready with
    | false => rfl
    | true =>
      simp only [if_true]
      split <;> rfl

/-! ### The partition and the worker's choice (R105, R106, R109) -/

/-- Membership of a chunk, as inequalities (R105). -/
theorem inChunk_iff (n p c k : Nat) :
    inChunk n p c k = true ↔ c * (n / p) ≤ k ∧ k < c * (n / p) + if c < p - 1 then n / p else n - (p - 1) * (n / p) := by
  simp [inChunk, chunkStart, chunkLen, chunkQuota]

/-- The allowed indices, as a condition (R109). -/
theorem mem_laneChoices (lanes n p k : Nat) (todo active : List Nat) :
    k ∈ laneChoices lanes n p todo active ↔ k ∈ todo ∧ (chunkOf n p k ∈ active ∨ active.length < lanes) := by
  simp [laneChoices]

/-- The chunks in progress after an index of chunk c is done (R109). -/
theorem mem_activeAfter {n p c d : Nat} {rest active : List Nat} (hn : active.Nodup) :
    d ∈ activeAfter n p c rest active ↔
      (d = c ∧ ∃ j ∈ rest, chunkOf n p j = c) ∨ (d ≠ c ∧ d ∈ active) := by
  unfold activeAfter
  by_cases h : (rest.any fun j => chunkOf n p j == c) = true
  · rw [if_pos h]
    have h' : ∃ j ∈ rest, chunkOf n p j = c := by simpa using h
    by_cases hc : active.contains c = true
    · rw [if_pos hc]
      have hc' : c ∈ active := by simpa using hc
      constructor
      · intro hd
        by_cases e : d = c
        · exact .inl ⟨e, h'⟩
        · exact .inr ⟨e, hd⟩
      · rintro (⟨rfl, _⟩ | ⟨_, hd⟩)
        · exact hc'
        · exact hd
    · rw [if_neg hc]
      constructor
      · intro hd
        rcases List.mem_cons.mp hd with rfl | hd
        · exact .inl ⟨rfl, h'⟩
        · by_cases e : d = c
          · exact .inl ⟨e, h'⟩
          · exact .inr ⟨e, hd⟩
      · rintro (⟨rfl, _⟩ | ⟨_, hd⟩)
        · exact List.mem_cons_self ..
        · exact List.mem_cons_of_mem _ hd
  · rw [if_neg h]
    have h' : ¬∃ j ∈ rest, chunkOf n p j = c := by simpa using h
    rw [hn.mem_erase_iff]
    constructor
    · exact fun hd => .inr hd
    · rintro (⟨_, hj⟩ | hd)
      · exact absurd hj h'
      · exact hd

/-- Whatever the choice, the index picked is one that is left to do. -/
theorem pickIndex_mem (lanes n p : Nat) {todo : List Nat} (active : List Nat) (choice : Nat) (h : todo ≠ []) :
    pickIndex lanes n p todo active choice ∈ todo := by
  unfold pickIndex
  simp only
  split
  · have hl : choice % todo.length < todo.length := Nat.mod_lt _ (List.length_pos_iff.mpr h)
    rw [List.getElem?_eq_getElem hl]
    exact List.getElem_mem hl
  · next he =>
    have hne : laneChoices lanes n p todo active ≠ [] := by simpa using he
    have hl : choice % (laneChoices lanes n p todo active).length < (laneChoices lanes n p todo active).length :=
      Nat.mod_lt _ (List.length_pos_iff.mpr hne)
    rw [List.getElem?_eq_getElem hl]
    have hm := List.getElem_mem hl
    simp only [laneChoices, List.mem_filter] at hm
    simpa [laneChoices] using hm.1

/-- When some lane may go on, the index picked is one of those the lanes allow. -/
theorem pickIndex_allowed (lanes n p : Nat) {todo active : List Nat} (choice : Nat)
    (h : laneChoices lanes n p todo active ≠ []) :
    pickIndex lanes n p todo active choice ∈ laneChoices lanes n p todo active := by
  unfold pickIndex
  simp only
  split
  · next he => simp at he; exact absurd he h
  · have hl : choice % (laneChoices lanes n p todo active).length < (laneChoices lanes n p todo active).length :=
      Nat.mod_lt _ (List.length_pos_iff.mpr h)
    rw [List.getElem?_eq_getElem hl]
    exact List.getElem_mem hl

end Sys2Proof.Machine
end

