-- ==== Sys2Proof/Laws/PerInstr.lean ====
section
/-! SUPPORT. Families of one lemma per constructor of `Instr`. -/

/-- Every bit of an encoded command that its format does not use is zero (R65, R70): a well-formed instruction's command passes the checks of
fields, unless its opcode is illegal. -/
def Sys2Proof.Laws.EncodingFields.Statement (i : Sys2Proof.Instr) : Prop :=
  i.wellFormed = true →
    Sys2Proof.illegalWord (Sys2Proof.encode i).word = true ∨
    ∃ f, Sys2Proof.formatOf (Sys2Proof.opField (Sys2Proof.encode i).word) = some f ∧
      Sys2Proof.rsvField (Sys2Proof.encode i).word = 0 ∧
      (f.usesAddr = false → Sys2Proof.addrField (Sys2Proof.encode i).word = 0) ∧
      f.operandExcess (Sys2Proof.encode i).operand = false

namespace Sys2Proof.Laws

open Sys2Proof

theorem EncodingFields.nop : EncodingFields.Statement .nop :=
  fun _ => .inr ⟨.z, by decide, by decide, by decide, by decide⟩

theorem EncodingFields.seed (x : U64) : EncodingFields.Statement (.seed x) :=
  fun _ => .inr ⟨.v, (by decide : formatOf (opField (plainWord 0x1)) = some .v), (by decide : rsvField (plainWord 0x1) = 0),
    fun _ => (by decide : addrField (plainWord 0x1) = 0), rfl⟩

theorem EncodingFields.step : EncodingFields.Statement .step :=
  fun _ => .inr ⟨.z, by decide, by decide, by decide, by decide⟩

theorem EncodingFields.fill (n : U32) : EncodingFields.Statement (.fill n) :=
  fun _ => .inr ⟨.c, (by decide : formatOf (opField (plainWord 0x3)) = some .c), (by decide : rsvField (plainWord 0x3) = 0),
    fun _ => (by decide : addrField (plainWord 0x3) = 0), by simp [encode, Format.operandExcess]⟩

theorem EncodingFields.lutrd (sub : BitVec 3) (idx : BitVec 8) : EncodingFields.Statement (.lutrd sub idx) :=
  fun _ => .inr ⟨.t, (by decide : formatOf (opField (plainWord 0x4)) = some .t), (by decide : rsvField (plainWord 0x4) = 0),
    fun _ => (by decide : addrField (plainWord 0x4) = 0), by simp [encode, Format.operandExcess]⟩

theorem EncodingFields.acc (x : U64) : EncodingFields.Statement (.acc x) :=
  fun _ => .inr ⟨.v, (by decide : formatOf (opField (plainWord 0x5)) = some .v), (by decide : rsvField (plainWord 0x5) = 0),
    fun _ => (by decide : addrField (plainWord 0x5) = 0), rfl⟩

theorem EncodingFields.filt1 (x : U64) : EncodingFields.Statement (.filt1 x) :=
  fun _ => .inr ⟨.v, (by decide : formatOf (opField (plainWord 0x6)) = some .v), (by decide : rsvField (plainWord 0x6) = 0),
    fun _ => (by decide : addrField (plainWord 0x6) = 0), rfl⟩

theorem EncodingFields.filter (n p : U32) : EncodingFields.Statement (.filter n p) :=
  fun _ => .inr ⟨.cp, (by decide : formatOf (opField (plainWord 0x7)) = some .cp), (by decide : rsvField (plainWord 0x7) = 0),
    fun _ => (by decide : addrField (plainWord 0x7) = 0), rfl⟩

theorem EncodingFields.iter (n p : U32) : EncodingFields.Statement (.iter n p) :=
  fun _ => .inr ⟨.cp, (by decide : formatOf (opField (plainWord 0x8)) = some .cp), (by decide : rsvField (plainWord 0x8) = 0),
    fun _ => (by decide : addrField (plainWord 0x8) = 0), rfl⟩

theorem EncodingFields.sbwr (a : EntryAddr) (x : U64) : EncodingFields.Statement (.sbwr a x) :=
  fun _ => .inr ⟨.av, by simp [encode, formatOf], by simp [encode], by simp [Format.usesAddr], rfl⟩

theorem EncodingFields.sbrd (a : EntryAddr) : EncodingFields.Statement (.sbrd a) :=
  fun _ => .inr ⟨.a, by simp [encode, formatOf], by simp [encode], by simp [Format.usesAddr], rfl⟩

theorem EncodingFields.obrd (a : EntryAddr) : EncodingFields.Statement (.obrd a) :=
  fun _ => .inr ⟨.a, by simp [encode, formatOf], by simp [encode], by simp [Format.usesAddr], rfl⟩

theorem EncodingFields.illegal (word : U32) (operand : U64) : EncodingFields.Statement (.illegal word operand) :=
  fun h => .inl h

end Sys2Proof.Laws
end

