-- ==== Sys2Proof/Laws/Step.lean ====
section
/-! SUPPORT. What a step can do, said once: which event it is, and what each meaning answers. -/

namespace Sys2Proof.Machine

open Sys2Proof

/-! ### The five events of a step -/

theorem step_of_reset {s : State} (h : s.inputs.rst = true) :
    step s = .next (State.resetCore (State.clock s)) := by
  simp [step, eventOf, h]

theorem step_of_work {s : State} {job : Job} (h : s.inputs.rst = false) (hj : s.job = some job) :
    step s = workOn job s.inputs (State.clock s) := by
  simp [step, eventOf, h, hj]

theorem step_of_idle {s : State} (h : s.inputs.rst = false) (hj : s.job = none) (hh : State.cmdValid s = false) :
    step s = .next (State.clock s) := by
  cases hv : s.inputs.cmdValid with
  | false => simp [step, eventOf, h, hj, hv]
  | true =>
    have hn : s.host = [] := by simpa [State.cmdValid, hv] using hh
    simp [step, eventOf, h, hj, hn]

theorem eventOf_command {s : State} {c : Command} {cs : List Command} (h : s.inputs.rst = false)
    (hj : s.job = none) (hv : s.inputs.cmdValid = true) (hh : s.host = c :: cs) :
    eventOf s = match decode c with
      | .ok i => .accept i
      | .error code => .reject code := by
  cases hd : decode c <;> simp [eventOf, h, hj, hv, hh, hd]

theorem step_of_accept {s : State} {c : Command} {cs : List Command} {i : Instr} (h : s.inputs.rst = false)
    (hj : s.job = none) (hv : s.inputs.cmdValid = true) (hh : s.host = c :: cs) (hd : decode c = .ok i) :
    step s = exec i (State.popHost (State.clock s)) := by
  simp [step, eventOf, h, hj, hv, hh, hd]

theorem step_of_reject {s : State} {c : Command} {cs : List Command} {code : ErrCode} (h : s.inputs.rst = false)
    (hj : s.job = none) (hv : s.inputs.cmdValid = true) (hh : s.host = c :: cs) (hd : decode c = .error code) :
    step s = .next (State.raise code (State.popHost (State.clock s))) := by
  simp [step, eventOf, h, hj, hv, hh, hd]

/-- Every step is one of the five events, each with what it answers. -/
theorem step_cases (s : State) :
    (s.inputs.rst = true ∧ step s = .next (State.resetCore (State.clock s))) ∨
    (s.inputs.rst = false ∧
      ((∃ job, s.job = some job ∧ step s = workOn job s.inputs (State.clock s)) ∨
       (s.job = none ∧ State.cmdValid s = false ∧ step s = .next (State.clock s)) ∨
       (s.job = none ∧ ∃ c cs i, s.host = c :: cs ∧ decode c = .ok i ∧ eventOf s = .accept i ∧
          step s = exec i (State.popHost (State.clock s))) ∨
       (s.job = none ∧ ∃ c cs code, s.host = c :: cs ∧ decode c = .error code ∧ eventOf s = .reject code ∧
          step s = .next (State.raise code (State.popHost (State.clock s)))))) := by
  cases hr : s.inputs.rst with
  | true => exact .inl ⟨rfl, step_of_reset hr⟩
  | false =>
    refine .inr ⟨rfl, ?_⟩
    cases hj : s.job with
    | some job => exact .inl ⟨job, rfl, step_of_work hr hj⟩
    | none =>
      refine .inr ?_
      cases hv : State.cmdValid s with
      | false => exact .inl ⟨rfl, rfl, step_of_idle hr hj hv⟩
      | true =>
        obtain ⟨hv, hn⟩ : s.inputs.cmdValid = true ∧ s.host ≠ [] := by simpa [State.cmdValid] using hv
        obtain ⟨c, cs, hh⟩ := List.exists_cons_of_ne_nil hn
        refine .inr ?_
        cases hd : decode c with
        | ok i =>
          exact .inl ⟨rfl, c, cs, i, hh, hd, by simp [eventOf_command hr hj hv hh, hd], step_of_accept hr hj hv hh hd⟩
        | error code =>
          exact .inr ⟨rfl, c, cs, code, hh, hd, by simp [eventOf_command hr hj hv hh, hd], step_of_reject hr hj hv hh hd⟩

/-! ### What a busy command's step answers -/

theorem workOn_fill (cmd : LongCommand) (k : Nat) (inputs : Inputs) (st : State) :
    workOn ⟨cmd, .fill k⟩ inputs st = .next (State.setJob (nextFillJob cmd k)
      (State.writeSB k (next st.S) (State.setS (next st.S) st))) := by
  simp only [workOn, fillAdvance_eq]

theorem workOn_filter (cmd : LongCommand) (todo active : List Nat) (inputs : Inputs) (st : State) :
    workOn ⟨cmd, .filter todo active⟩ inputs st = filterAdvance cmd todo active inputs.worker st := rfl

theorem workOn_emit (cmd : LongCommand) (k : Nat) (inputs : Inputs) (st : State) :
    workOn ⟨cmd, .emit k⟩ inputs st = emitAdvance cmd k inputs.sampleReady st := rfl

/-! ### What a command's meaning answers, one lemma each -/

variable (st : State)

theorem exec_nop : exec .nop st = .next (State.accept st) := rfl

theorem exec_seed (x : U64) : exec (.seed x) st = .next (State.setS x (State.accept st)) := rfl

theorem exec_step : exec .step st = .next (State.setResult (next st.S) (State.setS (next st.S) (State.accept st))) := rfl

theorem exec_fill (n : U32) :
    exec (.fill n) st = withCount n st fun t => .next (State.setJob (fillJob (.fill n)) (State.accept t)) := by
  simp only [exec, execFill, State.enterFill_eq]

theorem exec_lutrd (sub : BitVec 3) (idx : BitVec 8) :
    exec (.lutrd sub idx) st =
      .next (State.setResult (sext64 (romRead st.cfg (romAddress sub idx))) (State.accept st)) := rfl

theorem exec_acc (x : U64) : exec (.acc x) st = .next (State.setResult (sext64 (accSum st.cfg x)) (State.accept st)) := rfl

theorem exec_filt1 (x : U64) :
    exec (.filt1 x) st = .next (State.setResult (sext64 (filterOne st.cfg x)) (State.accept st)) := rfl

theorem exec_filter (n p : U32) :
    exec (.filter n p) st =
      withCountAndChunks n p st fun t => .next (State.setJob (filterJob (.filter n p)) (State.accept t)) := by
  simp only [exec, execFilter, State.enterFilter_eq]

theorem exec_iter (n p : U32) :
    exec (.iter n p) st =
      withCountAndChunks n p st fun t => .next (State.setJob (fillJob (.iter n p)) (State.accept t)) := by
  simp only [exec, execIter, State.enterFill_eq]

theorem exec_sbwr (a : EntryAddr) (x : U64) :
    exec (.sbwr a x) st = withEntry a st fun k t => .next (State.writeSB k x (State.accept t)) := rfl

theorem exec_sbrd (a : EntryAddr) :
    exec (.sbrd a) st = withEntry a st fun k t =>
      match Memory.read t.sb k with
      | none => .fault (.unwrittenState k)
      | some x => .next (State.setResult x (State.accept t)) := rfl

theorem exec_obrd (a : EntryAddr) :
    exec (.obrd a) st = withEntry a st fun k t =>
      match Memory.read t.ob k with
      | none => .fault (.unwrittenSample k)
      | some b => .next (State.setResult (sext64 b) (State.accept t)) := rfl

theorem exec_illegal (w : U32) (o : U64) : exec (.illegal w o) st = .next (State.raise .illegalOp st) := rfl

end Sys2Proof.Machine
end

