-- ==== Sys2Proof/Laws/Run.lean ====
section
/-! SUPPORT. Runs, and what every step does to the pins. -/

namespace Sys2Proof.Machine

open Sys2Proof

/-! ### Runs -/

@[simp] theorem runFor_zero (s : State) : runFor 0 s = .next s := rfl

theorem runFor_succ {s t : State} (h : step s = .next t) (k : Nat) : runFor (k + 1) s = runFor k t := by
  simp only [runFor, h]

theorem runFor_succ_fault {s : State} {f : Fault} (h : step s = .fault f) (k : Nat) : runFor (k + 1) s = .fault f := by
  simp only [runFor, h]

/-- A run of j + k steps is a run of j steps and a run of k steps from where it ends. -/
theorem runFor_add {s t : State} {j : Nat} (h : runFor j s = .next t) (k : Nat) : runFor (j + k) s = runFor k t := by
  induction j generalizing s with
  | zero =>
    simp only [runFor_zero, Host.Outcome.next.injEq] at h
    simp [h]
  | succ j ih =>
    rw [Nat.succ_add]
    cases hs : step s with
    | next u => rw [runFor_succ hs] at h ⊢; exact ih h
    | fault f => rw [runFor_succ_fault hs] at h; cases h
    | refused r => simp [runFor, hs] at h

/-! ### The pins -/

/-- `t` has the pins `s` has: the same levels, the same script, the same step count. -/
def SamePins (s t : State) : Prop := t.inputs = s.inputs ∧ t.script = s.script ∧ t.tick = s.tick

/-- No meaning touches the pins, the configuration, the sink's history or the host's commands. -/
theorem exec_keeps_outside {i : Instr} {s t : State} (h : exec i s = .next t) :
    SamePins s t ∧ t.cfg = s.cfg ∧ t.sink = s.sink ∧ t.host = s.host := by
  cases i with
  | fill n =>
    rw [exec_fill] at h
    rcases withCount_cases n s _ with ⟨_, e⟩ | ⟨_, e⟩ <;> rw [e] at h <;> cases h <;> exact ⟨⟨rfl, rfl, rfl⟩, rfl, rfl, rfl⟩
  | filter n p =>
    rw [exec_filter] at h
    rcases withCountAndChunks_cases n p s _ with ⟨_, e⟩ | ⟨_, _, e⟩ | ⟨_, _, e⟩ <;> rw [e] at h <;> cases h <;>
      exact ⟨⟨rfl, rfl, rfl⟩, rfl, rfl, rfl⟩
  | iter n p =>
    rw [exec_iter] at h
    rcases withCountAndChunks_cases n p s _ with ⟨_, e⟩ | ⟨_, _, e⟩ | ⟨_, _, e⟩ <;> rw [e] at h <;> cases h <;>
      exact ⟨⟨rfl, rfl, rfl⟩, rfl, rfl, rfl⟩
  | sbwr a x =>
    rw [exec_sbwr] at h
    rcases withEntry_cases a s _ with ⟨_, e⟩ | ⟨_, e⟩ <;> rw [e] at h <;> cases h <;> exact ⟨⟨rfl, rfl, rfl⟩, rfl, rfl, rfl⟩
  | sbrd a =>
    rw [exec_sbrd] at h
    rcases withEntry_cases a s _ with ⟨_, e⟩ | ⟨_, e⟩ <;> rw [e] at h
    · cases h; exact ⟨⟨rfl, rfl, rfl⟩, rfl, rfl, rfl⟩
    · split at h <;> cases h
      exact ⟨⟨rfl, rfl, rfl⟩, rfl, rfl, rfl⟩
  | obrd a =>
    rw [exec_obrd] at h
    rcases withEntry_cases a s _ with ⟨_, e⟩ | ⟨_, e⟩ <;> rw [e] at h
    · cases h; exact ⟨⟨rfl, rfl, rfl⟩, rfl, rfl, rfl⟩
    · split at h <;> cases h
      exact ⟨⟨rfl, rfl, rfl⟩, rfl, rfl, rfl⟩
  | _ =>
    simp only [exec_nop, exec_seed, exec_step, exec_lutrd, exec_acc, exec_filt1, exec_illegal,
      Host.Outcome.next.injEq] at h
    subst h
    simp [SamePins]

/-- No step of a busy command touches the pins, the configuration or the host's commands. -/
theorem workOn_keeps_outside {job : Job} {inputs : Inputs} {s t : State} (h : workOn job inputs s = .next t) :
    SamePins s t ∧ t.cfg = s.cfg ∧ t.host = s.host := by
  obtain ⟨cmd, work⟩ := job
  cases work with
  | fill k => rw [workOn_fill] at h; cases h; exact ⟨⟨rfl, rfl, rfl⟩, rfl, rfl⟩
  | filter todo active =>
    rw [workOn_filter, filterAdvance_eq] at h
    split at h <;> cases h
    exact ⟨⟨rfl, rfl, rfl⟩, rfl, rfl⟩
  | emit k =>
    rw [workOn_emit, emitAdvance_eq] at h
    split at h
    · cases h
    · split at h <;> cases h <;> exact ⟨⟨rfl, rfl, rfl⟩, rfl, rfl⟩

/-- Every step moves the pins to the next levels of the script and counts itself. -/
theorem step_pins {s t : State} (h : step s = .next t) : SamePins (State.clock s) t := by
  rcases step_cases s with ⟨_, e⟩ | ⟨_, ⟨job, _, e⟩ | ⟨_, _, e⟩ | ⟨_, c, cs, i, _, _, _, e⟩ | ⟨_, c, cs, code, _, _, _, e⟩⟩ <;>
    rw [e] at h
  · cases h; exact ⟨rfl, rfl, rfl⟩
  · exact (workOn_keeps_outside h).1
  · cases h; exact ⟨rfl, rfl, rfl⟩
  · exact (exec_keeps_outside h).1
  · cases h; exact ⟨rfl, rfl, rfl⟩

theorem NoReset.clock {s : State} (h : NoReset s) : NoReset (State.clock s) := by
  obtain ⟨h0, h1⟩ := h
  constructor
  · cases hs : s.script with
    | nil => simp [hs, h0]
    | cons i is => simpa [hs] using h1 i (by simp [hs])
  · intro i hi
    exact h1 i (List.mem_of_mem_tail hi)

theorem SinkReady.clock {s : State} (h : SinkReady s) : SinkReady (State.clock s) := by
  obtain ⟨h0, h1⟩ := h
  constructor
  · cases hs : s.script with
    | nil => simp [hs, h0]
    | cons i is => simpa [hs] using h1 i (by simp [hs])
  · intro i hi
    exact h1 i (List.mem_of_mem_tail hi)

theorem HostReady.clock {s : State} (h : HostReady s) : HostReady (State.clock s) := by
  obtain ⟨h0, h1⟩ := h
  constructor
  · cases hs : s.script with
    | nil => simp [hs, h0]
    | cons i is => simpa [hs] using h1 i (by simp [hs])
  · intro i hi
    exact h1 i (List.mem_of_mem_tail hi)

theorem HostReady.of_samePins {s t : State} (h : HostReady s) (hp : SamePins s t) : HostReady t := by
  obtain ⟨e1, e2, -⟩ := hp
  exact ⟨by rw [e1]; exact h.1, by rw [e2]; exact h.2⟩

theorem NoReset.of_samePins {s t : State} (h : NoReset s) (hp : SamePins s t) : NoReset t := by
  obtain ⟨e1, e2, -⟩ := hp
  exact ⟨by rw [e1]; exact h.1, by rw [e2]; exact h.2⟩

theorem SinkReady.of_samePins {s t : State} (h : SinkReady s) (hp : SamePins s t) : SinkReady t := by
  obtain ⟨e1, e2, -⟩ := hp
  exact ⟨by rw [e1]; exact h.1, by rw [e2]; exact h.2⟩

/-- If no reset is to come, none is to come after a step. -/
theorem NoReset.step {s t : State} (h : NoReset s) (hs : step s = .next t) : NoReset t :=
  h.clock.of_samePins (step_pins hs)

/-- If the sink is always ready, it is after a step. -/
theorem SinkReady.step {s t : State} (h : SinkReady s) (hs : Sys2Proof.Machine.step s = .next t) : SinkReady t :=
  h.clock.of_samePins (step_pins hs)

/-- If the host always presents its next command, it does after a step. -/
theorem HostReady.step {s t : State} (h : HostReady s) (hs : Sys2Proof.Machine.step s = .next t) : HostReady t :=
  h.clock.of_samePins (step_pins hs)

/-- The states differ at most in the pins when every other field agrees. -/
theorem SameButPins.of_fields {s t : State} (h1 : t.cfg = s.cfg) (h2 : t.S = s.S) (h3 : t.result = s.result)
    (h4 : t.err = s.err) (h5 : t.sb = s.sb) (h6 : t.ob = s.ob) (h7 : t.job = s.job) (h8 : t.sink = s.sink)
    (h9 : t.host = s.host) : SameButPins s t := by
  cases s
  cases t
  simp_all [SameButPins]

/-! ### What a step writes -/

/-- A step of a busy command keeps RESULT and ERR, and is one of: an advance, an entry filtered, a byte taken, nothing. -/
theorem workOn_writes {job : Job} {inputs : Inputs} {s t : State} (h : workOn job inputs s = .next t) :
    t.result = s.result ∧ t.err = s.err ∧
    ((∃ cmd k, job = ⟨cmd, .fill k⟩ ∧ t.S = next s.S ∧ t.sb = Memory.write s.sb k (next s.S) ∧ t.ob = s.ob ∧
        t.sink = s.sink) ∨
     (∃ cmd todo active x, job = ⟨cmd, .filter todo active⟩ ∧
        Memory.read s.sb (pickIndex s.cfg.lanes cmd.count cmd.chunks todo active inputs.worker) = some x ∧
        t.S = s.S ∧ t.sb = s.sb ∧
        t.ob = Memory.write s.ob (pickIndex s.cfg.lanes cmd.count cmd.chunks todo active inputs.worker)
          (filterOne s.cfg x) ∧ t.sink = s.sink) ∨
     (∃ cmd k b, job = ⟨cmd, .emit k⟩ ∧ Memory.read s.ob k = some b ∧ inputs.sampleReady = true ∧ t.S = s.S ∧ t.sb = s.sb ∧ t.ob = s.ob ∧
        t.sink = s.sink ++ [b]) ∨
     (∃ cmd k, job = ⟨cmd, .emit k⟩ ∧ t = s)) := by
  obtain ⟨cmd, work⟩ := job
  cases work with
  | fill k =>
    rw [workOn_fill] at h
    simp only [Host.Outcome.next.injEq] at h
    subst h
    exact ⟨rfl, rfl, .inl ⟨cmd, k, rfl, rfl, rfl, rfl, rfl⟩⟩
  | filter todo active =>
    rw [workOn_filter, filterAdvance_eq] at h
    split at h
    · cases h
    · next x hx =>
      simp only [Host.Outcome.next.injEq] at h
      subst h
      exact ⟨rfl, rfl, .inr (.inl ⟨_, _, _, x, rfl, hx, rfl, rfl, rfl, rfl⟩)⟩
  | emit k =>
    rw [workOn_emit, emitAdvance_eq] at h
    split at h
    · cases h
    next b hb =>
      split at h <;> simp only [Host.Outcome.next.injEq] at h <;> subst h
      · next hr => exact ⟨rfl, rfl, .inr (.inr (.inl ⟨cmd, k, b, rfl, hb, hr, rfl, rfl, rfl, rfl⟩))⟩
      · exact ⟨rfl, rfl, .inr (.inr (.inr ⟨cmd, k, rfl, rfl⟩))⟩

/-- What each meaning may write beside ERR and the sequencer. -/
theorem exec_writes {i : Instr} {s t : State} (h : exec i s = .next t) :
    t.ob = s.ob ∧ (t.sb = s.sb ∨ ∃ a x, i = .sbwr a x ∧ t.sb = Memory.write s.sb a.toNat x) ∧
    (t.S = s.S ∨ (i = .step ∧ t.S = next s.S) ∨ ∃ x, i = .seed x ∧ t.S = x) ∧
    (t.result = s.result ∨ i = .step ∨ (∃ a b, i = .lutrd a b) ∨ (∃ x, i = .acc x) ∨ (∃ x, i = .filt1 x) ∨
      (∃ a, i = .sbrd a) ∨ ∃ a, i = .obrd a) := by
  cases i with
  | fill n =>
    rw [exec_fill] at h
    rcases withCount_cases n s _ with ⟨_, e⟩ | ⟨_, e⟩ <;> rw [e] at h <;> cases h <;>
      exact ⟨rfl, .inl rfl, .inl rfl, .inl rfl⟩
  | filter n p =>
    rw [exec_filter] at h
    rcases withCountAndChunks_cases n p s _ with ⟨_, e⟩ | ⟨_, _, e⟩ | ⟨_, _, e⟩ <;> rw [e] at h <;> cases h <;>
      exact ⟨rfl, .inl rfl, .inl rfl, .inl rfl⟩
  | iter n p =>
    rw [exec_iter] at h
    rcases withCountAndChunks_cases n p s _ with ⟨_, e⟩ | ⟨_, _, e⟩ | ⟨_, _, e⟩ <;> rw [e] at h <;> cases h <;>
      exact ⟨rfl, .inl rfl, .inl rfl, .inl rfl⟩
  | sbwr a x =>
    rw [exec_sbwr] at h
    rcases withEntry_cases a s _ with ⟨_, e⟩ | ⟨_, e⟩ <;> rw [e] at h <;> cases h
    · exact ⟨rfl, .inl rfl, .inl rfl, .inl rfl⟩
    · exact ⟨rfl, .inr ⟨a, x, rfl, rfl⟩, .inl rfl, .inl rfl⟩
  | sbrd a =>
    rw [exec_sbrd] at h
    rcases withEntry_cases a s _ with ⟨_, e⟩ | ⟨_, e⟩ <;> rw [e] at h
    · cases h; exact ⟨rfl, .inl rfl, .inl rfl, .inl rfl⟩
    · split at h <;> cases h
      exact ⟨rfl, .inl rfl, .inl rfl, by simp⟩
  | obrd a =>
    rw [exec_obrd] at h
    rcases withEntry_cases a s _ with ⟨_, e⟩ | ⟨_, e⟩ <;> rw [e] at h
    · cases h; exact ⟨rfl, .inl rfl, .inl rfl, .inl rfl⟩
    · split at h <;> cases h
      exact ⟨rfl, .inl rfl, .inl rfl, by simp⟩
  | _ =>
    simp only [exec_nop, exec_seed, exec_step, exec_lutrd, exec_acc, exec_filt1, exec_illegal,
      Host.Outcome.next.injEq] at h
    subst h
    simp

end Sys2Proof.Machine
end

