-- ==== Sys2Proof/Laws/Sums.lean ====
section
/-! SUPPORT. The sums of 41_lut_rom.md R90 and 42_fir_accumulator.md R98 as sums over the coefficient vector, and their bounds under the legal
configuration (00_scope.md R8). -/

namespace Sys2Proof.Machine

open Sys2Proof

theorem coeffAt_eq (cfg : Config) (i k : Fin 8) : coeffAt cfg (8 * i.val + k.val) = cfg.coeff[8 * i.val + k.val] := by
  have h : 8 * i.val + k.val < 64 := by omega
  simp [coeffAt, h]

theorem sum_range_eight {M : Type} [AddCommMonoid M] (f : Nat → M) :
    ((List.range 8).map f).sum = ∑ k : Fin 8, f k.val := by
  rw [Fin.sum_univ_eight]
  simp [List.range_succ, add_assoc]

theorem lutSum_eq_tableSum (cfg : Config) (i : Fin 8) (j : BitVec 8) : lutSum cfg i.val j = tableSum cfg i j := by
  simp only [lutSum, tableSum, sum_range_eight, signedBy, coeffAt_eq]

theorem absSum_eq (v : Vector Int 64) : (absSum v : Int) = ∑ k : Fin 64, |v[k]| := by
  have h : v.toList = List.ofFn fun k : Fin 64 => v[k] := by
    apply List.ext_getElem
    · simp
    · intro n _ _
      rw [List.getElem_ofFn]
      simp
  rw [absSum, h, List.map_ofFn, List.sum_ofFn]
  push_cast
  exact Finset.sum_congr rfl fun k _ => (Int.abs_eq_natAbs _).symm

/-- A sum over the 64 state bits, byte by byte. -/
theorem sum_by_bytes (f : Fin 64 → Int) :
    ∑ k : Fin 64, f k = ∑ i : Fin 8, ∑ k : Fin 8, f ⟨8 * i.val + k.val, by omega⟩ := by
  rw [← Finset.sum_product']
  symm
  refine Finset.sum_bij (fun (p : Fin 8 × Fin 8) _ => (⟨8 * p.1.val + p.2.val, by omega⟩ : Fin 64)) (by simp) ?_ ?_
    (by simp)
  · rintro ⟨a, b⟩ _ ⟨c, d⟩ _ h
    simp only [Fin.mk.injEq] at h
    ext <;> simp <;> omega
  · intro k _
    exact ⟨(⟨k.val / 8, by omega⟩, ⟨k.val % 8, by omega⟩), by simp, by ext; simp; omega⟩

theorem byteOf_getLsbD (x : U64) (i k : Fin 8) : (byteOf x i.val).getLsbD k.val = x.getLsbD (8 * i.val + k.val) := by
  simp [byteOf, k.isLt]

theorem directSum_by_bytes (cfg : Config) (x : U64) :
    directSum cfg x = ∑ i : Fin 8, tableSum cfg i (byteOf x i.val) := by
  rw [directSum, sum_by_bytes]
  simp only [tableSum, byteOf_getLsbD]
  rfl

theorem abs_tableSum_le (cfg : Config) (i : Fin 8) (j : BitVec 8) : |tableSum cfg i j| ≤ 2147483647 := by
  have h1 : |tableSum cfg i j| ≤ ∑ k : Fin 8, |cfg.coeff[8 * i.val + k.val]| := by
    refine (Finset.abs_sum_le_sum_abs _ _).trans (le_of_eq (Finset.sum_congr rfl fun k _ => ?_))
    split <;> simp
  have h2 : (absSum cfg.coeff : Int) = ∑ i : Fin 8, ∑ k : Fin 8, |cfg.coeff[8 * i.val + k.val]| := by
    rw [absSum_eq, sum_by_bytes]
    rfl
  have h3 : (absSum cfg.coeff : Int) ≤ 2147483647 := by exact_mod_cast cfg.coeff_bound
  have h4 : ∑ k : Fin 8, |cfg.coeff[8 * i.val + k.val]| ≤
      ∑ i : Fin 8, ∑ k : Fin 8, |cfg.coeff[8 * i.val + k.val]| :=
    Finset.single_le_sum (f := fun i : Fin 8 => ∑ k : Fin 8, |cfg.coeff[8 * i.val + k.val]|)
      (fun i _ => Finset.sum_nonneg fun k _ => abs_nonneg _) (Finset.mem_univ i)
  omega

theorem abs_directSum_le (cfg : Config) (x : U64) : |directSum cfg x| ≤ 2147483647 := by
  have h3 : (absSum cfg.coeff : Int) ≤ 2147483647 := by exact_mod_cast cfg.coeff_bound
  have h1 : |directSum cfg x| ≤ absSum cfg.coeff := by
    rw [absSum_eq]
    refine (Finset.abs_sum_le_sum_abs _ _).trans (le_of_eq (Finset.sum_congr rfl fun k _ => ?_))
    split <;> simp
  omega

/-- A value within the bound is its own 32-bit store. -/
theorem bits_toInt {z : Int} (h : |z| ≤ 2147483647) : (bits 32 z).toInt = z := by
  rw [abs_le] at h
  simp only [bits, BitVec.toInt_ofInt]
  rw [Int.bmod_eq_of_le] <;> omega

/-- The accumulator holds the 32-bit store of the direct sum. -/
theorem accSum_eq_bits (cfg : Config) (x : U64) : accSum cfg x = bits 32 (directSum cfg x) := by
  rw [accSum, sum_range_eight, directSum_by_bytes]
  simp only [lut, lutSum_eq_tableSum, Fin.sum_univ_eight, bits, BitVec.ofInt_add]

end Sys2Proof.Machine
end

