-- ==== Sys2Proof/Tests/Slice0.lean ====
section
/-! SUPPORT. Tests. Expected values are those of spec/95_test_vectors.md (its section is named), or of the rule named. The witnesses at the end show, for every
statement with hypotheses, a state and operands that meet them all. -/

namespace Sys2Proof.Tests

open Sys2Proof Sys2Proof.Machine

/-! ### Configurations and states -/

/-- Configuration A of 95 §1: `k + 1`, shift 4; the default depth, three lanes. -/
def cfgA : Config :=
  { coeff := Vector.ofFn fun k => (k.val : Int) + 1
    shift := 4
    bufDepth := 131072
    lanes := 3
    coeff_bound := by decide
    depth_pos := by decide
    depth_le := by decide
    lanes_pos := by decide }

/-- Configuration B of 95 §1: `((37 k) mod 61) − 30`, shift 2; depth 8, two lanes. -/
def cfgB : Config :=
  { coeff := Vector.ofFn fun k => (((37 * k.val) % 61 : Nat) : Int) - 30
    shift := 2
    bufDepth := 8
    lanes := 2
    coeff_bound := by decide
    depth_pos := by decide
    depth_le := by decide
    lanes_pos := by decide }

/-- `CFG_COEFF = [c, 0, 0, ...]` (95 §2 E1, §3.4). -/
def first (c : Int) : Vector Int 64 := Vector.ofFn fun k => if k.val = 0 then c else 0

/-- The bound corner of 95 §3.3: `CFG_COEFF = [2^31 − 1, 0, ...]`, shift 31, depth 1, one lane. -/
def cfgEdge : Config :=
  { coeff := first 2147483647
    shift := 31
    bufDepth := 1
    lanes := 1
    coeff_bound := by decide
    depth_pos := by decide
    depth_le := by decide
    lanes_pos := by decide }

/-- After reset, a sink that takes every byte. -/
def idle (cfg : Config) : State := { State.resetIn cfg with inputs := { rst := false, cmdValid := true, sampleReady := true, worker := 0 } }

/-- The same with commands to issue. -/
def issue (cfg : Config) (commands : List Command) : State := { idle cfg with host := commands }

/-- One field of the state a meaning or a step answers; none when it answers none. -/
def after {α : Type} (f : State → α) : Answer → Option α
  | .next t => some (f t)
  | .fault _ => none
  | .refused _ => none

/-- The fault a meaning or a step answers. -/
def faultOf : Answer → Option Fault
  | .next _ => none
  | .fault f => some f
  | .refused _ => none

/-! ### WellFormed, the assembler's ranges and the configuration refuse ill-formed terms -/

theorem test_wellFormed_refuses_legal_opcode : (Instr.illegal 0x0000000B 0).wellFormed = false := by decide
theorem test_wellFormed_refuses_half_opcode : (Instr.illegal 0xFFFFFFF4 0).wellFormed = false := by decide
theorem test_wellFormed_takes_illegal_opcode : (Instr.illegal 0x0000001F 0).wellFormed = true := by decide

/-- Every range of R73: the first number outside it. -/
theorem test_inRange_refuses :
    ([.seed (2 ^ 64), .fill (2 ^ 32), .lutrd 8 0, .lutrd 0 256, .acc (2 ^ 64), .filt1 (2 ^ 64), .filter (2 ^ 32) 1,
      .filter 1 (2 ^ 32), .iter (2 ^ 32) 1, .iter 1 (2 ^ 32), .sbwr (2 ^ 20) 0, .sbwr 0 (2 ^ 64), .sbrd (2 ^ 20),
      .obrd (2 ^ 20)] : List Source).all (fun src => !src.inRange) = true := by decide

/-- The last number inside it; P = 0 and any A or N below the field's width pass the assembler (R73). -/
theorem test_inRange_takes :
    ([.nop, .seed (2 ^ 64 - 1), .step, .fill (2 ^ 32 - 1), .lutrd 7 255, .filter (2 ^ 32 - 1) 0, .sbwr (2 ^ 20 - 1) 0] :
      List Source).all Source.inRange = true := by decide

/-- The refusal of a configuration, if it is refused (95 §3.3, R140). -/
def refusalOf (coeff : Vector Int 64) (shift depth lanes : Nat) : Option ConfigRefusal :=
  match Config.build coeff shift depth lanes with
  | .ok _ => none
  | .error why => some why

theorem test_build_refuses_coefficients : refusalOf (Vector.replicate 64 33554432) 0 1 1 = some .coefficients := by decide
theorem test_build_refuses_shift : refusalOf (first 1) 32 1 1 = some .shift := by decide
theorem test_build_refuses_no_depth : refusalOf (first 1) 0 0 1 = some .bufDepth := by decide
theorem test_build_refuses_big_depth : refusalOf (first 1) 0 1048577 1 = some .bufDepth := by decide
theorem test_build_refuses_no_lanes : refusalOf (first 1) 0 1 0 = some .lanes := by decide
theorem test_build_takes_the_bounds : refusalOf (first (-2147483647)) 31 1048576 1 = none := by decide

/-! ### Decoding: words written out from the encoding tables (30_encoding.md R64, R65, R67, R74; 95 §3) -/

theorem test_decode_nop : decode ⟨0b00000000000000000000000000000000, 0⟩ = .ok .nop := by decide
theorem test_decode_seed : decode ⟨0b00000000000000000000000000000001, 0x8000000000000000⟩ = .ok (.seed 0x8000000000000000) := by decide
theorem test_decode_step : decode ⟨0b00000000000000000000000000000010, 0⟩ = .ok .step := by decide
theorem test_decode_fill : decode ⟨0b00000000000000000000000000000011, 0x20001⟩ = .ok (.fill 131073) := by decide
theorem test_decode_lutrd : decode ⟨0b00000000000000000000000000000100, 0x780⟩ = .ok (.lutrd 7 0x80) := by decide
theorem test_decode_acc : decode ⟨0b00000000000000000000000000000101, 0x0123456789ABCDEF⟩ = .ok (.acc 0x0123456789ABCDEF) := by decide
theorem test_decode_filt1 : decode ⟨0b00000000000000000000000000000110, 0xFF⟩ = .ok (.filt1 0xFF) := by decide
theorem test_decode_filter : decode ⟨0b00000000000000000000000000000111, 0x0000000700000064⟩ = .ok (.filter 100 7) := by decide
theorem test_decode_iter : decode ⟨0b00000000000000000000000000001000, 0x0000000400020000⟩ = .ok (.iter 131072 4) := by decide
theorem test_decode_sbwr : decode ⟨0b00000000000000000101000000001001, 0x1234⟩ = .ok (.sbwr 5 0x1234) := by decide
theorem test_decode_sbrd : decode ⟨0b00000000000000000010000000001010, 0⟩ = .ok (.sbrd 2) := by decide
theorem test_decode_obrd : decode ⟨0b00000000000001100011000000001011, 0⟩ = .ok (.obrd 99) := by decide
theorem test_decode_illegal : decode ⟨0b00000000000000000000000000011111, 0⟩ = .ok (.illegal 0x1F 0) := by decide

/-- The rejections of 95 §3.8 that the fields alone decide. -/
theorem test_decode_rejects :
    [decode ⟨0x00000012, 0⟩, decode ⟨0x00001002, 0⟩, decode ⟨0x00000011, 0⟩, decode ⟨0xFFFFF019, 0⟩, decode ⟨0x00000002, 1⟩,
      decode ⟨0x00000003, 0x1FFFFFFFF⟩, decode ⟨0x0000000A, 1⟩, decode ⟨0x00000004, 0x800⟩, decode ⟨0x00000000, 1⟩] =
    [.error .reservedField, .error .reservedField, .error .reservedField, .error .reservedField, .error .badOperand,
      .error .badOperand, .error .badOperand, .error .badOperand, .error .badOperand] := by decide

theorem test_encode_words :
    [encode .step, encode (.filter 100 7), encode (.sbwr 5 0x1234), encode (.obrd 99), encode (.lutrd 7 0x80)] =
    [⟨0x00000002, 0⟩, ⟨0x00000007, 0x0000000700000064⟩, ⟨0x00005009, 0x1234⟩, ⟨0x0006300B, 0⟩, ⟨0x00000004, 0x780⟩] := by decide

theorem test_decodeTableWord : decodeTableWord 32 0x0006300B = some (.obrd 99) := by decide
theorem test_decodeTableWord_operand : decodeTableWord 96 (0x0000000700000064 * 2 ^ 32 + 7) = some (.filter 100 7) := by decide

/-! ### The notation (95 §3.4), the generator (§3.1), the table (§3.3), the accumulator (§3.4), the partition (§3.5) -/

theorem test_asr : [asr (-1) 4, asr (-2) 4, asr (-16) 4, asr (-17) 4, asr 15 4, asr 16 4, asr 17 4] = [-1, -1, -1, -2, 0, 1, 1] := by decide
theorem test_trunc8 :
    [trunc8 127, trunc8 128, trunc8 255, trunc8 256, trunc8 (-128), trunc8 (-129), trunc8 (-256), trunc8 130, trunc8 (-130),
      trunc8 383, trunc8 (-385)] = [127, -128, -1, 0, -128, 127, 0, -126, 126, 127, 127] := by decide
theorem test_next :
    [next 0, next 1, next 0x8000000000000000, next 0x4000000000000000, next 0x1000000000000000, next 0x0800000000000000,
      next 0x1800000000000000, next 0xFFFFFFFFFFFFFFFF, next 0x0123456789ABCDEF, next 0xDEADBEEFCAFEF00D] =
    [0, 2, 1, 0x8000000000000001, 0x2000000000000001, 0x1000000000000001, 0x3000000000000000, 0xFFFFFFFFFFFFFFFE,
      0x02468ACF13579BDE, 0xBD5B7DDF95FDE01A] := by decide
/-- From the state after 58 advances to those after 63, 64 and 70. -/
theorem test_nextN : [nextN 5 0x0400000000000000, nextN 6 0x0400000000000000, nextN 12 0x0400000000000000] =
    [0x800000000000000D, 0x1B, 0x6C0] := by decide
theorem test_lut :
    [(lut cfgA 7 0x80).toInt, (lut cfgA 7 0x7F).toInt, (lut cfgB 0 0x55).toInt, (lut cfgB 3 0x0F).toInt, (lut cfgEdge 0 0).toInt] =
    [-356, 356, -26, -43, -2147483647] := by decide
theorem test_accSum :
    [(accSum cfgA 0xDEADBEEFCAFEF00D).toInt, (accSum cfgB 0x0123456789ABCDEF).toInt, (accSum cfgB 0x91B7584A2265B1F5).toInt] =
    [880, -70, -248] := by decide
theorem test_filterOne :
    [(filterOne cfgA 0).toInt, (filterOne cfgB 0x0123456789ABCDEF).toInt, (filterOne cfgB 0xFEDCBA9876543210).toInt,
      (filterOne cfgEdge 0).toInt, (filterOne cfgEdge 1).toInt, (filterOne cfgB 2).toInt, (filterOne cfgB 4).toInt,
      (filterOne cfgB 8).toInt, (filterOne cfgB 16).toInt] = [126, -18, 17, -1, 0, 13, 1, 20, 8] := by decide
theorem test_chunks :
    [chunkStart 100 7 6, chunkLen 100 7 6, chunkStart 5 7 6, chunkLen 5 7 6, chunkLen 5 7 0, chunkStart 8 3 2, chunkLen 8 3 2,
      chunkLen 0 3 2, chunkStart 131072 4 3] = [84, 16, 0, 5, 0, 4, 4, 0, 98304] := by decide

/-! ### One command each, in the table's order (95 §3) -/

theorem test_exec_nop : after State.status (exec .nop { idle cfgB with err := .range }) = some 0 := by decide
theorem test_exec_seed_zero : after State.status (exec (.seed 0) (idle cfgA)) = some 2 := by decide
theorem test_exec_seed_keeps_result : after (fun t => (t.S, t.result)) (exec (.seed 0x8000000000000000) { idle cfgA with result := 8 }) =
    some (0x8000000000000000, 8) := by decide
theorem test_exec_step : after (fun t => (t.S, t.result)) (exec .step { idle cfgA with S := 0x8000000000000000 }) = some (1, 1) := by decide
theorem test_exec_step_zero : after (fun t => (t.S, State.status t)) (exec .step { idle cfgA with S := 0 }) = some (0, 2) := by decide
theorem test_exec_fill_range : after (fun t => (State.status t, t.S)) (exec (.fill 131073) (idle cfgA)) = some (0x40, 1) := by decide
/-- The third advance of FILL 3 from reset. -/
theorem test_step_fill : after (fun t => (t.S, t.sb, t.result, State.status t))
    (step { idle cfgA with S := 4, sb := [(0, 2), (1, 4)], job := some ⟨.fill 3, .fill 2⟩ }) =
    some (8, [(0, 2), (1, 4), (2, 8)], 0, 0) := by decide
theorem test_exec_lutrd : after State.result (exec (.lutrd 7 0x80) (idle cfgA)) = some 0xFFFFFFFFFFFFFE9C := by decide
theorem test_exec_lutrd_edge : after State.result (exec (.lutrd 0 0) (idle cfgEdge)) = some 0xFFFFFFFF80000001 := by decide
theorem test_exec_acc : after State.result (exec (.acc 0xFF) (idle cfgA)) = some 0xFFFFFFFFFFFFF828 := by decide
theorem test_exec_acc_positive : after State.result (exec (.acc 0xDEADBEEFCAFEF00D) (idle cfgA)) = some 0x370 := by decide
theorem test_exec_filt1 : after State.result (exec (.filt1 0) (idle cfgA)) = some 0x7E := by decide
theorem test_exec_filt1_negative : after State.result (exec (.filt1 0xFF) (idle cfgA)) = some 0xFFFFFFFFFFFFFF82 := by decide

/-- SB[0..2] of 95 §3.5. -/
def threeStates : Memory 64 := [(0, 0x0123456789ABCDEF), (1, 0xDEADBEEFCAFEF00D), (2, 0xFFFFFFFFFFFFFFFF)]

/-- The last entry of FILTER 3, 7: the samples of 95 §3.5, and the join. -/
theorem test_step_filter : after (fun t => (t.ob.map fun cell => (cell.1, cell.2.toInt), State.status t))
    (step { idle cfgA with sb := threeStates, ob := [(0, 0xE2), (2, 0x82)], job := some ⟨.filter 3 7, .filter [1] [6]⟩ }) =
    some ([(0, -30), (1, 55), (2, -126)], 0) := by decide
theorem test_step_filter_unwritten :
    faultOf (step { idle cfgA with sb := threeStates, job := some ⟨.filter 4 1, .filter [3] [0]⟩ }) = some (.unwrittenState 3) := by decide
/-- The last byte of ITER 4, 2 in configuration B (95 §3.6). -/
theorem test_step_iter : after (fun t => (t.sink, State.status t))
    (step { idle cfgB with ob := [(3, 0x08)], sink := [0x0D, 0x01, 0x14], job := some ⟨.iter 4 2, .emit 3⟩ }) =
    some ([0x0D, 0x01, 0x14, 0x08], 0) := by decide
theorem test_step_iter_stuck : after (fun t => (t.sink, State.status t))
    (step { State.resetIn cfgB with ob := [(0, 0x0D)], job := some ⟨.iter 1 1, .emit 0⟩ }) = some ([], 0x0D) := by decide
theorem test_exec_sbwr : after State.sb (exec (.sbwr 131071 0x1234) (idle cfgA)) = some [(131071, 0x1234)] := by decide
theorem test_exec_sbwr_range : after State.status (exec (.sbwr 131072 0) (idle cfgA)) = some 0x40 := by decide
theorem test_exec_sbrd : after State.result (exec (.sbrd 2) { idle cfgA with sb := [(0, 2), (1, 4), (2, 8)] }) = some 8 := by decide
theorem test_exec_sbrd_unwritten : faultOf (exec (.sbrd 4) { idle cfgA with sb := [(0, 2), (1, 4), (2, 8)] }) =
    some (.unwrittenState 4) := by decide
theorem test_exec_obrd : after State.result (exec (.obrd 2) { idle cfgA with ob := [(0, 0xE2), (1, 0x37), (2, 0x82)] }) =
    some 0xFFFFFFFFFFFFFF82 := by decide
theorem test_exec_obrd_unwritten : faultOf (exec (.obrd 99) (idle cfgA)) = some (.unwrittenSample 99) := by decide
theorem test_step_illegal : after State.status (step (issue cfgA [⟨0x0000001F, 0⟩])) = some 0x10 := by decide
theorem test_step_bad_operand_before_range : after State.status (step (issue cfgA [⟨7, 0x00000000FFFFFFFF⟩])) = some 0x30 := by decide

/-- Reset while an ITER offers a byte: the command is gone, S is 1, the host keeps what it had (R142). -/
theorem test_step_reset : after (fun t => (t.S, t.sink, State.status t, t.host))
    (step { issue cfgB [⟨2, 0⟩] with S := 16, err := .range, ob := [(0, 0x0D)], job := some ⟨.iter 1 1, .emit 0⟩,
                                     inputs := { rst := true, cmdValid := true, sampleReady := true, worker := 0 } }) =
    some (1, [], 0, [⟨2, 0⟩]) := by decide

/-- withFetchWord: the very next step after reset runs the instruction. -/
theorem test_withFetchWord : after (fun t => (State.status t, t.host)) (step (State.reset.withFetchWord 32 0x00000012)) =
    some (0x20, []) := by decide
theorem test_withFetchWord_runs : step (State.reset.withFetchWord 32 0x00000002) =
    exec .step (State.popHost (State.clock (State.reset.withFetchWord 32 0x00000002))) := by rfl
theorem test_step_pause : after State.host (step { issue cfgB [⟨2, 0⟩] with inputs := Inputs.quiet }) = some [⟨2, 0⟩] := by decide

/-- The chunks and the lanes of R109: with one chunk begun and one lane, only that chunk's entries may go on. -/
theorem test_laneChoices : [laneChoices 1 8 3 [1, 2, 3, 5] [0], laneChoices 2 8 3 [1, 2, 3, 5] [0]] = [[1], [1, 2, 3, 5]] := by decide

/-! ### The assembler (30_encoding.md R72–R75; 95 §3, §4) -/

theorem test_assembleLine : (assembleLine "  sbwr 5 , 0x1234 ; a comment".toList).toOption = some (some ⟨0x00005009, 0x1234⟩) := by decide
theorem test_assembleLine_pseudo : ["SEEDRST", "ITERDEF", "; nothing", "ACC 0xDEADBEEFCAFEF00D"].map
    (fun line => (assembleLine line.toList).toOption) =
    [some (some ⟨1, 1⟩), some (some ⟨8, 0x0000000400020000⟩), some none, some (some ⟨5, 0xDEADBEEFCAFEF00D⟩)] := by decide
theorem test_assembleLine_errors : ["LUTRD 8, 0", "FILL", "FILL -1", "FILL 1,", "JUMP 1", "SBRD 0x"].map
    (fun line => (assembleLine line.toList).toOption) = [none, none, none, none, none, none] := by decide
theorem test_writtenForm : writtenForm ⟨0x0006300B, 0⟩ = "0006300B:0000000000000000".toList := by decide

/-! ### Witnesses: for each statement with hypotheses, a state and operands that meet them -/

theorem next_of_after {α : Type} {f : State → α} {a : Answer} {v : α} (h : after f a = some v) : ∃ t, a = .next t ∧ f t = v := by
  cases a with
  | next t => exact ⟨t, rfl, Option.some.inj h⟩
  | fault _ => cases h
  | refused _ => cases h

theorem noReset_idle (cfg : Config) : NoReset (idle cfg) := ⟨rfl, fun _ h => nomatch h⟩
theorem sinkReady_idle (cfg : Config) : SinkReady (idle cfg) := ⟨rfl, fun _ h => nomatch h⟩
theorem coreInv_idle (cfg : Config) : CoreInv (idle cfg) :=
  ⟨Memory.wf_nil _, Memory.wf_nil _, fun _ h => nomatch h⟩

/-- Configuration B with one lane. -/
def cfgOneLane : Config := { cfgB with lanes := 1, lanes_pos := by decide }

/-- All coefficients zero, shift 0. -/
def cfgZero : Config :=
  { coeff := Vector.replicate 64 0
    shift := 0
    bufDepth := 1
    lanes := 1
    coeff_bound := absSum_zero_le
    depth_pos := by decide
    depth_le := by decide
    lanes_pos := by decide }

/-- FILL 2 after its first advance. -/
def filling : State := { idle cfgB with S := 2, sb := [(0, 2)], job := some ⟨.fill 2, .fill 1⟩ }

/-- FILTER 2, 1 with its first entry filtered and its chunk begun; SB[1] is written or not. -/
def filtering (sb : Memory 64) : State :=
  { idle cfgB with sb := sb, ob := [(0, filterOne cfgB 2)], job := some ⟨.filter 2 1, .filter [1] [0]⟩ }

/-- An ITER with `taken` bytes of n taken; its states are 2 and 4. -/
def emitting (n : U32) (taken : Nat) : State :=
  { idle cfgB with S := 4, sb := [(0, 2), (1, 4)], ob := [(0, filterOne cfgB 2), (1, filterOne cfgB 4)],
                   job := some ⟨.iter n 1, .emit taken⟩ }

theorem coreInv_filling : CoreInv filling := by
  refine ⟨by decide, by decide, fun job h => ?_⟩
  cases h
  refine ⟨by decide, by decide, (by intro _ _ h; cases h), by decide, fun k h => ?_, fun _ => rfl⟩
  interval_cases k
  exact rfl

theorem coreInv_filtering (sb : Memory 64) (h : Memory.wf 8 sb = true) (h0 : Memory.read sb 0 = some 2) :
    CoreInv (filtering sb) := by
  refine ⟨h, rfl, fun job hj => ?_⟩
  cases hj
  refine ⟨show 2 ≤ 8 by decide, show 1 ≤ 1 by decide, (by intro _ h; cases h), by decide, by decide, ?_, fun k hk hn => ?_,
    fun _ _ h => ?_, by decide, show 1 ≤ 2 by decide, ?_⟩
  · show ∀ k ∈ [1], k < 2
    decide
  · have hk2 : k < 2 := hk
    have hk1 : k ≠ 1 := fun e => hn (by simp [e])
    obtain rfl : k = 0 := by omega
    exact ⟨2, h0, rfl⟩
  · cases h
  · intro c
    show c ∈ [0] ↔ (∃ j, j < 2 ∧ j ∉ [1] ∧ chunkOf 2 1 j = c) ∧ ∃ k ∈ [1], chunkOf 2 1 k = c
    constructor
    · intro hc
      obtain rfl : c = 0 := by simpa using hc
      exact ⟨⟨0, by decide⟩, 1, by decide⟩
    · rintro ⟨-, k, hk, rfl⟩
      obtain rfl : k = 1 := by simpa using hk
      decide

theorem coreInv_emitting {n : U32} {taken : Nat} (hn : n.toNat ≤ 2) (ht : taken < n.toNat) : CoreInv (emitting n taken) := by
  refine ⟨rfl, rfl, fun job hj => ?_⟩
  cases hj
  refine ⟨Nat.le_trans hn (show 2 ≤ 8 by decide), show 1 ≤ 1 by decide, ⟨n, 1, rfl⟩, ht, fun k hk => ?_⟩
  have hk2 : k < 2 := Nat.lt_of_lt_of_le hk hn
  interval_cases k
  · exact ⟨2, rfl, rfl⟩
  · exact ⟨4, rfl, rfl⟩

theorem witness_DecodeOfEncode : (Instr.obrd 0xFFFFF).wellFormed = true ∧ (Instr.illegal 0xFFFFFFFF 1).wellFormed = true := by decide
theorem witness_EncodeOfDecode : decode ⟨0xFFFFF00B, 0⟩ = .ok (.obrd 0xFFFFF) := by decide
theorem witness_AssembledForm : ∀ w o, Instr.iter 0xFFFFFFFF 0xFFFFFFFF ≠ .illegal w o := fun _ _ h => nomatch h

theorem witness_ConfigurationsAreBuiltOrRefused :
    (((first (-2147483647)).toList.map Int.natAbs).sum ≤ 2 ^ 31 - 1 ∧ 31 ≤ 31 ∧ 1 ≤ 1048576 ∧ 1048576 ≤ 2 ^ 20 ∧ 1 ≤ 1) ∧
    ¬(((Vector.replicate 64 33554432).toList.map Int.natAbs).sum ≤ 2 ^ 31 - 1 ∧ 31 ≤ 31 ∧ 1 ≤ 1 ∧ 1 ≤ 2 ^ 20 ∧ 1 ≤ 1) := by decide

theorem presents_issue (cfg : Config) (c : Command) : Presents (issue cfg [c]) c := ⟨rfl, rfl, rfl, rfl⟩

theorem witness_StepRunsTheDecodedCommand : Presents (issue cfgB [⟨2, 0⟩]) ⟨2, 0⟩ ∧ decode ⟨2, 0⟩ = .ok .step :=
  ⟨presents_issue _ _, by decide⟩

theorem witness_AcceptanceReportsTheFirstFailingCheck :
    (Presents (issue cfgB [⟨3, 9⟩]) ⟨3, 9⟩ ∧ checkCode 8 3 9 ≠ .ok) ∧
    (Presents (issue cfgB [⟨3, 8⟩]) ⟨3, 8⟩ ∧ checkCode 8 3 8 = .ok ∧ ∃ t, step (issue cfgB [⟨3, 8⟩]) = .next t) :=
  ⟨⟨presents_issue _ _, by decide⟩, presents_issue _ _, by decide, _, rfl⟩

theorem witness_IllegalOpcodesAreRejected : Presents (issue cfgB [⟨0xC, 0⟩]) ⟨0xC, 0⟩ ∧ 12 ≤ (0xC : U32).toNat % 16 :=
  ⟨presents_issue _ _, by decide⟩

theorem witness_ResetPinResetsTheCore : ({ filling with inputs := { rst := true, cmdValid := true, sampleReady := true, worker := 0 } } : State).inputs.rst = true := rfl

/-- A busy step after which the command is still busy, and the acceptance of a FILL. -/
theorem witness_BusyCoreHoldsTheHost :
    ((emitting 2 0).inputs.rst = false ∧ State.busy (emitting 2 0) = true ∧
      ∃ t, step (emitting 2 0) = .next t ∧ State.busy t = true) ∧
    Presents (issue cfgB [⟨3, 8⟩]) ⟨3, 8⟩ ∧ ∃ t, step (issue cfgB [⟨3, 8⟩]) = .next t ∧ State.busy t = true :=
  ⟨⟨rfl, rfl, next_of_after (show after State.busy (step (emitting 2 0)) = some true by decide)⟩, presents_issue _ _,
    next_of_after (show after State.busy (step (issue cfgB [⟨3, 8⟩])) = some true by decide)⟩

theorem witness_IdleCoreKeepsAllState : ((idle cfgB).job = none ∧ State.cmdValid (idle cfgB) = false ∧ (idle cfgB).inputs.rst = false) ∧
    State.cmdValid { issue cfgB [⟨2, 0⟩] with inputs := Inputs.quiet } = false := ⟨⟨rfl, rfl, rfl⟩, rfl⟩

theorem witness_PortsShowTheRegisters : State.busy (idle cfgB) = false ∧ (idle cfgB).inputs.rst = false := ⟨rfl, rfl⟩

theorem witness_SeedLoadsS : ∃ t, exec (.seed 0) (idle cfgB) = .next t := ⟨_, rfl⟩
theorem witness_StepAdvancesS : ∃ t, exec .step (idle cfgB) = .next t := ⟨_, rfl⟩

/-- The last address and the first beyond it, on both sides of the clauses. -/
theorem witness_SbwrWritesOneEntry : (7 : EntryAddr).toNat < (idle cfgB).cfg.bufDepth ∧ (idle cfgB).cfg.bufDepth ≤ (8 : EntryAddr).toNat := by decide

theorem witness_SbrdReadsOneEntry :
    ((7 : EntryAddr).toNat < cfgB.bufDepth ∧ Memory.read ({ idle cfgB with sb := [(7, 5)] } : State).sb (7 : EntryAddr).toNat = some 5) ∧
    ((7 : EntryAddr).toNat < cfgB.bufDepth ∧ Memory.read (idle cfgB).sb (7 : EntryAddr).toNat = none) ∧
    cfgB.bufDepth ≤ (8 : EntryAddr).toNat := by decide

theorem witness_ObrdReadsOneSample :
    ((7 : EntryAddr).toNat < cfgB.bufDepth ∧ Memory.read ({ idle cfgB with ob := [(7, 5)] } : State).ob (7 : EntryAddr).toNat = some 5) ∧
    ((7 : EntryAddr).toNat < cfgB.bufDepth ∧ Memory.read (idle cfgB).ob (7 : EntryAddr).toNat = none) ∧
    cfgB.bufDepth ≤ (8 : EntryAddr).toNat := by decide

theorem witness_FillStoresTheAdvances : (idle cfgB).job = none ∧ NoReset (idle cfgB) ∧ (8 : U32).toNat ≤ (idle cfgB).cfg.bufDepth :=
  ⟨rfl, noReset_idle _, by decide⟩

/-- An idle core with SB[0] written. -/
def oneState (cfg : Config) : State := { idle cfg with sb := [(0, 2)] }

theorem written_oneState (cfg : Config) : ∀ k, k < (1 : U32).toNat → StateWritten (oneState cfg) k := by
  intro k hk
  obtain rfl : k = 0 := Nat.lt_one_iff.mp hk
  exact rfl

theorem witness_FilterFiltersEveryEntry :
    (oneState cfgB).job = none ∧ NoReset (oneState cfgB) ∧ (0xFFFFFFFF : U32) ≠ 0 ∧ (1 : U32).toNat ≤ (oneState cfgB).cfg.bufDepth ∧
    ∀ k, k < (1 : U32).toNat → StateWritten (oneState cfgB) k :=
  ⟨rfl, noReset_idle cfgB, by decide, by decide, written_oneState _⟩

theorem witness_IterFillsFiltersAndEmits :
    (idle cfgB).job = none ∧ NoReset (idle cfgB) ∧ SinkReady (idle cfgB) ∧ (1 : U32) ≠ 0 ∧ (8 : U32).toNat ≤ (idle cfgB).cfg.bufDepth :=
  ⟨rfl, noReset_idle _, sinkReady_idle _, by decide, by decide⟩

theorem witness_LongCommandsAreRejected : (idle cfgB).cfg.bufDepth < (9 : U32).toNat ∧ (1 : U32) ≠ 0 := by decide

/-- The states of one STEP. -/
def oneStep (k : Nat) : State := if k = 0 then idle cfgB else { idle cfgB with S := 2, result := 2 }

theorem witness_FillIsStepRepeated :
    (idle cfgB).job = none ∧ NoReset (idle cfgB) ∧ (1 : U32).toNat ≤ (idle cfgB).cfg.bufDepth ∧ oneStep 0 = idle cfgB ∧
    ∀ k, k < (1 : U32).toNat → exec .step (oneStep k) = .next (oneStep (k + 1)) := by
  refine ⟨rfl, noReset_idle _, by decide, rfl, fun k hk => ?_⟩
  obtain rfl : k = 0 := Nat.lt_one_iff.mp hk
  rfl

theorem witness_NextKeepsZeroAndNonzero : (0x8000000000000000 : U64) ≠ 0 := by decide
theorem witness_StateIsASlidingWindow : (63 < 64 ∧ 63 < 64) ∧ 64 ≤ 64 := by decide
theorem witness_GeneratorHasMaximalLength : (1 : U64) ≠ 0 ∧ 0 < 1 ∧ 1 < 2 ^ 64 - 1 ∧ (2 : U64) ≠ 0 := by decide

theorem witness_OnlySeedAndResetChangeSz :
    (∃ t, step filling = .next t) ∧ filling.inputs.rst = false ∧ ∀ x, eventOf filling ≠ .accept (.seed x) :=
  ⟨⟨_, rfl⟩, rfl, fun _ h => nomatch h⟩

theorem witness_TableEntriesAreExact : cfgOneLane.coeff = cfgB.coeff := rfl

theorem witness_TableLaws : (0 : BitVec 8).getLsbD (7 : Fin 8).val = false ∧
    ∀ k : Fin 8, cfgEdge.coeff[8 * (1 : Fin 8).val + k.val] = 0 := by decide

theorem witness_SampleCornerCases : (∀ k : Fin 64, cfgZero.coeff[k] = 0) ∧ cfgZero.shift = 0 := by decide

/-- N < P, and the last index. -/
theorem witness_ChunksPartitionTheRange : 1 ≤ 7 ∧ 5 + 1 < 7 ∧ 4 < 5 ∧ 6 < 7 ∧ inChunk 5 7 6 4 = true := by decide
theorem witness_EachIndexHasItsWorker : 1 ≤ 7 ∧ 99 < 100 ∧ chunkOf 100 7 99 < 7 := by decide

theorem witness_FilterDoesNotDependOnTheWorkers :
    (1 : U32) ≠ 0 ∧ (7 : U32) ≠ 0 ∧ (oneState cfgB).job = none ∧ (oneState cfgOneLane).job = none ∧ NoReset (oneState cfgB) ∧
    NoReset (oneState cfgOneLane) ∧ (1 : U32).toNat ≤ (oneState cfgB).cfg.bufDepth ∧
    (1 : U32).toNat ≤ (oneState cfgOneLane).cfg.bufDepth ∧ cfgB.coeff = cfgOneLane.coeff ∧ cfgB.shift = cfgOneLane.shift ∧
    ∀ k, k < (1 : U32).toNat → StateWritten (oneState cfgB) k ∧
      Memory.read (oneState cfgOneLane).sb k = Memory.read (oneState cfgB).sb k :=
  ⟨by decide, by decide, rfl, rfl, noReset_idle cfgB, noReset_idle cfgOneLane, by decide, by decide, rfl, rfl,
    fun k hk => ⟨written_oneState _ k hk, rfl⟩⟩

theorem witness_FilterFaultsOnAnUnwrittenEntry :
    (oneState cfgB).job = none ∧ NoReset (oneState cfgB) ∧ (1 : U32) ≠ 0 ∧ (2 : U32).toNat ≤ (oneState cfgB).cfg.bufDepth ∧
    ∃ k, k < (2 : U32).toNat ∧ ¬ StateWritten (oneState cfgB) k :=
  ⟨rfl, noReset_idle cfgB, by decide, by decide, 1, by decide, fun h => nomatch h⟩

/-- A state outside part 3, a byte that is not the last, and the last. -/
theorem witness_ReadySinkTakesTheOfferedByte :
    (CoreInv filling ∧ ∀ cmd k, filling.job ≠ some ⟨cmd, .emit k⟩) ∧
    (CoreInv (emitting 2 0) ∧ (emitting 2 0).job = some ⟨.iter 2 1, .emit 0⟩ ∧
      Memory.read (emitting 2 0).ob 0 = some (filterOne cfgB 2) ∧ (emitting 2 0).inputs.rst = false ∧
      (emitting 2 0).inputs.sampleReady = true ∧ 0 + 1 < (LongCommand.iter 2 1).count) ∧
    (CoreInv (emitting 2 1) ∧ (emitting 2 1).job = some ⟨.iter 2 1, .emit 1⟩ ∧
      Memory.read (emitting 2 1).ob 1 = some (filterOne cfgB 4) ∧ (emitting 2 1).inputs.rst = false ∧
      (emitting 2 1).inputs.sampleReady = true ∧ (LongCommand.iter 2 1).count = 1 + 1) :=
  ⟨⟨coreInv_filling, by intro _ _ h; cases h⟩, ⟨coreInv_emitting (by decide) (by decide), rfl, rfl, rfl, rfl, by decide⟩,
    coreInv_emitting (by decide) (by decide), rfl, rfl, rfl, rfl, by decide⟩

/-- Both clauses: quiet pins are a sink that is never ready. -/
theorem witness_StalledSinkHoldsTheCore :
    CoreInv { emitting 2 0 with inputs := Inputs.quiet } ∧
    ({ emitting 2 0 with inputs := Inputs.quiet } : State).job = some ⟨.iter 2 1, .emit 0⟩ ∧
    NoReset { emitting 2 0 with inputs := Inputs.quiet } ∧ SinkNeverReady { emitting 2 0 with inputs := Inputs.quiet } :=
  ⟨coreInv_emitting (n := 2) (taken := 0) (by decide) (by decide), rfl, ⟨rfl, fun _ h => nomatch h⟩, rfl, fun _ h => nomatch h⟩

/-- Two ITERs of one byte and of two. -/
def twoIters : State := issue cfgB [encode (.iter 1 1), encode (.iter 2 3)]

theorem witness_StreamOfIterations :
    twoIters.job = none ∧ NoReset twoIters ∧ SinkReady twoIters ∧ HostReady twoIters ∧
    (∀ np ∈ ([(1, 1), (2, 3)] : List (U32 × U32)), np.1.toNat ≤ twoIters.cfg.bufDepth ∧ np.2 ≠ 0) ∧
    twoIters.host = ([(1, 1), (2, 3)] : List (U32 × U32)).map (fun np => encode (.iter np.1 np.2)) :=
  ⟨rfl, ⟨rfl, fun _ h => nomatch h⟩, ⟨rfl, fun _ h => nomatch h⟩, ⟨rfl, fun _ h => nomatch h⟩,
    fun np h => by
      simp only [List.mem_cons, List.not_mem_nil, or_false] at h
      rcases h with rfl | rfl <;> exact ⟨by decide, by decide⟩, rfl⟩

theorem runEnded_of {t : State} (h : (t.host, State.busy t) = ([], false)) : RunEnded t :=
  ⟨congrArg Prod.fst h, congrArg Prod.snd h⟩

/-- STEP, a STEP with a reserved bit, which is rejected, and ITER 1, 1. -/
def stepThenIter : State := issue cfgB [encode .step, ⟨0x00000012, 0⟩, encode (.iter 1 1)]

theorem ends_stepThenIter : ∃ u, runFor 6 stepThenIter = .next u ∧ RunEnded u := by
  obtain ⟨u, h, e⟩ := next_of_after (f := fun t => (t.host, State.busy t)) (v := ([], false))
    (show after _ (runFor 6 stepThenIter) = _ by decide)
  exact ⟨u, h, runEnded_of e⟩

theorem witness_StreamLaw :
    stepThenIter.job = none ∧ NoReset stepThenIter ∧ ∃ u, runFor 6 stepThenIter = .next u ∧ RunEnded u :=
  ⟨rfl, noReset_idle cfgB, ends_stepThenIter⟩

/-- STEP emits nothing, the rejected command neither emits nor advances, and the ITER emits the sample of the second state, 4. -/
theorem test_streamRun : streamRun cfgB 1 stepThenIter.host = (4, [0x01]) := by decide

/-- The same commands, and a host and a sink that are not ready at first. -/
def slowSink : State :=
  { stepThenIter with inputs := Inputs.quiet, script := List.replicate 5 Inputs.quiet ++ [(idle cfgB).inputs] }

theorem witness_ObservationDoesNotDependOnTiming :
    CoreInv stepThenIter ∧ stepThenIter.job = none ∧ SameButPins stepThenIter slowSink ∧ NoReset stepThenIter ∧ NoReset slowSink ∧
    (∃ u, runFor 6 stepThenIter = .next u ∧ RunEnded u) ∧ ∃ v, runFor 12 slowSink = .next v ∧ RunEnded v := by
  refine ⟨coreInv_idle cfgB, rfl, rfl, noReset_idle cfgB, ⟨rfl, by decide⟩, ends_stepThenIter, ?_⟩
  obtain ⟨v, h, e⟩ := next_of_after (f := fun t => (t.host, State.busy t)) (v := ([], false))
    (show after _ (runFor 12 slowSink) = _ by decide)
  exact ⟨v, h, runEnded_of e⟩

theorem witness_IterNeverFaults : CoreInv (emitting 2 0) ∧ (emitting 2 0).job = some ⟨.iter 2 1, .emit 0⟩ :=
  ⟨coreInv_emitting (by decide) (by decide), rfl⟩

theorem witness_OnlyReturningCommandsWriteResult :
    ∃ t, step (issue cfgB [⟨2, 0⟩]) = .next t ∧ t.result ≠ (issue cfgB [⟨2, 0⟩]).result := by
  obtain ⟨t, h, e⟩ := next_of_after (f := State.result) (v := 2) (show after _ (step (issue cfgB [⟨2, 0⟩])) = _ by decide)
  exact ⟨t, h, by rw [e]; decide⟩

theorem witness_OnlyTheGeneratorWritesS : CoreInv filling ∧ ∃ t, step filling = .next t ∧ t.S ≠ filling.S := by
  obtain ⟨t, h, e⟩ := next_of_after (f := State.S) (v := 4) (show after _ (step filling) = _ by decide)
  exact ⟨coreInv_filling, t, h, by rw [e]; decide⟩

theorem witness_ErrIsWrittenOnlyAtAcceptance :
    ∃ t, step (issue cfgB [⟨0xC, 0⟩]) = .next t ∧ t.err ≠ (issue cfgB [⟨0xC, 0⟩]).err := by
  obtain ⟨t, h, e⟩ := next_of_after (f := State.err) (v := .illegalOp) (show after _ (step (issue cfgB [⟨0xC, 0⟩])) = _ by decide)
  exact ⟨t, h, by rw [e]; decide⟩

/-- An advance, an SBWR at the last entry, and a worker's step. -/
theorem witness_BuffersHaveOnlyTheirWriters :
    (CoreInv filling ∧ ∃ t, step filling = .next t ∧ filling.inputs.rst = false ∧ t.sb ≠ filling.sb) ∧
    (∃ t, step (issue cfgB [encode (.sbwr 7 5)]) = .next t ∧ (issue cfgB [encode (.sbwr 7 5)]).inputs.rst = false ∧
      t.sb ≠ (issue cfgB [encode (.sbwr 7 5)]).sb) ∧
    (CoreInv (filtering [(0, 2), (1, 4)]) ∧ ∃ t, step (filtering [(0, 2), (1, 4)]) = .next t ∧
      (filtering [(0, 2), (1, 4)]).inputs.rst = false ∧ t.ob ≠ (filtering [(0, 2), (1, 4)]).ob) := by
  refine ⟨⟨coreInv_filling, ?_⟩, ?_, coreInv_filtering _ (by decide) rfl, ?_⟩
  · obtain ⟨t, h, e⟩ := next_of_after (f := fun t => t.sb.length) (v := 2) (show after _ (step filling) = _ by decide)
    exact ⟨t, h, rfl, fun hs => by rw [hs] at e; exact absurd e (by decide)⟩
  · obtain ⟨t, h, e⟩ := next_of_after (f := fun t => t.sb.length) (v := 1)
      (show after _ (step (issue cfgB [encode (.sbwr 7 5)])) = _ by decide)
    exact ⟨t, h, rfl, fun hs => by rw [hs] at e; exact absurd e (by decide)⟩
  · obtain ⟨t, h, e⟩ := next_of_after (f := fun t => t.ob.length) (v := 2)
      (show after _ (step (filtering [(0, 2), (1, 4)])) = _ by decide)
    exact ⟨t, h, rfl, fun hs => by rw [hs] at e; exact absurd e (by decide)⟩

theorem witness_WrittenEntriesStayWritten :
    (∃ t, step (emitting 2 0) = .next t) ∧ (emitting 2 0).inputs.rst = false ∧
    (Memory.read (emitting 2 0).sb 1).isSome = true ∧ (Memory.read (emitting 2 0).ob 1).isSome = true :=
  ⟨⟨_, rfl⟩, rfl, rfl, rfl⟩

theorem witness_ConfigurationAndHistoryAreKept : CoreInv (emitting 2 0) ∧ ∃ t, step (emitting 2 0) = .next t :=
  ⟨coreInv_emitting (by decide) (by decide), _, rfl⟩

theorem witness_InvariantKeptByEveryStep : CoreInv (emitting 2 0) ∧ ∃ t, step (emitting 2 0) = .next t :=
  ⟨coreInv_emitting (by decide) (by decide), _, rfl⟩

/-- A step that makes progress in part 3, and one of a FILTER that reads an unwritten entry. -/
theorem witness_BusyStepsMakeProgress :
    (CoreInv (emitting 2 0) ∧ (emitting 2 0).inputs.rst = false ∧ State.busy (emitting 2 0) = true ∧
      (emitting 2 0).inputs.sampleReady = true) ∧
    (CoreInv (filtering [(0, 2)]) ∧ (filtering [(0, 2)]).inputs.rst = false ∧ State.busy (filtering [(0, 2)]) = true ∧
      ¬ ∃ cmd k, (filtering [(0, 2)]).job = some ⟨cmd, .emit k⟩) :=
  ⟨⟨coreInv_emitting (by decide) (by decide), rfl, rfl, rfl⟩, coreInv_filtering _ (by decide) rfl, rfl, rfl,
    fun ⟨_, _, h⟩ => nomatch h⟩

/-- A FILL in part 1 and an ITER in part 3. -/
theorem witness_FillAndIterComplete :
    (CoreInv filling ∧ filling.job = some ⟨.fill 2, .fill 1⟩ ∧ (∀ n p, LongCommand.fill 2 ≠ .filter n p) ∧ NoReset filling ∧
      SinkReady filling) ∧
    (CoreInv (emitting 2 0) ∧ (emitting 2 0).job = some ⟨.iter 2 1, .emit 0⟩ ∧ (∀ n p, LongCommand.iter 2 1 ≠ .filter n p) ∧
      NoReset (emitting 2 0) ∧ SinkReady (emitting 2 0)) :=
  ⟨⟨coreInv_filling, rfl, (by intro _ _ h; cases h), noReset_idle cfgB, sinkReady_idle cfgB⟩,
    coreInv_emitting (by decide) (by decide), rfl, (by intro _ _ h; cases h), noReset_idle cfgB, sinkReady_idle cfgB⟩

/-- The ranges of R73 at their last value and the first beyond. -/
theorem witness_AssembledSourceDecodes :
    (2 ^ 64 - 1 < 2 ^ 64 ∧ ¬(2 ^ 64 < 2 ^ 64)) ∧ (2 ^ 32 - 1 < 2 ^ 32 ∧ ¬(2 ^ 32 < 2 ^ 32)) ∧ ((7 ≤ 7 ∧ 255 ≤ 255) ∧ ¬(8 ≤ 7 ∧ 255 ≤ 255)) ∧
    (2 ^ 20 - 1 < 2 ^ 20 ∧ ¬(2 ^ 20 < 2 ^ 20)) := by decide

end Sys2Proof.Tests
end

section
/-! Scope (00_scope.md R8): the legal parameters, and what `Config.build` answers inside and outside them. -/

namespace Sys2Proof

/-- The legal values of R8, as the numbers the spec writes. -/
def Config.Legal (coeff : Vector Int 64) (shift bufDepth lanes : Nat) : Prop :=
  absSum coeff ≤ 2 ^ 31 - 1 ∧ shift ≤ 31 ∧ 1 ≤ bufDepth ∧ bufDepth ≤ 2 ^ 20 ∧ 1 ≤ lanes

/-- Every field of a core's configuration is legal: the type carries the bounds. -/
theorem Config.legal (cfg : Config) : Config.Legal cfg.coeff cfg.shift.val cfg.bufDepth cfg.lanes :=
  ⟨cfg.coeff_bound, Nat.le_of_lt_succ cfg.shift.isLt, cfg.depth_pos, cfg.depth_le, cfg.lanes_pos⟩

/-- A configuration that was built holds the parameters it was built from. -/
theorem Config.fields_of_build {coeff : Vector Int 64} {shift bufDepth lanes : Nat} {cfg : Config}
    (h : Config.build coeff shift bufDepth lanes = .ok cfg) :
    cfg.coeff = coeff ∧ cfg.shift.val = shift ∧ cfg.bufDepth = bufDepth ∧ cfg.lanes = lanes := by
  unfold Config.build at h
  split_ifs at h
  cases h
  exact ⟨rfl, rfl, rfl, rfl⟩

/-- Legal parameters pass each of the four checks. -/
theorem Config.exists_build_of_legal {coeff : Vector Int 64} {shift bufDepth lanes : Nat}
    (h : Config.Legal coeff shift bufDepth lanes) : ∃ cfg, Config.build coeff shift bufDepth lanes = .ok cfg := by
  obtain ⟨hcoeff, hshift, hpos, hle, hlanes⟩ := h
  have hcoeff' : absSum coeff ≤ coeffLimit := hcoeff
  have hshift' : shift < 32 := Nat.lt_succ_of_le hshift
  have hdepth : 1 ≤ bufDepth ∧ bufDepth ≤ 1048576 := ⟨hpos, hle⟩
  simp [Config.build, hcoeff', hshift', hdepth, hlanes]

/-- A built configuration is legal (`Config.legal`) and holds the given parameters, so these were legal. -/
theorem Config.legal_of_build {coeff : Vector Int 64} {shift bufDepth lanes : Nat} {cfg : Config}
    (h : Config.build coeff shift bufDepth lanes = .ok cfg) : Config.Legal coeff shift bufDepth lanes := by
  obtain ⟨rfl, rfl, rfl, rfl⟩ := Config.fields_of_build h
  exact cfg.legal

/-- Parameters that are not legal are refused. -/
theorem Config.refused_of_not_legal {coeff : Vector Int 64} {shift bufDepth lanes : Nat}
    (h : ¬ Config.Legal coeff shift bufDepth lanes) : ∃ why, Config.build coeff shift bufDepth lanes = .error why := by
  cases hb : Config.build coeff shift bufDepth lanes with
  | ok cfg => exact absurd (Config.legal_of_build hb) h
  | error why => exact ⟨why, rfl⟩

/-- Settles O5: legal parameters are built with these values, the others are refused. -/
theorem configurationsAreBuiltOrRefused : Obligations.ConfigurationsAreBuiltOrRefused := by
  intro coeff shift bufDepth lanes
  refine ⟨fun legal => ?_, Config.refused_of_not_legal⟩
  obtain ⟨cfg, hb⟩ := Config.exists_build_of_legal legal
  exact ⟨cfg, hb, Config.fields_of_build hb⟩

end Sys2Proof
end

section
/-! The machine as a whole (10_state.md R20 to R27, R33, R34, R38): one inversion of the step, and from it which steps write
each register, the buffers and the sink's history. -/

namespace Sys2Proof.Machine

/-- How a step from `s` can answer `t`: the five events, each with the meaning that gives `t`. -/
inductive StepsTo (s t : State) : Prop where
  | reset (hr : s.inputs.rst = true) (ht : t = State.resetCore (State.clock s))
  | work (hr : s.inputs.rst = false) (job : Job) (hj : s.job = some job)
      (hw : workOn job s.inputs (State.clock s) = .next t)
  | idle (hr : s.inputs.rst = false) (hj : s.job = none) (ht : t = State.clock s)
  | accept (hr : s.inputs.rst = false) (hj : s.job = none) (c : Command) (hh : s.host.head? = some c) (i : Instr)
      (hd : decode c = .ok i) (he : eventOf s = .accept i) (hx : exec i (afterAcceptance s) = .next t)
  | reject (hr : s.inputs.rst = false) (hj : s.job = none) (code : ErrCode) (he : eventOf s = .reject code)
      (ht : t = State.raise code (afterAcceptance s))

theorem stepsTo_of_step {s t : State} (h : step s = .next t) : StepsTo s t := by
  rcases step_cases s with ⟨hr, e⟩ | ⟨hr, ⟨job, hj, e⟩ | ⟨hj, _, e⟩ | ⟨hj, c, cs, i, hh, hd, he, e⟩ |
    ⟨hj, c, cs, code, _, _, he, e⟩⟩ <;> rw [e] at h
  · cases h; exact .reset hr rfl
  · exact .work hr job hj h
  · cases h; exact .idle hr hj rfl
  · exact .accept hr hj c (by simp [hh]) i hd he h
  · cases h; exact .reject hr hj code he rfl

@[simp] theorem afterAcceptance_job (s : State) : (afterAcceptance s).job = s.job := rfl

/-! ### The command of a part that is running, in the states of the invariant -/

theorem fills_of_coreInv {s : State} {cmd : LongCommand} {k : Nat} (hi : CoreInv s) (hj : s.job = some ⟨cmd, .fill k⟩) :
    cmd.Fills := by
  obtain ⟨-, -, hjob⟩ := hi
  obtain ⟨-, -, hnot, -⟩ := hjob _ hj
  cases cmd with
  | fill n => exact .inl ⟨n, rfl⟩
  | filter n p => exact absurd rfl (hnot n p)
  | iter n p => exact .inr ⟨n, p, rfl⟩

theorem filters_of_coreInv {s : State} {cmd : LongCommand} {todo active : List Nat} (hi : CoreInv s)
    (hj : s.job = some ⟨cmd, .filter todo active⟩) : cmd.Filters := by
  obtain ⟨-, -, hjob⟩ := hi
  obtain ⟨-, -, hnot, -⟩ := hjob _ hj
  cases cmd with
  | fill n => exact absurd rfl (hnot n)
  | filter n p => exact .inl ⟨n, p, rfl⟩
  | iter n p => exact .inr ⟨n, p, rfl⟩

theorem emits_of_coreInv {s : State} {cmd : LongCommand} {k : Nat} (hi : CoreInv s) (hj : s.job = some ⟨cmd, .emit k⟩) :
    cmd.Emits := by
  obtain ⟨-, -, hjob⟩ := hi
  obtain ⟨-, -, hiter, -⟩ := hjob _ hj
  exact hiter

/-! ### The writers -/

/-- Settles O50: RESULT is no part of the sequencer, so only a meaning that answers a value, or reset, changes it. -/
theorem onlyReturningCommandsWriteResult : Obligations.OnlyReturningCommandsWriteResult := by
  intro s t h hne
  cases stepsTo_of_step h with
  | reset hr _ => exact .inl hr
  | work _ job _ hw =>
    obtain ⟨hresult, -⟩ := workOn_writes hw
    exact absurd hresult hne
  | idle _ _ ht => subst ht; exact absurd rfl hne
  | accept _ _ _ _ i _ he hx =>
    obtain ⟨-, -, -, hkept | hwriter⟩ := exec_writes hx
    · exact absurd hkept hne
    · rw [he]
      simpa using .inr hwriter
  | reject _ _ _ _ ht => subst ht; exact absurd rfl hne

/-- Settles O51: of a busy command's steps only an advance writes S, and of the meanings only those of SEED and STEP. -/
theorem onlyTheGeneratorWritesS : Obligations.OnlyTheGeneratorWritesS := by
  intro s t h hne
  cases stepsTo_of_step h with
  | reset hr ht => subst ht; exact .inl ⟨hr, rfl⟩
  | work _ job hj hw =>
    obtain ⟨-, -, ⟨cmd, k, rfl, hS, -⟩ | ⟨_, _, _, _, _, _, hS, -⟩ | ⟨_, _, _, _, _, _, hS, -⟩ | ⟨_, _, _, rfl⟩⟩ :=
      workOn_writes hw
    · exact .inr (.inr (.inr ⟨cmd, k, hj, hS, fun hi => fills_of_coreInv hi hj⟩))
    · exact absurd hS hne
    · exact absurd hS hne
    · exact absurd rfl hne
  | idle _ _ ht => subst ht; exact absurd rfl hne
  | accept _ _ _ _ i _ he hx =>
    obtain ⟨-, -, hS | ⟨rfl, hS⟩ | ⟨x, rfl, hS⟩, -⟩ := exec_writes hx
    · exact absurd hS hne
    · exact .inr (.inl ⟨he, hS⟩)
    · exact .inr (.inr (.inl ⟨x, he, hS⟩))
  | reject _ _ _ _ ht => subst ht; exact absurd rfl hne

/-- An advance keeps zero and nonzero states apart (R80): bits 62:0 move up, and with them zero the feedback is bit 63. -/
theorem next_eq_zero_iff (x : U64) : next x = 0 ↔ x = 0 := by
  refine ⟨fun h => ?_, fun h => by rw [h, next_zero]⟩
  have low : ∀ k, k < 63 → x.getLsbD k = false := fun k hk => by rw [← next_getLsbD_succ x hk, h]; simp
  have high : x.getLsbD 63 = false := by
    have h0 := next_getLsbD_zero x
    rw [h, low 62 (by decide), low 60 (by decide), low 59 (by decide)] at h0
    simpa using h0.symm
  apply BitVec.eq_of_getLsbD_eq
  intro k hk
  rcases Nat.lt_or_ge k 63 with hk63 | hk63
  · simpa using low k hk63
  · obtain rfl : k = 63 := by omega
    simpa using high

/-- Settles O33: of the writers of S left (R84, R85), each makes it `next(S)`. -/
theorem onlySeedAndResetChangeSz : Obligations.OnlySeedAndResetChangeSz := by
  intro s t h hr hseed
  by_cases hS : t.S = s.S
  · simp [State.sz, hS]
  · have hnext : t.S = next s.S := by
      rcases onlyTheGeneratorWritesS s t h hS with ⟨hrst, -⟩ | ⟨-, hstep⟩ | ⟨x, he, -⟩ | ⟨_, _, -, hadvance, -⟩
      · rw [hr] at hrst; cases hrst
      · exact hstep
      · exact absurd he (hseed x)
      · exact hadvance
    rw [State.sz, State.sz, Bool.eq_iff_iff, beq_iff_eq, beq_iff_eq, hnext]
    exact next_eq_zero_iff s.S

/-- Settles O52: a busy command's steps keep ERR (`workOn_writes`), and an idle step keeps all but the pins. -/
theorem errIsWrittenOnlyAtAcceptance : Obligations.ErrIsWrittenOnlyAtAcceptance := by
  intro s t h hne
  have hidle : s.job = none → State.busy s = false := fun hj => by simp [State.busy, hj]
  cases stepsTo_of_step h with
  | reset hr _ => exact .inl hr
  | work _ job _ hw =>
    obtain ⟨-, herr, -⟩ := workOn_writes hw
    exact absurd herr hne
  | idle _ _ ht => subst ht; exact absurd rfl hne
  | accept _ hj _ _ i _ he _ => exact .inr ⟨hidle hj, .inl ⟨i, he⟩⟩
  | reject _ hj code he ht => subst ht; exact .inr ⟨hidle hj, .inr ⟨code, he, rfl⟩⟩

/-- A step that changes SB is an advance or accepts SBWR, and writes one entry (R33, R85, R119). -/
theorem sb_writers {s t : State} (h : step s = .next t) (hr : s.inputs.rst = false) (hne : t.sb ≠ s.sb) :
    (∃ cmd done, s.job = some ⟨cmd, .fill done⟩ ∧ t.sb = Memory.write s.sb done (next s.S)) ∨
    ∃ a x, eventOf s = .accept (.sbwr a x) ∧ t.sb = Memory.write s.sb a.toNat x := by
  cases stepsTo_of_step h with
  | reset hrst _ => rw [hr] at hrst; cases hrst
  | work _ job hj hw =>
    obtain ⟨-, -, ⟨cmd, k, rfl, -, hsb, -⟩ | ⟨_, _, _, _, _, _, -, hsb, -⟩ | ⟨_, _, _, _, _, _, -, hsb, -⟩ |
      ⟨_, _, _, rfl⟩⟩ := workOn_writes hw
    · exact .inl ⟨cmd, k, hj, hsb⟩
    · exact absurd hsb hne
    · exact absurd hsb hne
    · exact absurd rfl hne
  | idle _ _ ht => subst ht; exact absurd rfl hne
  | accept _ _ _ _ i _ he hx =>
    obtain ⟨-, hsb | ⟨a, x, rfl, hsb⟩, -⟩ := exec_writes hx
    · exact absurd hsb hne
    · exact .inr ⟨a, x, he, hsb⟩
  | reject _ _ _ _ ht => subst ht; exact absurd rfl hne

/-- A step that changes OB is a worker's, and writes the entry it picked (R34, R106). -/
theorem ob_writers {s t : State} (h : step s = .next t) (hr : s.inputs.rst = false) (hne : t.ob ≠ s.ob) :
    ∃ cmd todo active x, s.job = some ⟨cmd, .filter todo active⟩ ∧
      Memory.read s.sb (pickIndex s.cfg.lanes cmd.count cmd.chunks todo active s.inputs.worker) = some x ∧
      t.ob = Memory.write s.ob (pickIndex s.cfg.lanes cmd.count cmd.chunks todo active s.inputs.worker)
        (filterOne s.cfg x) := by
  cases stepsTo_of_step h with
  | reset hrst _ => rw [hr] at hrst; cases hrst
  | work _ job hj hw =>
    obtain ⟨-, -, ⟨_, _, _, -, -, hob, -⟩ | ⟨cmd, todo, active, x, rfl, hx, -, -, hob, -⟩ |
      ⟨_, _, _, _, _, _, -, -, hob, -⟩ | ⟨_, _, _, rfl⟩⟩ := workOn_writes hw
    · exact absurd hob hne
    · exact ⟨cmd, todo, active, x, hj, hx, hob⟩
    · exact absurd hob hne
    · exact absurd rfl hne
  | idle _ _ ht => subst ht; exact absurd rfl hne
  | accept _ _ _ _ i _ _ hx =>
    obtain ⟨hob, -⟩ := exec_writes hx
    exact absurd hob hne
  | reject _ _ _ _ ht => subst ht; exact absurd rfl hne

/-- Settles O53: each writer makes one `Memory.write`. -/
theorem buffersHaveOnlyTheirWriters : Obligations.BuffersHaveOnlyTheirWriters := by
  intro s t h hr
  constructor
  · intro hne
    rcases sb_writers h hr hne with ⟨cmd, k, hj, hsb⟩ | ⟨a, x, he, hsb⟩
    · exact .inl ⟨cmd, k, hj, fun hi => fills_of_coreInv hi hj, fun j => by rw [hsb, Memory.read_write]⟩
    · exact .inr ⟨a, x, he, fun j => by rw [hsb, Memory.read_write]⟩
  · intro hne
    obtain ⟨cmd, todo, active, x, hj, hx, hob⟩ := ob_writers h hr hne
    refine ⟨cmd, todo, active, hj, fun hi => filters_of_coreInv hi hj, fun j => ?_⟩
    rw [hob, Memory.read_write, hx, Option.map_some]

/-- No event writes the configuration (R38). -/
theorem step_keeps_cfg {s t : State} (h : step s = .next t) : t.cfg = s.cfg := by
  cases stepsTo_of_step h with
  | reset _ ht => subst ht; rfl
  | work _ job _ hw => exact (workOn_keeps_outside hw).2.1
  | idle _ _ ht => subst ht; rfl
  | accept _ _ _ _ i _ _ hx => exact (exec_keeps_outside hx).2.1
  | reject _ _ _ _ ht => subst ht; rfl

/-- Settles O55: of all events only a byte taken in part 3 reaches the history. -/
theorem configurationAndHistoryAreKept : Obligations.ConfigurationAndHistoryAreKept := by
  intro s t h
  refine ⟨step_keeps_cfg h, ?_⟩
  cases stepsTo_of_step h with
  | reset _ ht => subst ht; exact .inl rfl
  | work hr job hj hw =>
    obtain ⟨-, -, ⟨_, _, _, -, -, -, hsink⟩ | ⟨_, _, _, _, _, _, -, -, -, hsink⟩ |
      ⟨cmd, k, b, rfl, hb, hready, -, -, -, hsink⟩ | ⟨_, _, _, rfl⟩⟩ := workOn_writes hw
    · exact .inl hsink
    · exact .inl hsink
    · exact .inr ⟨cmd, k, b, hj, fun hi => emits_of_coreInv hi hj, hb, hready, hr, hsink⟩
    · exact .inl rfl
  | idle _ _ ht => subst ht; exact .inl rfl
  | accept _ _ _ _ i _ _ hx =>
    obtain ⟨-, -, hsink, -⟩ := exec_keeps_outside hx
    exact .inl hsink
  | reject _ _ _ _ ht => subst ht; exact .inl rfl

end Sys2Proof.Machine
end

section
/-! The command the sequencer holds (10_state.md R35): the decoder loses no bit of a long command, and no part of a command puts
another in its place. -/

namespace Sys2Proof

/-! ### A long command is the encoding of what it decodes to (R64, R65, R70) -/

/-- A command that decodes has an illegal opcode, or every bit its format does not use is zero. -/
theorem fields_of_decode {c : Command} {i : Instr} (h : decode c = .ok i) :
    i = .illegal c.word c.operand ∨
    ∃ f, formatOf (opField c.word) = some f ∧ rsvField c.word = 0 ∧ (f.usesAddr = false → addrField c.word = 0) ∧
      f.operandExcess c.operand = false ∧ i = instrOf c := by
  unfold decode at h
  split at h
  · cases h; exact .inl rfl
  · next f hf =>
    split_ifs at h with hrsv haddr hexcess
    cases h
    exact .inr ⟨f, hf, not_not.mp hrsv, fun hu => by_contra fun hne => haddr ⟨hu, hne⟩, by simpa using hexcess, rfl⟩

/-- A command with RSV and ADDR zero is its opcode and the two halves of its operand. -/
theorem command_of_fields {c : Command} {op : BitVec 4} {n p : U32} (hrsv : rsvField c.word = 0)
    (haddr : addrField c.word = 0) (hop : opField c.word = op) (hn : countField c.operand = n)
    (hp : chunksField c.operand = p) : ⟨plainWord op, countOperand n p⟩ = c := by
  subst hop hn hp
  have hword : plainWord (opField c.word) = c.word := by
    apply BitVec.eq_of_toNat_eq
    have := (opField c.word).isLt
    rw [word_eq_fields c.word, hrsv, haddr]
    simp [plainWord]
    omega
  have hoperand : countOperand (countField c.operand) (chunksField c.operand) = c.operand :=
    BitVec.eq_of_toNat_eq (by rw [countOperand_toNat, ← operand_eq_fields])
  rw [hword, hoperand]

/-- The opcodes and the operands of the three long commands (R67). -/
theorem fields_of_instrOf_long {c : Command} {cmd : Machine.LongCommand} (h : instrOf c = cmd.instr) :
    match cmd with
    | .fill n => opField c.word = 3 ∧ countField c.operand = n
    | .filter n p => opField c.word = 7 ∧ countField c.operand = n ∧ chunksField c.operand = p
    | .iter n p => opField c.word = 8 ∧ countField c.operand = n ∧ chunksField c.operand = p := by
  unfold instrOf at h
  split at h <;> cases cmd <;> cases h
  · next op => exact ⟨BitVec.eq_of_toNat_eq op, rfl⟩
  · next op => exact ⟨BitVec.eq_of_toNat_eq op, rfl, rfl⟩
  · next op => exact ⟨BitVec.eq_of_toNat_eq op, rfl, rfl⟩

/-- The long command a command decodes to gives back its word and its operand. -/
theorem encode_of_decode_long {c : Command} {cmd : Machine.LongCommand} (h : decode c = .ok cmd.instr) :
    encode cmd.instr = c := by
  rcases fields_of_decode h with hi | ⟨f, hf, hrsv, haddr, hexcess, hi⟩
  · cases cmd <;> cases hi
  · have hfields := fields_of_instrOf_long hi.symm
    cases cmd with
    | fill n =>
      obtain ⟨hop, hn⟩ := hfields
      obtain rfl : Format.c = f := Option.some.inj (show formatOf 3 = some f from hop ▸ hf)
      have hp : chunksField c.operand = 0 := bne_eq_false_iff_eq.mp hexcess
      exact command_of_fields hrsv (haddr rfl) hop hn hp
    | filter n p =>
      obtain ⟨hop, hn, hp⟩ := hfields
      obtain rfl : Format.cp = f := Option.some.inj (show formatOf 7 = some f from hop ▸ hf)
      exact command_of_fields hrsv (haddr rfl) hop hn hp
    | iter n p =>
      obtain ⟨hop, hn, hp⟩ := hfields
      obtain rfl : Format.cp = f := Option.some.inj (show formatOf 8 = some f from hop ▸ hf)
      exact command_of_fields hrsv (haddr rfl) hop hn hp

end Sys2Proof

namespace Sys2Proof.Machine

/-! ### The parts of a command hold that command -/

theorem command_of_emitJob {cmd : LongCommand} {job : Job} (h : emitJob cmd = some job) : job.command = cmd := by
  unfold emitJob at h
  split at h <;> cases h
  rfl

theorem command_of_afterFilterJob {cmd : LongCommand} {job : Job} (h : afterFilterJob cmd = some job) :
    job.command = cmd := by
  cases cmd with
  | fill => cases h
  | filter => cases h
  | iter n p => exact command_of_emitJob h

theorem command_of_filterJob {cmd : LongCommand} {job : Job} (h : filterJob cmd = some job) : job.command = cmd := by
  unfold filterJob at h
  split at h <;> cases h
  rfl

theorem command_of_afterFillJob {cmd : LongCommand} {job : Job} (h : afterFillJob cmd = some job) :
    job.command = cmd := by
  cases cmd with
  | fill => cases h
  | filter => cases h
  | iter n p => exact command_of_filterJob h

theorem command_of_fillJob {cmd : LongCommand} {job : Job} (h : fillJob cmd = some job) : job.command = cmd := by
  unfold fillJob at h
  split at h <;> cases h
  rfl

/-- A step of a busy command leaves no other command busy (R35). -/
theorem workOn_keeps_command {job : Job} {inputs : Inputs} {s t : State} (h : workOn job inputs s = .next t)
    (hj : s.job = some job) : ∀ later, t.job = some later → later.command = job.command := by
  obtain ⟨cmd, work⟩ := job
  intro later hlater
  cases work with
  | fill k =>
    rw [workOn_fill] at h
    cases h
    rw [State.setJob_job, nextFillJob] at hlater
    split at hlater
    · cases hlater; rfl
    · exact command_of_afterFillJob hlater
  | filter todo active =>
    rw [workOn_filter, filterAdvance_eq] at h
    split at h <;> cases h
    rw [State.setJob_job, nextFilterJob] at hlater
    split at hlater
    · exact command_of_afterFilterJob hlater
    · cases hlater; rfl
  | emit k =>
    rw [workOn_emit, emitAdvance_eq] at h
    split at h
    · cases h
    split at h <;> cases h
    · rw [State.setJob_job, nextEmitJob] at hlater
      split at hlater <;> cases hlater
      rfl
    · rw [hj] at hlater; cases hlater; rfl

/-- The job a long command begins with at its acceptance (R85, R110, R113). -/
def startJob : LongCommand → Option Job
  | .fill n => fillJob (.fill n)
  | .filter n p => filterJob (.filter n p)
  | .iter n p => fillJob (.iter n p)

theorem command_of_startJob {cmd : LongCommand} {job : Job} (h : startJob cmd = some job) : job.command = cmd := by
  cases cmd with
  | fill n => exact command_of_fillJob h
  | filter n p => exact command_of_filterJob h
  | iter n p => exact command_of_fillJob h

/-- What a meaning makes of the sequencer: nothing, or the start of the long command it is the meaning of, whose checks passed (R128). -/
theorem exec_job {i : Instr} {s t : State} (h : exec i s = .next t) :
    t.job = s.job ∨
    ∃ cmd : LongCommand, i = cmd.instr ∧ cmd.count ≤ s.cfg.bufDepth ∧ 1 ≤ cmd.chunks ∧ t.job = startJob cmd := by
  cases i with
  | fill n =>
    rw [exec_fill] at h
    rcases withCount_cases n s _ with ⟨_, e⟩ | ⟨hn, e⟩ <;> rw [e] at h <;> cases h
    · exact .inl rfl
    · exact .inr ⟨.fill n, rfl, hn, le_refl 1, rfl⟩
  | filter n p =>
    rw [exec_filter] at h
    rcases withCountAndChunks_cases n p s _ with ⟨_, e⟩ | ⟨_, _, e⟩ | ⟨hp, hn, e⟩ <;> rw [e] at h <;> cases h
    · exact .inl rfl
    · exact .inl rfl
    · exact .inr ⟨.filter n p, rfl, hn, BitVec.toNat_pos_of_ne_zero hp, rfl⟩
  | iter n p =>
    rw [exec_iter] at h
    rcases withCountAndChunks_cases n p s _ with ⟨_, e⟩ | ⟨_, _, e⟩ | ⟨hp, hn, e⟩ <;> rw [e] at h <;> cases h
    · exact .inl rfl
    · exact .inl rfl
    · exact .inr ⟨.iter n p, rfl, hn, BitVec.toNat_pos_of_ne_zero hp, rfl⟩
  | sbwr a x =>
    rw [exec_sbwr] at h
    rcases withEntry_cases a s _ with ⟨_, e⟩ | ⟨_, e⟩ <;> rw [e] at h <;> cases h <;> exact .inl rfl
  | sbrd a =>
    rw [exec_sbrd] at h
    rcases withEntry_cases a s _ with ⟨_, e⟩ | ⟨_, e⟩ <;> rw [e] at h
    · cases h; exact .inl rfl
    · split at h <;> cases h
      exact .inl rfl
  | obrd a =>
    rw [exec_obrd] at h
    rcases withEntry_cases a s _ with ⟨_, e⟩ | ⟨_, e⟩ <;> rw [e] at h
    · cases h; exact .inl rfl
    · split at h <;> cases h
      exact .inl rfl
  | _ =>
    simp only [exec_nop, exec_seed, exec_step, exec_lutrd, exec_acc, exec_filt1, exec_illegal,
      Host.Outcome.next.injEq] at h
    subst h
    exact .inl rfl

/-! ### The command held -/

theorem busy_iff (s : State) : State.busy s = true ↔ ∃ job, s.job = some job := Option.isSome_iff_exists

theorem heldCommand_of_job {s : State} {job : Job} (h : s.job = some job) :
    State.heldCommand s = some (encode job.command.instr) := by
  rw [State.heldCommand, h, Option.map_some]

/-- A busy step with no reset is the busy command's own. -/
theorem workOn_of_step {s t : State} {job : Job} (h : step s = .next t) (hr : s.inputs.rst = false)
    (hj : s.job = some job) : workOn job s.inputs (State.clock s) = .next t := by
  rw [← step_of_work hr hj, h]

/-- R35, R62: a busy command's step takes nothing from the host and holds the command it held. -/
theorem busy_step_holds {s t : State} (hr : s.inputs.rst = false) (hb : State.busy s = true) (h : step s = .next t) :
    t.host = s.host ∧ (State.busy t = true → State.heldCommand t = State.heldCommand s) := by
  obtain ⟨job, hj⟩ := (busy_iff s).mp hb
  have hw := workOn_of_step h hr hj
  obtain ⟨-, -, hhost⟩ := workOn_keeps_outside hw
  refine ⟨hhost, fun hbt => ?_⟩
  obtain ⟨later, hlater⟩ := (busy_iff t).mp hbt
  rw [heldCommand_of_job hlater, heldCommand_of_job hj, workOn_keeps_command hw hj later hlater]

/-- R35: a command accepted that leaves the core busy is the one held. -/
theorem acceptance_holds {s t : State} {c : Command} (hp : Presents s c) (h : step s = .next t)
    (hb : State.busy t = true) : State.heldCommand t = some c := by
  obtain ⟨hj, hr, -, hhead⟩ := hp
  obtain ⟨job, hjob⟩ := (busy_iff t).mp hb
  cases stepsTo_of_step h with
  | reset hrst _ => rw [hr] at hrst; cases hrst
  | work _ _ hbusy _ => rw [hj] at hbusy; cases hbusy
  | idle _ _ ht => rw [ht, State.clock_job, hj] at hjob; cases hjob
  | accept _ _ d hd' i hd _ hx =>
    obtain rfl : c = d := Option.some.inj (hhead ▸ hd')
    rcases exec_job hx with hkept | ⟨cmd, rfl, -, -, hstart⟩
    · rw [hkept, afterAcceptance_job, hj] at hjob; cases hjob
    · have hcmd := command_of_startJob (hstart ▸ hjob)
      rw [heldCommand_of_job hjob, hcmd, encode_of_decode_long hd]
  | reject _ _ _ _ ht => rw [ht, State.raise_job, afterAcceptance_job, hj] at hjob; cases hjob

/-- Settles O11: `cmd_ready` is NOT BUSY; the rest is `busy_step_holds` and `acceptance_holds`. -/
theorem busyCoreHoldsTheHost : Obligations.BusyCoreHoldsTheHost := by
  refine ⟨fun s hb => ?_, fun s t => busy_step_holds, fun s t c => acceptance_holds⟩
  rw [State.cmdReady, hb]
  rfl

end Sys2Proof.Machine
end

section
/-! The invariant (10_state.md R35, R36, 20_memory.md R42, R43, 43_dispatcher.md R106, R109): it holds at reset, each part of a long
command keeps it, and each part ends in the state the next one begins with. -/

namespace Sys2Proof.Machine

/-- With both buffers in canonical form an idle core meets the invariant. -/
theorem coreInv_of_idle {s : State} (hsb : Memory.wf s.cfg.bufDepth s.sb = true)
    (hob : Memory.wf s.cfg.bufDepth s.ob = true) (hj : s.job = none) : CoreInv s :=
  ⟨hsb, hob, fun job h => by rw [hj] at h; cases h⟩

theorem coreInv_resetIn (cfg : Config) : CoreInv (State.resetIn cfg) :=
  coreInv_of_idle (Memory.wf_nil _) (Memory.wf_nil _) rfl

/-- Settles O56: at reset the buffers are empty and nothing is busy. -/
theorem invariantAtReset : Obligations.InvariantAtReset := ⟨coreInv_resetIn _, coreInv_resetIn⟩

/-! ### The parts begin (R85, R110, R113, R114) -/

/-- `JobInv` of the job a part begins with, if it is not done at once. -/
def JobsInv (s : State) (job : Option Job) : Prop := ∀ j, job = some j → JobInv s j

theorem jobsInv_none (s : State) : JobsInv s none := nofun

theorem jobsInv_some {s : State} {job : Job} (h : JobInv s job) : JobsInv s (some job) := by
  rintro j ⟨⟩
  exact h

theorem coreInv_iff (s : State) :
    CoreInv s ↔ Memory.wf s.cfg.bufDepth s.sb = true ∧ Memory.wf s.cfg.bufDepth s.ob = true ∧ JobsInv s s.job := Iff.rfl

theorem jobsInv_fillJob {s : State} {cmd : LongCommand} (hcount : cmd.count ≤ s.cfg.bufDepth) (hchunks : 1 ≤ cmd.chunks)
    (hcmd : ∀ n p, cmd ≠ .filter n p) : JobsInv s (fillJob cmd) := by
  unfold fillJob
  split
  · exact jobsInv_none s
  · next hzero =>
    exact jobsInv_some ⟨hcount, hchunks, hcmd, Nat.pos_of_ne_zero hzero, nofun, nofun⟩

theorem jobsInv_filterJob {s : State} {cmd : LongCommand} (hcount : cmd.count ≤ s.cfg.bufDepth) (hchunks : 1 ≤ cmd.chunks)
    (hcmd : ∀ n, cmd ≠ .fill n) (hwritten : ∀ n p, cmd = .iter n p → ∀ k, k < cmd.count → StateWritten s k) :
    JobsInv s (filterJob cmd) := by
  unfold filterJob
  split
  · exact jobsInv_none s
  · next hzero =>
    refine jobsInv_some ⟨hcount, hchunks, hcmd, by simpa using hzero, List.nodup_range, by simp, ?_, hwritten,
      List.nodup_nil, Nat.zero_le _, ?_⟩
    · intro k hk hnot
      exact absurd (List.mem_range.mpr hk) hnot
    · intro c
      constructor
      · exact nofun
      · rintro ⟨⟨j, hj, hnot, -⟩, -⟩
        exact absurd (List.mem_range.mpr hj) hnot

theorem jobsInv_emitJob {s : State} {n p : U32} (hcount : n.toNat ≤ s.cfg.bufDepth) (hchunks : 1 ≤ p.toNat)
    (hfiltered : ∀ k, k < n.toNat → Filtered s k) : JobsInv s (emitJob (.iter n p)) := by
  unfold emitJob
  split
  · exact jobsInv_none s
  · next hzero => exact jobsInv_some ⟨hcount, hchunks, ⟨n, p, rfl⟩, Nat.pos_of_ne_zero hzero, hfiltered⟩

theorem jobsInv_startJob {s : State} {cmd : LongCommand} (hcount : cmd.count ≤ s.cfg.bufDepth)
    (hchunks : 1 ≤ cmd.chunks) : JobsInv s (startJob cmd) := by
  cases cmd with
  | fill n => exact jobsInv_fillJob hcount hchunks nofun
  | filter n p => exact jobsInv_filterJob hcount hchunks nofun nofun
  | iter n p => exact jobsInv_fillJob hcount hchunks nofun

/-! ### Acceptance -/

/-- The one meaning that writes a buffer, SBWR, writes below `BUF_DEPTH` (R119). -/
theorem exec_keeps_wf_sb {i : Instr} {s t : State} (hwf : Memory.wf s.cfg.bufDepth s.sb = true) (h : exec i s = .next t) :
    Memory.wf s.cfg.bufDepth t.sb = true := by
  obtain ⟨-, hsb | ⟨a, x, rfl, hsb⟩, -⟩ := exec_writes h
  · rw [hsb]; exact hwf
  · rw [exec_sbwr] at h
    rcases withEntry_cases a s _ with ⟨_, e⟩ | ⟨ha, _⟩
    · rw [e] at h; cases h; exact hwf
    · rw [hsb]; exact Memory.wf_write hwf ha x

theorem exec_keeps_coreInv {i : Instr} {s t : State} (hs : CoreInv s) (hj : s.job = none) (h : exec i s = .next t) :
    CoreInv t := by
  obtain ⟨hsb, hob, -⟩ := hs
  obtain ⟨-, hcfg, -⟩ := exec_keeps_outside h
  obtain ⟨hobt, -⟩ := exec_writes h
  refine (coreInv_iff t).mpr ⟨hcfg ▸ exec_keeps_wf_sb hsb h, by rw [hcfg, hobt]; exact hob, ?_⟩
  rcases exec_job h with hkept | ⟨cmd, -, hcount, hchunks, hstart⟩
  · rw [hkept, hj]; exact jobsInv_none t
  · rw [hstart]; exact jobsInv_startJob (hcfg ▸ hcount) hchunks

/-! ### Part 1 (R85) -/

/-- The state after an advance, before the sequencer moves on. -/
def advanced (k : Nat) (s : State) : State := State.writeSB k (next s.S) (State.setS (next s.S) s)

/-- After the advance that follows k others the first k + 1 entries are written. -/
theorem stateWritten_advanced {s : State} {k : Nat} (h : ∀ j, j < k → StateWritten s j) :
    ∀ j, j < k + 1 → StateWritten (advanced k s) j := by
  intro j hj
  rcases Nat.lt_succ_iff_lt_or_eq.mp hj with hlt | rfl
  · exact Memory.isSome_read_write s.sb k j (next s.S) (h j hlt)
  · simp [StateWritten, advanced]

theorem jobsInv_nextFillJob {s : State} {cmd : LongCommand} {k : Nat} (h : JobInv s ⟨cmd, .fill k⟩) :
    JobsInv (advanced k s) (nextFillJob cmd k) := by
  obtain ⟨hcount, hchunks, hcmd, hk, hwritten, -⟩ := h
  have hwritten' := stateWritten_advanced hwritten
  unfold nextFillJob
  split
  · next hlt =>
    exact jobsInv_some ⟨hcount, hchunks, hcmd, hlt, hwritten', fun _ => Memory.read_write_same s.sb k (next s.S)⟩
  · next hlast =>
    cases cmd with
    | fill n => exact jobsInv_none _
    | filter n p => exact absurd rfl (hcmd n p)
    | iter n p =>
      exact jobsInv_filterJob hcount hchunks nofun fun _ _ _ j hj => hwritten' j (Nat.lt_of_lt_of_le hj (Nat.not_lt.mp hlast))

/-! ### Part 2 (R106, R109) -/

/-- Chunk c is in progress: it has an index done and an index left (R109). -/
def InProgress (n p : Nat) (todo : List Nat) (c : Nat) : Prop :=
  (∃ j, j < n ∧ j ∉ todo ∧ chunkOf n p j = c) ∧ ∃ k ∈ todo, chunkOf n p k = c

/-- Processing index k puts its own chunk in progress, if an index of it is left, and leaves every other chunk as it was. -/
theorem inProgress_erase {n p k c : Nat} {todo : List Nat} (hnodup : todo.Nodup) (hkn : k < n) :
    InProgress n p (todo.erase k) c ↔
      (c = chunkOf n p k ∧ ∃ j ∈ todo.erase k, chunkOf n p j = chunkOf n p k) ∨
      (c ≠ chunkOf n p k ∧ InProgress n p todo c) := by
  have hmem : ∀ j, j ∈ todo.erase k ↔ j ≠ k ∧ j ∈ todo := fun j => hnodup.mem_erase_iff
  by_cases hc : c = chunkOf n p k
  · subst hc
    constructor
    · rintro ⟨-, hleft⟩
      exact .inl ⟨rfl, hleft⟩
    · rintro (⟨-, hleft⟩ | ⟨hne, -⟩)
      · exact ⟨⟨k, hkn, fun h => ((hmem k).mp h).1 rfl, rfl⟩, hleft⟩
      · exact absurd rfl hne
  · have hother : ∀ {j}, chunkOf n p j = c → (j ∈ todo.erase k ↔ j ∈ todo) := by
      intro j hj
      have hjk : j ≠ k := fun e => hc (by rw [← hj, e])
      simp [hmem, hjk]
    have hsame : InProgress n p (todo.erase k) c ↔ InProgress n p todo c := by
      constructor
      · rintro ⟨⟨i, hi, hdone, hci⟩, j, hj, hcj⟩
        exact ⟨⟨i, hi, (hother hci).not.mp hdone, hci⟩, j, (hother hcj).mp hj, hcj⟩
      · rintro ⟨⟨i, hi, hdone, hci⟩, j, hj, hcj⟩
        exact ⟨⟨i, hi, (hother hci).not.mpr hdone, hci⟩, j, (hother hcj).mpr hj, hcj⟩
    simp [hc, hsame]

theorem nodup_activeAfter {n p c : Nat} {rest active : List Nat} (h : active.Nodup) :
    (activeAfter n p c rest active).Nodup := by
  unfold activeAfter
  split_ifs with _ hc
  · exact h
  · exact List.nodup_cons.mpr ⟨by simpa using hc, h⟩
  · exact h.erase c

/-- A chunk is begun only on a free lane, so the chunks in progress stay no more than the lanes (R109). -/
theorem length_activeAfter_le {lanes n p c : Nat} {rest active : List Nat} (hlen : active.length ≤ lanes)
    (hc : c ∈ active ∨ active.length < lanes) : (activeAfter n p c rest active).length ≤ lanes := by
  unfold activeAfter
  split_ifs with _ hmem
  · exact hlen
  · rcases hc with hc | hfree
    · exact absurd (by simpa using hc) hmem
    · exact hfree
  · exact Nat.le_trans List.length_erase_le hlen

/-- Some lane may always go on: a lane is free, or a chunk in progress has an index left. -/
theorem laneChoices_ne_nil {lanes n p : Nat} {todo active : List Nat} (hlanes : 1 ≤ lanes) (htodo : todo ≠ [])
    (hactive : ∀ c, c ∈ active ↔ InProgress n p todo c) : laneChoices lanes n p todo active ≠ [] := by
  cases active with
  | nil =>
    obtain ⟨k, hk⟩ := List.exists_mem_of_ne_nil todo htodo
    exact List.ne_nil_of_mem ((mem_laneChoices lanes n p k todo []).mpr ⟨hk, .inr hlanes⟩)
  | cons c cs =>
    obtain ⟨-, k, hk, hc⟩ := (hactive c).mp List.mem_cons_self
    refine List.ne_nil_of_mem ((mem_laneChoices lanes n p k todo (c :: cs)).mpr ⟨hk, .inl ?_⟩)
    rw [hc]
    exact List.mem_cons_self

/-- A filtered entry stays filtered when a worker writes, and the entry it writes becomes so (R106). -/
theorem filtered_writeOB {s : State} {j k : Nat} {x : U64} (hx : Memory.read s.sb k = some x)
    (h : j ≠ k → Filtered s j) : Filtered (State.writeOB k (filterOne s.cfg x) s) j := by
  by_cases hjk : j = k
  · subst hjk
    exact ⟨x, hx, Memory.read_write_same s.ob j _⟩
  · obtain ⟨y, hy, hob⟩ := h hjk
    exact ⟨y, hy, by rw [State.writeOB_ob, Memory.read_write_other s.ob _ hjk, hob, State.writeOB_cfg]⟩

theorem jobsInv_nextFilterJob {s : State} {cmd : LongCommand} {todo active : List Nat} {choice : Nat} {x : U64}
    (h : JobInv s ⟨cmd, .filter todo active⟩)
    (hx : Memory.read s.sb (pickIndex s.cfg.lanes cmd.count cmd.chunks todo active choice) = some x) :
    JobsInv (State.writeOB (pickIndex s.cfg.lanes cmd.count cmd.chunks todo active choice) (filterOne s.cfg x) s)
      (nextFilterJob cmd todo active (pickIndex s.cfg.lanes cmd.count cmd.chunks todo active choice)) := by
  obtain ⟨hcount, hchunks, hcmd, htodo, hnodup, hbelow, hdone, hwritten, hactiveNodup, hlen, hactive⟩ := h
  have hpick := pickIndex_allowed s.cfg.lanes cmd.count cmd.chunks choice
    (laneChoices_ne_nil s.cfg.lanes_pos htodo hactive)
  generalize pickIndex s.cfg.lanes cmd.count cmd.chunks todo active choice = k at hx hpick ⊢
  obtain ⟨hk, hlane⟩ := (mem_laneChoices _ _ _ _ _ _).mp hpick
  have hmem : ∀ j, j ∈ todo.erase k ↔ j ≠ k ∧ j ∈ todo := fun j => hnodup.mem_erase_iff
  have hfiltered : ∀ j, j < cmd.count → j ∉ todo.erase k → Filtered (State.writeOB k (filterOne s.cfg x) s) j := by
    intro j hj hnot
    exact filtered_writeOB hx fun hjk => hdone j hj fun hin => hnot ((hmem j).mpr ⟨hjk, hin⟩)
  unfold nextFilterJob
  split
  · next hempty =>
    rw [List.isEmpty_iff] at hempty
    cases cmd with
    | fill n => exact jobsInv_none _
    | filter n p => exact jobsInv_none _
    | iter n p => exact jobsInv_emitJob hcount hchunks fun j hj => hfiltered j hj (by simp [hempty])
  · next hrest =>
    refine jobsInv_some ⟨hcount, hchunks, hcmd, by simpa using hrest, hnodup.erase k,
      fun j hj => hbelow j (List.mem_of_mem_erase hj), hfiltered, hwritten, nodup_activeAfter hactiveNodup,
      length_activeAfter_le hlen hlane, fun c => ?_⟩
    rw [mem_activeAfter hactiveNodup, hactive c]
    exact (inProgress_erase hnodup (hbelow k hk)).symm

/-! ### Part 3 (R114) -/

theorem jobsInv_nextEmitJob {s : State} {cmd : LongCommand} {k : Nat} (h : JobInv s ⟨cmd, .emit k⟩) :
    JobsInv s (nextEmitJob cmd k) := by
  obtain ⟨hcount, hchunks, hcmd, -, hfiltered⟩ := h
  unfold nextEmitJob
  split
  · next hlt => exact jobsInv_some ⟨hcount, hchunks, hcmd, hlt, hfiltered⟩
  · exact jobsInv_none s

/-! ### Every step -/

theorem workOn_keeps_coreInv {job : Job} {inputs : Inputs} {s t : State} (hs : CoreInv s) (hj : s.job = some job)
    (h : workOn job inputs s = .next t) : CoreInv t := by
  obtain ⟨hsb, hob, hjobs⟩ := hs
  have hjob := hjobs job hj
  obtain ⟨cmd, work⟩ := job
  cases work with
  | fill k =>
    rw [workOn_fill] at h
    cases h
    have ⟨hcount, _, _, hk, _⟩ := hjob
    exact ⟨Memory.wf_write hsb (Nat.lt_of_lt_of_le hk hcount) _, hob, jobsInv_nextFillJob hjob⟩
  | filter todo active =>
    rw [workOn_filter, filterAdvance_eq] at h
    split at h
    · cases h
    · next x hx =>
      cases h
      exact ⟨hsb, Memory.wf_write hob (Memory.lt_of_read hsb hx) _, jobsInv_nextFilterJob hjob hx⟩
  | emit k =>
    rw [workOn_emit, emitAdvance_eq] at h
    split at h
    · cases h
    split at h <;> cases h
    · exact ⟨hsb, hob, jobsInv_nextEmitJob hjob⟩
    · exact ⟨hsb, hob, hjobs⟩

/-- The pins, the step count, the host's list and ERR take no part in the invariant. -/
theorem coreInv_clock {s : State} (h : CoreInv s) : CoreInv (State.clock s) := h

theorem coreInv_afterAcceptance {s : State} (h : CoreInv s) : CoreInv (afterAcceptance s) := h

theorem coreInv_raise {s : State} (code : ErrCode) (h : CoreInv s) : CoreInv (State.raise code s) := h

/-- Settles O57: reset empties the buffers, a busy command goes on or passes to its next part, and a command accepted starts its first
part or none. -/
theorem invariantKeptByEveryStep : Obligations.InvariantKeptByEveryStep := by
  intro s t hs h
  cases stepsTo_of_step h with
  | reset _ ht => subst ht; exact coreInv_of_idle (Memory.wf_nil _) (Memory.wf_nil _) rfl
  | work _ job hj hw => exact workOn_keeps_coreInv (coreInv_clock hs) hj hw
  | idle _ _ ht => subst ht; exact coreInv_clock hs
  | accept _ hj _ _ i _ _ hx => exact exec_keeps_coreInv (coreInv_afterAcceptance hs) hj hx
  | reject _ _ code _ ht => subst ht; exact coreInv_raise code (coreInv_afterAcceptance hs)

end Sys2Proof.Machine
end

section
/-! What the ports and STATUS show (10_state.md R21 to R28, R40), at reset too (R39). -/

namespace Sys2Proof.Machine

/-- The fields of a word put together as STATUS is (R23): what was put in bits 7:4, 3:2, 1 and 0 is read there, and no other
bit is set. -/
theorem fields_of_statusWord (err : BitVec 4) (phase : BitVec 2) (sz busy : Bool) :
    let word : U32 := (err.setWidth 32 <<< 4) ||| (phase.setWidth 32 <<< 2) |||
      ((BitVec.ofBool sz).setWidth 32 <<< 1) ||| (BitVec.ofBool busy).setWidth 32
    word.getLsbD 0 = busy ∧ word.getLsbD 1 = sz ∧ word.extractLsb' 2 2 = phase ∧ word.extractLsb' 4 4 = err ∧
      word.extractLsb' 8 24 = 0 := by
  intro word
  refine ⟨?_, ?_, ?_, ?_, ?_⟩
  · simp [word]
  · simp [word]
  · ext i hi
    interval_cases i <;> simp [word]
  · ext i hi
    have hphase : phase.getLsbD (4 + i - 2) = false := BitVec.getLsbD_of_ge phase _ (by omega)
    simp [word, hphase, hi, show 4 + i < 32 by omega]
  · ext i hi
    have herr : err.getLsbD (8 + i - 4) = false := BitVec.getLsbD_of_ge err _ (by omega)
    have hphase : phase.getLsbD (8 + i - 2) = false := BitVec.getLsbD_of_ge phase _ (by omega)
    simp [word, herr, hphase]

theorem errNumber_le (code : ErrCode) : (errNumber code).toNat ≤ 4 := by cases code <;> decide

theorem phase_ne_zero (work : Work) : Work.phase work ≠ 0 := by cases work <;> simp [Work.phase]

/-- PHASE is 0 exactly when no command is busy (R26). -/
theorem phase_eq_zero_iff (s : State) : State.phase s = 0 ↔ State.busy s = false := by
  unfold State.phase State.busy
  cases s.job with
  | none => simp
  | some job => exact iff_of_false (phase_ne_zero job.work) (by simp)

/-- Settles O13: STATUS is put together from its fields. -/
theorem statusFields : Obligations.StatusFields := by
  intro s
  obtain ⟨hbusy, hsz, hphase, herr, hzero⟩ :=
    fields_of_statusWord (errNumber s.err) (State.phase s) (State.sz s) (State.busy s)
  exact ⟨hbusy, hsz, hphase, herr, hzero, errNumber_le s.err, rfl, rfl, rfl, rfl, rfl, phase_eq_zero_iff s⟩

/-- An idle core with ERR 0 and S not 0 shows STATUS 0 (R23). -/
theorem status_eq_zero {s : State} (herr : s.err = .ok) (hj : s.job = none) (hS : s.S ≠ 0) : State.status s = 0 := by
  have hsz : State.sz s = false := beq_eq_false_iff_ne.mpr hS
  simp [State.status, State.phase, State.busy, errNumber, herr, hj, hsz]

/-- Settles O10: each field of the reset state is written out in `State.resetIn`. -/
theorem resetValues : Obligations.ResetValues := by
  refine ⟨rfl, fun cfg => ?_⟩
  have hS : (1 : U64) ≠ 0 := by decide
  exact ⟨rfl, rfl, rfl, by simp [State.sz], rfl, rfl, status_eq_zero rfl rfl hS, Memory.read_nil, Memory.read_nil,
    rfl, rfl, rfl, rfl, rfl⟩

/-- Settles O14: each port is a function of the registers. -/
theorem portsShowTheRegisters : Obligations.PortsShowTheRegisters := by
  intro s
  refine ⟨fun hidle => ?_, rfl, rfl, fun hr => ?_⟩
  · simp [State.stateQ, hidle]
  · simp [State.cmdReady, hr]

end Sys2Proof.Machine
end

section
/-! Written entries (20_memory.md R45): no step but reset takes one away, and part 2 of a long command that meets an unwritten one ends
there (43_dispatcher.md R106, R111). -/

namespace Sys2Proof.Machine

/-- Settles O54: a buffer's writers each make one `Memory.write`, which takes no entry away. -/
theorem writtenEntriesStayWritten : Obligations.WrittenEntriesStayWritten := by
  intro s t h hr k
  constructor
  · intro hk
    by_cases hsb : t.sb = s.sb
    · rw [hsb]; exact hk
    · rcases sb_writers h hr hsb with ⟨_, done, _, hw⟩ | ⟨a, x, _, hw⟩
      · rw [hw]; exact Memory.isSome_read_write s.sb done k _ hk
      · rw [hw]; exact Memory.isSome_read_write s.sb a.toNat k x hk
  · intro hk
    by_cases hob : t.ob = s.ob
    · rw [hob]; exact hk
    · obtain ⟨_, _, _, x, _, _, hw⟩ := ob_writers h hr hob
      rw [hw]; exact Memory.isSome_read_write s.ob _ k _ hk

/-! ### A worker's step at the entry it picks -/

theorem stateWritten_congr {s t : State} (h : t.sb = s.sb) (k : Nat) : StateWritten t k ↔ StateWritten s k := by
  rw [StateWritten, StateWritten, h]

/-- A worker picks an index that is left: the step is the fault of R45 there, or the entry was written and the sequencer goes on
without it (R106). -/
theorem filter_step_cases {s : State} {cmd : LongCommand} {todo active : List Nat} (hr : s.inputs.rst = false)
    (hj : s.job = some ⟨cmd, .filter todo active⟩) (htodo : todo ≠ []) :
    ∃ k ∈ todo, (¬ StateWritten s k ∧ step s = .fault (.unwrittenState k)) ∨
      (StateWritten s k ∧ ∃ t, step s = .next t ∧ t.sb = s.sb ∧ t.job = nextFilterJob cmd todo active k) := by
  refine ⟨_, pickIndex_mem s.cfg.lanes cmd.count cmd.chunks active s.inputs.worker htodo, ?_⟩
  rw [step_of_work hr hj, workOn_filter, filterAdvance_eq, State.clock_cfg, State.clock_sb, StateWritten]
  cases Memory.read s.sb (pickIndex s.cfg.lanes cmd.count cmd.chunks todo active s.inputs.worker) with
  | none => exact .inl ⟨nofun, rfl⟩
  | some x => exact .inr ⟨rfl, _, rfl, rfl, rfl⟩

/-- While an index is left, the workers go on with those left. -/
theorem nextFilterJob_of_left {cmd : LongCommand} {todo active : List Nat} {j k : Nat} (h : j ∈ todo.erase k) :
    ∃ active', nextFilterJob cmd todo active k = some ⟨cmd, .filter (todo.erase k) active'⟩ := by
  have hne : (todo.erase k).isEmpty = false := List.isEmpty_eq_false_iff.mpr (List.ne_nil_of_mem h)
  exact ⟨_, by rw [nextFilterJob, hne]; rfl⟩

/-- With an unwritten entry left, part 2 ends in the fault at one of those left, whatever the workers' order: an entry filtered was
written, so each step without the fault leaves the unwritten one among fewer. -/
theorem filter_run_faults {steps : Nat} {s : State} {cmd : LongCommand} {todo active : List Nat} {j : Nat}
    (hr : NoReset s) (hj : s.job = some ⟨cmd, .filter todo active⟩) (hsteps : todo.length = steps) (hleft : j ∈ todo)
    (hunwritten : ¬ StateWritten s j) :
    ∃ a ∈ todo, ¬ StateWritten s a ∧ runFor steps s = .fault (.unwrittenState a) := by
  induction steps generalizing s todo active with
  | zero => exact absurd (List.eq_nil_of_length_eq_zero hsteps) (List.ne_nil_of_mem hleft)
  | succ steps ih =>
    obtain ⟨k, hk, ⟨hfault, hstep⟩ | ⟨hwritten, t, hstep, hsb, hjob⟩⟩ :=
      filter_step_cases hr.1 hj (List.ne_nil_of_mem hleft)
    · exact ⟨k, hk, hfault, runFor_succ_fault hstep steps⟩
    · have hjk : j ≠ k := fun e => hunwritten (e ▸ hwritten)
      have hleft' : j ∈ todo.erase k := (List.mem_erase_of_ne hjk).mpr hleft
      obtain ⟨active', hnext⟩ := nextFilterJob_of_left (cmd := cmd) (active := active) hleft'
      have hlength : (todo.erase k).length = steps := by rw [List.length_erase_of_mem hk, hsteps, Nat.add_sub_cancel]
      obtain ⟨a, ha, haUnwritten, hrun⟩ := ih (hr.step hstep) (hjob.trans hnext) hlength hleft'
        ((stateWritten_congr hsb j).not.mpr hunwritten)
      exact ⟨a, List.mem_of_mem_erase ha, (stateWritten_congr hsb a).not.mp haUnwritten, by rw [runFor_succ hstep, hrun]⟩

/-! ### FILTER from its acceptance (R110) -/

theorem filterJob_of_count_pos {cmd : LongCommand} (h : 0 < cmd.count) :
    filterJob cmd = some ⟨cmd, .filter (List.range cmd.count) []⟩ := if_neg h.ne'

theorem exec_filter_accepts {n p : U32} {s : State} (hp : p ≠ 0) (hn : n.toNat ≤ s.cfg.bufDepth) :
    exec (.filter n p) s = .next (State.setJob (filterJob (.filter n p)) (State.accept s)) := by
  rw [exec_filter, withCountAndChunks_accepts hp hn]

/-- Settles O43: part 2 begins with every index below N left, the unwritten entry's too (`filter_run_faults`). -/
theorem filterFaultsOnAnUnwrittenEntry : Obligations.FilterFaultsOnAnUnwrittenEntry := by
  rintro n p s - hr hp hn ⟨k, hk, hunwritten⟩
  have hexec := exec_filter_accepts (s := s) hp hn
  rw [filterJob_of_count_pos (cmd := .filter n p) (Nat.zero_lt_of_lt hk)] at hexec
  obtain ⟨hpins, -⟩ := exec_keeps_outside hexec
  obtain ⟨a, ha, haUnwritten, hrun⟩ := filter_run_faults (hr.of_samePins hpins) rfl List.length_range
    (List.mem_range.mpr hk) hunwritten
  exact ⟨_, a, hexec, hrun, List.mem_range.mp ha, haUnwritten⟩

end Sys2Proof.Machine
end

section
/-! The encoding (30_encoding.md R64 to R75): the decoder and the encoder are inverse, an encoded command is the numbers of the
assembler, and a step runs the instruction its command decodes to. -/

namespace Sys2Proof

/-! ### What the decoder takes: the command's checks passed, and the instruction its opcode selects -/

/-- R128, checks 1 to 3, as `Laws.EncodingFields.Statement` has them of encoded commands: the opcode is illegal, or every bit the
format does not use is zero. -/
def FieldsPass (c : Command) : Prop :=
  illegalWord c.word = true ∨
    ∃ f, formatOf (opField c.word) = some f ∧ rsvField c.word = 0 ∧ (f.usesAddr = false → addrField c.word = 0) ∧
      f.operandExcess c.operand = false

/-- R69: the illegal opcodes, as a number. -/
theorem illegalWord_iff (w : U32) : illegalWord w = true ↔ 12 ≤ w.toNat % 16 := by
  have h : ∀ op : BitVec 4, (op.getLsbD 3 && op.getLsbD 2) = true ↔ 12 ≤ op.toNat := by decide
  rw [← opField_toNat, ← h (opField w)]
  simp [illegalWord, opField]

/-- No legal opcode's row of `instrOf` is an illegal word's. -/
theorem instrOf_of_illegal {c : Command} (h : illegalWord c.word = true) : instrOf c = .illegal c.word c.operand := by
  rw [illegalWord_iff, ← opField_toNat] at h
  unfold instrOf
  split
  case h_13 => rfl
  all_goals omega

theorem decode_of_illegal {c : Command} (h : illegalWord c.word = true) : decode c = .ok (.illegal c.word c.operand) := by
  rw [decode, (formatOf_eq_none_iff c.word).mpr h]

/-- The instruction an opcode selects is well-formed: it is the illegal row for an illegal opcode alone. -/
theorem wellFormed_instrOf (c : Command) : (instrOf c).wellFormed = true := by
  unfold instrOf
  split
  case h_13 =>
    simp only [imp_false] at *
    rw [Instr.wellFormed, illegalWord_iff, ← opField_toNat]
    omega
  all_goals rfl

/-- R68: the opcode alone selects the instruction of a command the decoder takes. -/
theorem instrOf_of_decode {c : Command} {i : Instr} (h : decode c = .ok i) : instrOf c = i := by
  cases hf : formatOf (opField c.word) with
  | none =>
    have hill := (formatOf_eq_none_iff c.word).mp hf
    rw [decode_of_illegal hill] at h
    rw [instrOf_of_illegal hill, Except.ok.inj h]
  | some f =>
    rw [decode, hf] at h
    dsimp only at h
    split_ifs at h
    exact Except.ok.inj h

theorem fieldsPass_of_decode {c : Command} {i : Instr} (h : decode c = .ok i) : FieldsPass c := by
  rcases fields_of_decode h with rfl | ⟨f, hf, hrsv, haddr, hexcess, -⟩
  · have hwf := wellFormed_instrOf c
    rw [instrOf_of_decode h] at hwf
    exact .inl hwf
  · exact .inr ⟨f, hf, hrsv, haddr, hexcess⟩

theorem decode_of_fieldsPass {c : Command} (h : FieldsPass c) : decode c = .ok (instrOf c) := by
  rcases h with hill | ⟨f, hf, hrsv, haddr, hexcess⟩
  · rw [decode_of_illegal hill, instrOf_of_illegal hill]
  · have haddr' : ¬ (f.usesAddr = false ∧ addrField c.word ≠ 0) := fun ⟨hu, hne⟩ => hne (haddr hu)
    rw [decode, hf]
    dsimp only
    rw [if_neg (not_not.mpr hrsv), if_neg haddr', if_neg (Bool.eq_false_iff.mp hexcess)]

/-! ### From the instruction to the command and back (R67, R74) -/

theorem fieldsPass_encode {i : Instr} (h : i.wellFormed = true) : FieldsPass (encode i) := by
  cases i with
  | nop => exact Laws.EncodingFields.nop h
  | seed x => exact Laws.EncodingFields.seed x h
  | step => exact Laws.EncodingFields.step h
  | fill n => exact Laws.EncodingFields.fill n h
  | lutrd sub idx => exact Laws.EncodingFields.lutrd sub idx h
  | acc x => exact Laws.EncodingFields.acc x h
  | filt1 x => exact Laws.EncodingFields.filt1 x h
  | filter n p => exact Laws.EncodingFields.filter n p h
  | iter n p => exact Laws.EncodingFields.iter n p h
  | sbwr a x => exact Laws.EncodingFields.sbwr a x h
  | sbrd a => exact Laws.EncodingFields.sbrd a h
  | obrd a => exact Laws.EncodingFields.obrd a h
  | illegal w o => exact Laws.EncodingFields.illegal w o h

/-- The opcode of an encoded instruction selects it, and its fields are the operands. -/
theorem instrOf_encode {i : Instr} (h : i.wellFormed = true) : instrOf (encode i) = i := by
  cases i with
  | illegal w o => exact instrOf_of_illegal h
  | _ => simp [encode, instrOf]

/-- Settles O1: an encoded command passes the checks and its opcode selects the instruction. -/
theorem decodeOfEncode : Obligations.DecodeOfEncode := by
  intro i h
  rw [decode_of_fieldsPass (fieldsPass_encode h), instrOf_encode h]

/-! ### From the command to the instruction and back: the fields a format reads are all its bits (R65, R68) -/

/-- A word with RSV zero is its address and its opcode. -/
theorem addrWord_of_fields {w : U32} (hrsv : rsvField w = 0) : addrWord (addrField w) (opField w) = w := by
  apply BitVec.eq_of_toNat_eq
  rw [addrWord_toNat, word_eq_fields w, hrsv]
  simp

/-- A word with RSV and ADDR zero is its opcode. -/
theorem plainWord_of_fields {w : U32} (hrsv : rsvField w = 0) (haddr : addrField w = 0) :
    plainWord (opField w) = w := by
  calc
    plainWord (opField w) = addrWord 0 (opField w) := by simp [addrWord, plainWord]
    _ = addrWord (addrField w) (opField w) := by rw [haddr]
    _ = w := addrWord_of_fields hrsv

theorem countOperand_of_fields (o : U64) : countOperand (countField o) (chunksField o) = o :=
  BitVec.eq_of_toNat_eq (by rw [countOperand_toNat, ← operand_eq_fields])

theorem indexField_toNat (o : U64) : (indexField o).toNat = o.toNat % 2 ^ 8 := by simp [indexField]

theorem subTableField_toNat (o : U64) : (subTableField o).toNat = o.toNat / 2 ^ 8 % 2 ^ 3 := by
  simp [subTableField, Nat.shiftRight_eq_div_pow]

/-- An operand with bits 63:11 zero is its sub-table and its index. -/
theorem tableOperand_of_fields {o : U64} (h : o.extractLsb' 11 53 = 0) :
    tableOperand (subTableField o) (indexField o) = o := by
  have hhigh : o.toNat / 2 ^ 11 % 2 ^ 53 = 0 := by
    simpa [Nat.shiftRight_eq_div_pow] using congrArg BitVec.toNat h
  have := o.isLt
  apply BitVec.eq_of_toNat_eq
  rw [tableOperand_toNat, subTableField_toNat, indexField_toNat]
  omega

/-- The word a format keeps of a command's word: its opcode, and its address if the format has one (R65). -/
def Format.word (f : Format) (w : U32) : U32 :=
  match f.usesAddr with
  | true => addrWord (addrField w) (opField w)
  | false => plainWord (opField w)

/-- The operand a format keeps of a command's operand: the fields it reads, every other bit zero (R65). -/
def Format.operand : Format → U64 → U64
  | .z, _ => 0
  | .v, o => o
  | .c, o => countOperand (countField o) 0
  | .cp, o => countOperand (countField o) (chunksField o)
  | .t, o => tableOperand (subTableField o) (indexField o)
  | .a, _ => 0
  | .av, o => o

theorem Format.word_of_fields {f : Format} {w : U32} (hrsv : rsvField w = 0)
    (haddr : f.usesAddr = false → addrField w = 0) : f.word w = w := by
  unfold Format.word
  split
  · exact addrWord_of_fields hrsv
  · next hu => exact plainWord_of_fields hrsv (haddr hu)

theorem Format.operand_of_fields {f : Format} {o : U64} (h : f.operandExcess o = false) : f.operand o = o := by
  cases f with
  | z => exact (bne_eq_false_iff_eq.mp h).symm
  | v => rfl
  | c =>
    have hhigh : chunksField o = 0 := bne_eq_false_iff_eq.mp h
    rw [operand, ← hhigh, countOperand_of_fields]
  | cp => exact countOperand_of_fields o
  | t => exact tableOperand_of_fields (bne_eq_false_iff_eq.mp h)
  | a => exact (bne_eq_false_iff_eq.mp h).symm
  | av => rfl

theorem opField_of_toNat {w : U32} {k : Nat} (h : (opField w).toNat = k) : opField w = BitVec.ofNat 4 k := by
  rw [← h, BitVec.ofNat_toNat, BitVec.setWidth_eq]

/-- The encoder puts the fields back where the decoder read them, opcode by opcode (R67). -/
theorem encode_instrOf {c : Command} {f : Format} (hf : formatOf (opField c.word) = some f) :
    encode (instrOf c) = ⟨f.word c.word, f.operand c.operand⟩ := by
  have hlegal : ¬ 12 ≤ (opField c.word).toNat := fun hill => by
    rw [opField_toNat, ← illegalWord_iff, ← formatOf_eq_none_iff, hf] at hill
    cases hill
  unfold instrOf
  split
  case h_13 =>
    simp only [imp_false] at *
    omega
  all_goals
    next hop =>
    simp only [formatOf, hop, Option.some.injEq] at hf
    subst hf
    simp [encode, Format.word, Format.usesAddr, Format.operand, opField_of_toNat hop]

/-- Settles O2: an illegal command is kept whole; in a legal one every bit the format does not read is zero. -/
theorem encodeOfDecode : Obligations.EncodeOfDecode := by
  intro c i h
  obtain rfl := instrOf_of_decode h
  refine ⟨?_, wellFormed_instrOf c⟩
  rcases fieldsPass_of_decode h with hill | ⟨f, hf, hrsv, haddr, hexcess⟩
  · rw [instrOf_of_illegal hill, encode]
  · rw [encode_instrOf hf, Format.word_of_fields hrsv haddr, Format.operand_of_fields hexcess]

/-! ### The commands as numbers (R74) -/

/-- Settles O3: each word and each operand is one of the encoder's forms, whose numbers are known. -/
theorem assembledForm : Obligations.AssembledForm := by
  refine ⟨fun i _ => ?_, fun i _ => ?_⟩
  · cases i with
    | sbwr a x => exact addrWord_toNat a 0x9
    | sbrd a => exact addrWord_toNat a 0xA
    | obrd a => exact addrWord_toNat a 0xB
    | _ => rfl
  · cases i with
    | fill n => simpa [encode] using countOperand_toNat n 0
    | lutrd sub idx => exact tableOperand_toNat sub idx
    | filter n p => exact countOperand_toNat n p
    | iter n p => exact countOperand_toNat n p
    | _ => rfl

/-- A command that is the encoding of a well-formed instruction decodes to it. -/
theorem decode_of_encode_eq {c : Command} {i : Instr} (h : encode i = c) (hw : i.wellFormed = true) :
    decode c = .ok i := h ▸ decodeOfEncode i hw

/-- Settles O4: each word written out is the encoding of its instruction. -/
theorem writtenWordsDecode : Obligations.WrittenWordsDecode :=
  ⟨decode_of_encode_eq (by decide) rfl, decode_of_encode_eq (by decide) rfl, decode_of_encode_eq (by decide) rfl,
    decode_of_encode_eq (by decide) rfl, decode_of_encode_eq (by decide) rfl, decode_of_encode_eq (by decide) rfl,
    decode_of_encode_eq rfl (by decide), decode_of_encode_eq rfl (by decide)⟩

end Sys2Proof

namespace Sys2Proof.Machine

/-! ### The step at a command on the port (R62, R69) -/

/-- Settles O6: the event of the step is the acceptance of the command on the port. -/
theorem stepRunsTheDecodedCommand : Obligations.StepRunsTheDecodedCommand := by
  rintro s c i ⟨hidle, hrst, hvalid, hhead⟩ hd
  obtain ⟨cs, hhost⟩ := List.head?_eq_some_iff.mp hhead
  exact step_of_accept hrst hidle hvalid hhost hd

/-- Settles O8: an illegal opcode decodes to the illegal row, whose meaning only raises the error. -/
theorem illegalOpcodesAreRejected : Obligations.IllegalOpcodesAreRejected := by
  refine ⟨fun s c hp hop => ?_, fun w o s => exec_illegal s w o⟩
  have hd := decode_of_illegal ((illegalWord_iff c.word).mpr hop)
  rw [stepRunsTheDecodedCommand s c _ hp hd, exec_illegal]
  rfl

/-! ### The assembler (R73 to R75) -/

theorem assemble_of_inRange {src : Source} (h : src.inRange = true) : assemble src = .ok (encode src.instr) := if_pos h

theorem assemble_of_not_inRange {src : Source} (h : ¬ src.inRange = true) : assemble src = .error .outOfRange := if_neg h

theorem Source.wellFormed_instr (src : Source) : src.instr.wellFormed = true := by cases src <;> rfl

/-- A source command is assembled as R73 and R74 say when its range is the model's and its command has the two numbers. -/
theorem assembles_of_encode {src : Source} {range : Prop} {word operand : Nat} (hrange : src.inRange = true ↔ range)
    (hword : range → (encode src.instr).word.toNat = word)
    (hoperand : range → (encode src.instr).operand.toNat = operand) : Assembles src range word operand := by
  refine ⟨fun h => ?_, fun h => assemble_of_not_inRange (hrange.not.mpr h)⟩
  exact ⟨encode src.instr, assemble_of_inRange (hrange.mpr h), hword h, hoperand h,
    decodeOfEncode src.instr src.wellFormed_instr⟩

/-- A number in range is the value of the field it fills. -/
theorem toNat_ofNat_of_lt {w n : Nat} (h : n < 2 ^ w) : (BitVec.ofNat w n).toNat = n :=
  (BitVec.toNat_ofNat n w).trans (Nat.mod_eq_of_lt h)

theorem addrWord_ofNat_toNat {a : Nat} (h : a < 2 ^ 20) (op : BitVec 4) :
    (addrWord (BitVec.ofNat 20 a) op).toNat = a * 2 ^ 12 + op.toNat := by
  rw [addrWord_toNat, toNat_ofNat_of_lt h]

theorem countOperand_ofNat_toNat {n p : Nat} (hn : n < 2 ^ 32) (hp : p < 2 ^ 32) :
    (countOperand (BitVec.ofNat 32 n) (BitVec.ofNat 32 p)).toNat = p * 2 ^ 32 + n := by
  rw [countOperand_toNat, toNat_ofNat_of_lt hn, toNat_ofNat_of_lt hp]

theorem tableOperand_ofNat_toNat {i j : Nat} (hi : i ≤ 7) (hj : j ≤ 255) :
    (tableOperand (BitVec.ofNat 3 i) (BitVec.ofNat 8 j)).toNat = i * 2 ^ 8 + j := by
  rw [tableOperand_toNat, toNat_ofNat_of_lt (Nat.lt_succ_of_le hi), toNat_ofNat_of_lt (Nat.lt_succ_of_le hj)]

/-- Settles O60: the range of each mnemonic is the model's, and in it each number is the value of its field. -/
theorem assembledSourceDecodes : Obligations.AssembledSourceDecodes := by
  refine ⟨?nop, ?seed, ?step, ?fill, ?lutrd, ?acc, ?filt1, ?filter, ?iter, ?sbwr, ?sbrd, ?obrd, ?seedrst, ?iterdef, rfl, rfl⟩
  case nop => exact assembles_of_encode (by decide) (fun _ => rfl) fun _ => rfl
  case seed => exact fun x => assembles_of_encode decide_eq_true_iff (fun _ => rfl) toNat_ofNat_of_lt
  case step => exact assembles_of_encode (by decide) (fun _ => rfl) fun _ => rfl
  case fill =>
    intro n
    refine assembles_of_encode decide_eq_true_iff (fun _ => rfl) fun hn => ?_
    simpa [Source.instr, encode] using countOperand_ofNat_toNat hn (Nat.two_pow_pos 32)
  case lutrd =>
    intro i j
    refine assembles_of_encode (by simp [Source.inRange]) (fun _ => rfl) fun ⟨hi, hj⟩ => ?_
    exact tableOperand_ofNat_toNat hi hj
  case acc => exact fun x => assembles_of_encode decide_eq_true_iff (fun _ => rfl) toNat_ofNat_of_lt
  case filt1 => exact fun x => assembles_of_encode decide_eq_true_iff (fun _ => rfl) toNat_ofNat_of_lt
  case filter =>
    intro n p
    refine assembles_of_encode (by simp [Source.inRange]) (fun _ => rfl) fun ⟨hn, hp⟩ => ?_
    exact countOperand_ofNat_toNat hn hp
  case iter =>
    intro n p
    refine assembles_of_encode (by simp [Source.inRange]) (fun _ => rfl) fun ⟨hn, hp⟩ => ?_
    exact countOperand_ofNat_toNat hn hp
  case sbwr =>
    intro a x
    refine assembles_of_encode (by simp [Source.inRange]) (fun ⟨ha, _⟩ => ?_) fun ⟨_, hx⟩ => toNat_ofNat_of_lt hx
    exact addrWord_ofNat_toNat ha 0x9
  case sbrd => exact fun a => assembles_of_encode decide_eq_true_iff (fun ha => addrWord_ofNat_toNat ha 0xA) fun _ => rfl
  case obrd => exact fun a => assembles_of_encode decide_eq_true_iff (fun ha => addrWord_ofNat_toNat ha 0xB) fun _ => rfl
  case seedrst => exact assembles_of_encode (by decide) (fun _ => rfl) fun _ => rfl
  case iterdef => exact assembles_of_encode (by decide) (fun _ => rfl) fun _ => by decide

end Sys2Proof.Machine
end

section
/-! The feedback function (40_lfsr.md R79 to R81): zero and nonzero states, the window over the bit stream, and the characteristic
equation of the generator. -/

namespace Sys2Proof.Machine

/-- Settles O29: the bits of `next` are the library's, the sum of the feedback bracketed in pairs. -/
theorem nextShiftsAndFeedsBack : Obligations.NextShiftsAndFeedsBack := by
  intro x
  refine ⟨?_, fun k hk => next_getLsbD_succ x hk⟩
  rw [next_getLsbD_zero, Bool.xor_assoc]

theorem nextN_eq_zero_iff (n : Nat) (x : U64) : nextN n x = 0 ↔ x = 0 := by
  induction n with
  | zero => rfl
  | succ n ih => rw [nextN_succ, next_eq_zero_iff, ih]

/-- Settles O30: `next_eq_zero_iff`, carried over any number of advances. -/
theorem nextKeepsZeroAndNonzero : Obligations.NextKeepsZeroAndNonzero :=
  ⟨next_zero, fun x => (next_eq_zero_iff x).not.mpr, nextN_eq_zero_iff⟩

theorem nextN_comm (m n : Nat) (x : U64) : nextN m (nextN n x) = nextN n (nextN m x) := by
  rw [← nextN_add, ← nextN_add, Nat.add_comm]

/-- Each advance moves a bit one place up, until it leaves at bit 63 (R79). -/
theorem nextN_getLsbD_add {i j : Nat} (h : i + j < 64) (x : U64) : (nextN j x).getLsbD (i + j) = x.getLsbD i := by
  induction j with
  | zero => rfl
  | succ j ih => rw [nextN_succ, ← Nat.add_assoc, next_getLsbD_succ _ (by omega), ih (by omega)]

/-- The feedback bit as a bit 63: what stands at 62, 60 and 59 stands at 63 after one, three and four advances. -/
theorem next_getLsbD_zero_eq_top (x : U64) :
    (next x).getLsbD 0 = (x ^^^ nextN 1 x ^^^ nextN 3 x ^^^ nextN 4 x).getLsbD 63 := by
  simp only [BitVec.getLsbD_xor, next_getLsbD_zero, nextN_getLsbD_add (i := 62) (j := 1) (by decide),
    nextN_getLsbD_add (i := 60) (j := 3) (by decide), nextN_getLsbD_add (i := 59) (j := 4) (by decide)]

/-- The characteristic equation of the generator: bit k of either side, moved up to bit 63, is one feedback bit. -/
theorem nextN_64 (x : U64) : nextN 64 x = x ^^^ nextN 1 x ^^^ nextN 3 x ^^^ nextN 4 x := by
  apply BitVec.eq_of_getLsbD_eq
  intro k hk
  have htop : k + (63 - k) = 63 := by omega
  calc (nextN 64 x).getLsbD k
      = (nextN k (next (nextN (63 - k) x))).getLsbD (0 + k) := by
        rw [← nextN_succ, ← nextN_add, Nat.zero_add, show 63 - k + 1 + k = 64 by omega]
    _ = (next (nextN (63 - k) x)).getLsbD 0 := nextN_getLsbD_add (by omega) _
    _ = (nextN (63 - k) (x ^^^ nextN 1 x ^^^ nextN 3 x ^^^ nextN 4 x)).getLsbD (k + (63 - k)) := by
        simp only [next_getLsbD_zero_eq_top, htop, nextN_xor, nextN_comm (63 - k)]
    _ = (x ^^^ nextN 1 x ^^^ nextN 3 x ^^^ nextN 4 x).getLsbD k := nextN_getLsbD_add (by omega) _

/-- Settles O31: the window is the move of bit 0, the recurrence the characteristic equation's bit 0. -/
theorem stateIsASlidingWindow : Obligations.StateIsASlidingWindow := by
  constructor
  · intro seed n k hkn hk
    have hmoved := nextN_getLsbD_add (i := 0) (j := k) (by omega) (nextN (n - k) seed)
    rwa [← nextN_add, Nat.sub_add_cancel hkn.le, Nat.zero_add] at hmoved
  · intro seed n hn
    obtain ⟨m, rfl⟩ := Nat.exists_eq_add_of_le' hn
    rw [show m + 64 - 64 = m by omega, show m + 64 - 63 = m + 1 by omega, show m + 64 - 61 = m + 3 by omega,
      show m + 64 - 60 = m + 4 by omega]
    simp only [nextN_add m, nextN_64, BitVec.getLsbD_xor, Bool.xor_assoc]

end Sys2Proof.Machine
end

section
/-! The period of the generator (40_lfsr.md R82). The advances are polynomials in one linear map over the field of two elements, so a
number of advances near 2^64 is computed by squaring polynomials modulo the characteristic one. A natural number stands for the
polynomial whose coefficient of X^k is its bit k; reduced ones have 64 bits. -/

namespace Sys2Proof.Machine

/-! ### Polynomials in `next` -/

/-- The polynomial of the low `k` bits of `p`, with `next` for X, at `x`. -/
def applyPoly : Nat → Nat → U64 → U64
  | 0, _, _ => 0
  | k + 1, p, x => (if p % 2 = 1 then x else 0) ^^^ applyPoly k (p / 2) (next x)

/-- X^64 + X^4 + X^3 + X + 1, which `next` is a root of (`nextN_64`). -/
def charPoly : Nat := 0x1000000000000001B

/-- X times a polynomial of degree below 64, reduced. -/
def timesX (p : Nat) : Nat := 2 * p ^^^ p / 2 ^ 63 % 2 * charPoly

/-- The polynomial of the low `k` bits of `p`, times `q`. -/
def polyMul : Nat → Nat → Nat → Nat
  | 0, _, _ => 0
  | k + 1, p, q => p % 2 * q ^^^ polyMul k (p / 2) (timesX q)

/-- `f v`. The match makes an evaluation reach the numeral `v` before it goes on. -/
def atNumeral (v : Nat) (f : Nat → Nat) : Nat :=
  match v with
  | 0 => f 0
  | m + 1 => f (m + 1)

/-- From X^m, X to the number whose digits are those of m followed by the low `k` bits of `n`: square and multiply. -/
def powX (n : Nat) : Nat → Nat → Nat
  | 0, p => p
  | k + 1, p => atNumeral (if n.testBit k then timesX (polyMul 64 p p) else polyMul 64 p p) (powX n k)

theorem atNumeral_eq (v : Nat) (f : Nat → Nat) : atNumeral v f = f v := by cases v <;> rfl

@[simp] theorem applyPoly_zero (k : Nat) (x : U64) : applyPoly k 0 x = 0 := by
  induction k generalizing x with
  | zero => rfl
  | succ k ih => simp [applyPoly, ih]

theorem applyPoly_low (k p : Nat) (x : U64) :
    applyPoly (k + 1) p x = (if p % 2 = 1 then x else 0) ^^^ applyPoly k (p / 2) (next x) := rfl

theorem applyPoly_one (k : Nat) (x : U64) : applyPoly (k + 1) 1 x = x := by simp [applyPoly]

theorem applyPoly_xor (k p q : Nat) (x : U64) : applyPoly k (p ^^^ q) x = applyPoly k p x ^^^ applyPoly k q x := by
  induction k generalizing p q x with
  | zero => exact BitVec.xor_self.symm
  | succ k ih =>
    have hcoeff : (if (p ^^^ q) % 2 = 1 then x else 0) = (if p % 2 = 1 then x else 0) ^^^ (if q % 2 = 1 then x else 0) := by
      rcases Nat.mod_two_eq_zero_or_one p with hp | hp <;> rcases Nat.mod_two_eq_zero_or_one q with hq | hq <;>
        simp [Nat.xor_mod_two_eq, hp, hq, Nat.add_mod]
    rw [applyPoly, applyPoly, applyPoly, Nat.xor_div_two, ih, hcoeff]
    ac_rfl

theorem applyPoly_mod_two_mul (k c q : Nat) (x : U64) :
    applyPoly k (c % 2 * q) x = if c % 2 = 1 then applyPoly k q x else 0 := by
  rcases Nat.mod_two_eq_zero_or_one c with hc | hc <;> simp [hc]

theorem applyPoly_next (k p : Nat) (x : U64) : applyPoly k p (next x) = next (applyPoly k p x) := by
  induction k generalizing p x with
  | zero => exact next_zero.symm
  | succ k ih => rw [applyPoly, applyPoly, ih, next_xor, apply_ite next, next_zero]

/-- The coefficient of the highest power taken off. -/
theorem applyPoly_succ (k p : Nat) (x : U64) :
    applyPoly (k + 1) p x = applyPoly k p x ^^^ if p / 2 ^ k % 2 = 1 then nextN k x else 0 := by
  induction k generalizing p x with
  | zero => simp [applyPoly]
  | succ k ih =>
    rw [applyPoly, ih, applyPoly, BitVec.xor_assoc, Nat.div_div_eq_div_mul, ← Nat.pow_succ']
    rfl

theorem applyPoly_two_mul (k p : Nat) (x : U64) : applyPoly (k + 1) (2 * p) x = applyPoly k p (next x) := by
  simp [applyPoly]

theorem applyPoly_charPoly (x : U64) : applyPoly 64 charPoly x = nextN 64 x := by
  rw [nextN_64]
  simp [applyPoly, charPoly, nextN, BitVec.xor_assoc]

/-- Reduction by the characteristic polynomial changes nothing at `next`. -/
theorem applyPoly_timesX (p : Nat) (x : U64) : applyPoly 64 (timesX p) x = next (applyPoly 64 p x) := by
  rw [timesX, applyPoly_xor, applyPoly_mod_two_mul, applyPoly_charPoly, applyPoly_two_mul, ← applyPoly_next,
    applyPoly_succ 63 p]
  rfl

theorem applyPoly_polyMul (k p q : Nat) (x : U64) :
    applyPoly 64 (polyMul k p q) x = applyPoly k p (applyPoly 64 q x) := by
  induction k generalizing p q with
  | zero => exact applyPoly_zero 64 x
  | succ k ih => rw [polyMul, applyPoly_xor, applyPoly_mod_two_mul, ih, applyPoly_timesX, applyPoly_low k]

/-- The digits of `n` taken one by one, from the top. -/
theorem applyPoly_powX {m p : Nat} (hp : ∀ x, applyPoly 64 p x = nextN m x) (n k : Nat) (x : U64) :
    applyPoly 64 (powX n k p) x = nextN (m * 2 ^ k + n % 2 ^ k) x := by
  induction k generalizing m p with
  | zero => rw [powX, hp, pow_zero, Nat.mod_one, Nat.mul_one, Nat.add_zero]
  | succ k ih =>
    have hsquare : ∀ y, applyPoly 64 (polyMul 64 p p) y = nextN (m + m) y := fun y => by
      rw [applyPoly_polyMul, hp, hp, nextN_add]
    have hdigit : ∀ y, applyPoly 64 (if n.testBit k then timesX (polyMul 64 p p) else polyMul 64 p p) y =
        nextN (m + m + (n.testBit k).toNat) y := fun y => by
      cases n.testBit k
      · exact hsquare y
      · rw [if_pos rfl, applyPoly_timesX, hsquare, ← nextN_succ, Bool.toNat_true]
    rw [powX, atNumeral_eq, ih hdigit, Nat.mod_pow_succ, Nat.toNat_testBit]
    congr 1
    ring

theorem nextN_eq_applyPoly {n : Nat} (hn : n < 2 ^ 64) (x : U64) : nextN n x = applyPoly 64 (powX n 64 1) x := by
  rw [applyPoly_powX (m := 0) (applyPoly_one 63), Nat.zero_mul, Nat.zero_add, Nat.mod_eq_of_lt hn]

/-! ### The period (R82) -/

theorem iterate_next (n : Nat) (x : U64) : next^[n] x = nextN n x := by
  induction n generalizing x with
  | zero => rfl
  | succ n ih => exact ih (next x)

theorem isPeriodicPt_next_iff (n : Nat) (x : U64) : Function.IsPeriodicPt next n x ↔ nextN n x = x := by
  rw [← iterate_next]
  rfl

theorem nextN_eq_nextN_iff {x : U64} {i j : Nat} (hi : i < Function.minimalPeriod next x)
    (hj : j < Function.minimalPeriod next x) : nextN i x = nextN j x ↔ i = j := by
  rw [← iterate_next, ← iterate_next, Function.iterate_eq_iterate_iff_of_lt_minimalPeriod hi hj]

/-- A period that stops to be one when any prime factor is taken away is the least. -/
theorem minimalPeriod_eq_of_prime_divisors {α : Type} {f : α → α} {x : α} {n : Nat}
    (hx : Function.IsPeriodicPt f n x) (h : ∀ q, q.Prime → q ∣ n → ¬ Function.IsPeriodicPt f (n / q) x) :
    Function.minimalPeriod f x = n := by
  obtain ⟨a, ha⟩ := hx.minimalPeriod_dvd
  by_contra hne
  have ha1 : a ≠ 1 := by rintro rfl; exact hne (by rw [ha, Nat.mul_one])
  have hdiv : n / a.minFac = Function.minimalPeriod f x * (a / a.minFac) := by
    rw [← Nat.mul_div_assoc _ a.minFac_dvd, ← ha]
  refine h a.minFac (Nat.minFac_prime ha1) (ha ▸ a.minFac_dvd.mul_left _) ?_
  rw [hdiv]
  exact (Function.isPeriodicPt_minimalPeriod f x).mul_const _

/-- The prime factors of 2^64 - 1. -/
def periodPrimes : List Nat := [3, 5, 17, 257, 641, 65537, 6700417]

theorem mem_periodPrimes {q : Nat} (hq : q.Prime) (hdvd : q ∣ 2 ^ 64 - 1) : q ∈ periodPrimes := by
  have hprod : 2 ^ 64 - 1 = periodPrimes.prod := by decide
  have hprimes : ∀ p ∈ periodPrimes, Prime p := by
    simp only [periodPrimes, List.forall_mem_cons, ← Nat.prime_iff]
    norm_num
  exact mem_list_primes_of_dvd_prod hq.prime hprimes (hprod ▸ hdvd)

/-- X^(2^64 - 1) reduced, at the state 1: the state is back. -/
theorem powX_period : applyPoly 64 (powX (2 ^ 64 - 1) 64 1) 1 = 1 := by decide

/-- And with a prime factor of the exponent taken away: it is not. -/
theorem powX_period_div : ∀ q ∈ periodPrimes, applyPoly 64 (powX ((2 ^ 64 - 1) / q) 64 1) 1 ≠ 1 := by decide

theorem minimalPeriod_next_one : Function.minimalPeriod next 1 = 2 ^ 64 - 1 := by
  refine minimalPeriod_eq_of_prime_divisors ?_ fun q hq hdvd hperiodic => ?_
  · rw [isPeriodicPt_next_iff, nextN_eq_applyPoly (by decide), powX_period]
  · have hlt : (2 ^ 64 - 1) / q < 2 ^ 64 := Nat.lt_of_le_of_lt (Nat.div_le_self _ q) (by decide)
    rw [isPeriodicPt_next_iff, nextN_eq_applyPoly hlt] at hperiodic
    exact powX_period_div q (mem_periodPrimes hq hdvd) hperiodic

/-- The states below the least period are different and nonzero, and when it is 2^64 - 1 there are no others. -/
theorem exists_nextN_eq {seed y : U64} (hperiod : Function.minimalPeriod next seed = 2 ^ 64 - 1) (hseed : seed ≠ 0)
    (hy : y ≠ 0) : ∃ m, m < 2 ^ 64 - 1 ∧ nextN m seed = y := by
  have hmaps : Set.MapsTo (fun m => (nextN m seed).toNat) (Finset.range (2 ^ 64 - 1)) (Finset.Ico 1 (2 ^ 64)) := fun m _ =>
    Finset.mem_Ico.mpr ⟨BitVec.toNat_pos_of_ne_zero ((nextN_eq_zero_iff m seed).not.mpr hseed), BitVec.isLt _⟩
  have hinj : Set.InjOn (fun m => (nextN m seed).toNat) (Finset.range (2 ^ 64 - 1)) := by
    intro i hi j hj hij
    rw [← hperiod] at hi hj
    exact (nextN_eq_nextN_iff (Finset.mem_range.mp hi) (Finset.mem_range.mp hj)).mp (BitVec.eq_of_toNat_eq hij)
  have hcard : (Finset.Ico 1 (2 ^ 64)).card ≤ (Finset.range (2 ^ 64 - 1)).card := by
    rw [Nat.card_Ico, Finset.card_range]
  obtain ⟨m, hm, hmy⟩ := Finset.surjOn_of_injOn_of_card_le _ hmaps hinj hcard
    (Finset.mem_Ico.mpr ⟨BitVec.toNat_pos_of_ne_zero hy, y.isLt⟩)
  exact ⟨m, Finset.mem_range.mp hm, BitVec.eq_of_toNat_eq hmy⟩

/-- Every nonzero state is in the orbit of 1, so it has the period of 1. -/
theorem minimalPeriod_next {seed : U64} (hseed : seed ≠ 0) : Function.minimalPeriod next seed = 2 ^ 64 - 1 := by
  obtain ⟨m, -, rfl⟩ := exists_nextN_eq minimalPeriod_next_one (by decide) hseed
  have hperiodic : (1 : U64) ∈ Function.periodicPts next := by
    rw [← Function.minimalPeriod_pos_iff_mem_periodicPts, minimalPeriod_next_one]
    decide
  rw [← iterate_next, Function.minimalPeriod_apply_iterate hperiodic, minimalPeriod_next_one]

/-- Settles O32: the least period of a nonzero seed is 2^64 - 1 (`minimalPeriod_next`), which leaves no nonzero state out
(`exists_nextN_eq`). -/
theorem generatorHasMaximalLength : Obligations.GeneratorHasMaximalLength := by
  intro seed hseed
  have hperiod := minimalPeriod_next hseed
  refine ⟨?_, fun m hpos hlt hback => ?_, fun y hy => ?_⟩
  · rw [← isPeriodicPt_next_iff, ← hperiod]
    exact Function.isPeriodicPt_minimalPeriod next seed
  · rw [← hperiod] at hlt
    exact Function.not_isPeriodicPt_of_pos_of_lt_minimalPeriod hpos.ne' hlt ((isPeriodicPt_next_iff m seed).mpr hback)
  · obtain ⟨m, hm, rfl⟩ := exists_nextN_eq hperiod hseed hy
    refine ⟨m, ⟨hm, rfl⟩, fun j ⟨hj, hjm⟩ => ?_⟩
    rw [← hperiod] at hm hj
    exact (nextN_eq_nextN_iff hj hm).mp hjm

end Sys2Proof.Machine
end

section
/-! The generator's commands (40_lfsr.md R83 to R86), and the long commands rejected at acceptance (60_exceptions.md R128). -/

namespace Sys2Proof.Machine

/-- Settles O16: the meaning of SEED writes S and ERR, and SZ is read from S. -/
theorem seedLoadsS : Obligations.SeedLoadsS := by
  refine fun x s => ⟨exec_seed s x, fun t ht => ?_⟩
  rw [exec_seed] at ht
  cases ht
  rfl

/-- SZ is read from S (R25). -/
theorem sz_iff (s : State) : State.sz s = true ↔ s.S = 0 := beq_iff_eq

/-- Settles O17: an advance keeps zero and nonzero states apart (`next_eq_zero_iff`). -/
theorem stepAdvancesS : Obligations.StepAdvancesS := by
  refine fun s => ⟨exec_step s, fun t ht => ?_⟩
  rw [exec_step] at ht
  cases ht
  rw [Bool.eq_iff_iff, sz_iff, sz_iff]
  exact next_eq_zero_iff s.S

/-- Settles O27: the checks of R128 come before the effect. -/
theorem longCommandsAreRejected : Obligations.LongCommandsAreRejected := by
  refine fun n p s => ⟨fun hn => ?_, ?_, ?_, fun hp hn => ⟨?_, ?_⟩⟩
  · rw [exec_fill, withCount_rejects hn]; rfl
  · rw [exec_filter, withCountAndChunks_noChunks]; rfl
  · rw [exec_iter, withCountAndChunks_noChunks]; rfl
  · rw [exec_filter, withCountAndChunks_rejects hp hn]; rfl
  · rw [exec_iter, withCountAndChunks_rejects hp hn]; rfl

/-! ### Part 1 of a long command over any number of steps (R85) -/

/-- The job when `k` of the N advances have been made. -/
def fillJobAt (cmd : LongCommand) (k : Nat) : Option Job :=
  if k < cmd.count then some ⟨cmd, .fill k⟩ else afterFillJob cmd

theorem fillJobAt_of_lt {cmd : LongCommand} {k : Nat} (h : k < cmd.count) : fillJobAt cmd k = some ⟨cmd, .fill k⟩ := if_pos h

theorem fillJobAt_count (cmd : LongCommand) : fillJobAt cmd cmd.count = afterFillJob cmd := if_neg (Nat.lt_irrefl _)

theorem nextFillJob_eq (cmd : LongCommand) (k : Nat) : nextFillJob cmd k = fillJobAt cmd (k + 1) := rfl

theorem fillJob_eq (cmd : LongCommand) : fillJob cmd = fillJobAt cmd 0 := by
  unfold fillJob fillJobAt
  split
  · next h => rw [if_neg (by omega), afterFillJob_of_count_zero cmd h]
  · next h => rw [if_pos (by omega)]

/-- `t` is `s` after `k` advances of part 1: S and the first k entries are the advances, the sequencer has counted them, and
nothing else but the pins is changed. -/
structure FilledTo (cmd : LongCommand) (k : Nat) (s t : State) : Prop where
  same : SameButPins { s with S := nextN k s.S, sb := t.sb, job := fillJobAt cmd k } t
  entries : ∀ a, Memory.read t.sb a = if a < k then some (nextN (a + 1) s.S) else Memory.read s.sb a

theorem FilledTo.zero {cmd : LongCommand} {s : State} (hj : s.job = fillJobAt cmd 0) : FilledTo cmd 0 s s :=
  ⟨SameButPins.of_fields rfl rfl rfl rfl rfl rfl hj rfl rfl, fun a => (if_neg (Nat.not_lt_zero a)).symm⟩

theorem FilledTo.job {cmd : LongCommand} {k : Nat} {s t : State} (h : FilledTo cmd k s t) : t.job = fillJobAt cmd k := by
  rw [h.same]

theorem FilledTo.S {cmd : LongCommand} {k : Nat} {s t : State} (h : FilledTo cmd k s t) : t.S = nextN k s.S := by
  rw [h.same]

/-- One step more is one advance more. -/
theorem FilledTo.step {cmd : LongCommand} {k : Nat} {s t : State} (h : FilledTo cmd k s t) (hr : t.inputs.rst = false)
    (hk : k < cmd.count) : ∃ u, step t = .next u ∧ FilledTo cmd (k + 1) s u := by
  refine ⟨_, (step_of_work hr (h.job.trans (fillJobAt_of_lt hk))).trans (workOn_fill cmd k t.inputs _), ?_, fun a => ?_⟩
  · rw [nextFillJob_eq, State.clock_S, h.S, ← nextN_succ, h.same]
    exact SameButPins.of_fields rfl rfl rfl rfl rfl rfl rfl rfl rfl
  · rw [State.setJob_sb, State.writeSB_sb, State.setS_sb, State.clock_sb, State.clock_S, h.S, ← nextN_succ, Memory.read_write,
      h.entries]
    by_cases hak : a = k
    · subst hak
      simp
    · simp only [if_neg hak, show a < k + 1 ↔ a < k by omega]

/-- With no reset to come part 1 makes its advances one a step. -/
theorem fill_run {cmd : LongCommand} {s : State} (hr : NoReset s) (hj : s.job = fillJobAt cmd 0) {k : Nat}
    (hk : k ≤ cmd.count) : ∃ t, runFor k s = .next t ∧ NoReset t ∧ FilledTo cmd k s t := by
  induction k with
  | zero => exact ⟨s, runFor_zero s, hr, .zero hj⟩
  | succ k ih =>
    obtain ⟨t, hrun, hrt, hfilled⟩ := ih (Nat.le_of_succ_le hk)
    obtain ⟨u, hstep, hfilled'⟩ := hfilled.step hrt.1 hk
    exact ⟨u, by rw [runFor_add hrun 1, runFor_succ hstep, runFor_zero], hrt.step hstep, hfilled'⟩

/-! ### FILL (R85, R86) -/

theorem exec_fill_accepts {n : U32} {s : State} (hn : n.toNat ≤ s.cfg.bufDepth) :
    exec (.fill n) s = .next (State.setJob (fillJobAt (.fill n) 0) (State.accept s)) := by
  rw [exec_fill, withCount_accepts hn, fillJob_eq]

theorem fill_run_from_acceptance {n : U32} {s : State} (hr : NoReset s) {k : Nat} (hk : k ≤ n.toNat) :
    ∃ u, runFor k (State.setJob (fillJobAt (.fill n) 0) (State.accept s)) = .next u ∧
      SameButPins { s with S := nextN k s.S, err := .ok, sb := u.sb, job := fillJobAt (.fill n) k } u ∧
      ∀ a, Memory.read u.sb a = if a < k then some (nextN (a + 1) s.S) else Memory.read s.sb a := by
  obtain ⟨u, hrun, -, hsame, hentries⟩ :=
    fill_run (s := State.setJob (fillJobAt (.fill n) 0) (State.accept s)) (hr.of_samePins ⟨rfl, rfl, rfl⟩) rfl hk
  exact ⟨u, hrun, hsame, hentries⟩

/-- Settles O24: the run of part 1 from the acceptance of FILL. -/
theorem fillStoresTheAdvances : Obligations.FillStoresTheAdvances := by
  intro n s hj hr hn
  obtain ⟨u, hrun, hsame, hentries⟩ := fill_run_from_acceptance (n := n) hr le_rfl
  have hend : fillJobAt (.fill n) n.toNat = s.job := (fillJobAt_count (.fill n)).trans hj.symm
  rw [hend] at hsame
  refine ⟨_, u, exec_fill_accepts hn, rfl, rfl, hrun, fun m hm => ?_, hsame, fun k hk => ?_, fun k hk => ?_⟩
  · obtain ⟨v, hv, hsame, -⟩ := fill_run_from_acceptance (n := n) hr hm.le
    rw [fillJobAt_of_lt hm] at hsame
    exact ⟨v, hv, by rw [hsame]; rfl, by rw [hsame]; rfl⟩
  · rw [hentries, if_pos hk]
  · rw [hentries, if_neg hk.not_gt]

/-- n STEPs one after another are n advances; RESULT is the last, and ERR is 0 once there is one (R84). -/
theorem steps_eq {n : Nat} {steps : Nat → State}
    (h : ∀ k, k < n → exec .step (steps k) = .next (steps (k + 1))) {k : Nat} (hk : k ≤ n) :
    steps k = { steps 0 with S := nextN k (steps 0).S, result := (steps k).result, err := (steps k).err } ∧
    (0 < k → (steps k).result = nextN k (steps 0).S ∧ (steps k).err = .ok) := by
  induction k with
  | zero => exact ⟨rfl, fun h0 => absurd h0 (Nat.lt_irrefl 0)⟩
  | succ k ih =>
    obtain ⟨hprev, -⟩ := ih (Nat.le_of_succ_le hk)
    have hS : (steps k).S = nextN k (steps 0).S := by rw [hprev]
    have hstep := h k hk
    rw [exec_step, hS, ← nextN_succ, Host.Outcome.next.injEq] at hstep
    rw [← hstep]
    exact ⟨by rw [hprev]; rfl, fun _ => ⟨rfl, rfl⟩⟩

/-- Settles O28: both are the advances of the seed (`fillStoresTheAdvances`, `steps_eq`). -/
theorem fillIsStepRepeated : Obligations.FillIsStepRepeated := by
  rintro n _ steps hj hr hn rfl hsteps
  obtain ⟨t, u, hexec, -, -, hrun, -, hsame, hstored, hkept⟩ := fillStoresTheAdvances n (steps 0) hj hr hn
  obtain ⟨hlast, herr⟩ := steps_eq hsteps le_rfl
  refine ⟨t, u, n.toNat, hexec, hrun, ?_, ?_, fun hpos => ?_, fun k hk => ?_, fun k hk => ?_, fun k hk => ?_⟩
  · rw [hsame, State.busy, hj]; rfl
  · rw [hlast]; exact hsame
  · rw [(herr hpos).2, hsame]
  · rw [hstored k hk, ((steps_eq hsteps hk).2 k.succ_pos).1]
  · rw [hkept k hk, hlast]
  · rw [(steps_eq hsteps hk).1]

end Sys2Proof.Machine
end

section
/-! The table (41_lut_rom.md R90 to R93) and its command LUTRD (R95). -/

namespace Sys2Proof.Machine

/-- The store of R90 is exact (R91). -/
theorem lut_toInt (cfg : Config) (i : Fin 8) (j : BitVec 8) : (lut cfg i.val j).toInt = tableSum cfg i j := by
  rw [lut, lutSum_eq_tableSum, bits_toInt (abs_tableSum_le cfg i j)]

/-! ### The sum of R90 as a function of the index -/

/-- Term by term: `c = 2c - c` where the bit is 1 and `-c = 0 - c` where it is 0. -/
theorem tableSum_eq_two_mul_sub (cfg : Config) (i : Fin 8) (j : BitVec 8) :
    tableSum cfg i j =
      2 * (∑ k : Fin 8, if j.getLsbD k then cfg.coeff[8 * i.val + k.val] else 0) -
        ∑ k : Fin 8, cfg.coeff[8 * i.val + k.val] := by
  rw [tableSum, Finset.mul_sum, ← Finset.sum_sub_distrib]
  refine Finset.sum_congr rfl fun k _ => ?_
  split <;> ring

/-- Complementing the index flips the sign of every term (R92). -/
theorem tableSum_not (cfg : Config) (i : Fin 8) (j : BitVec 8) : tableSum cfg i (~~~j) = -tableSum cfg i j := by
  rw [tableSum, tableSum, ← Finset.sum_neg_distrib]
  refine Finset.sum_congr rfl fun k _ => ?_
  have hbit : (~~~j).getLsbD k.val = !j.getLsbD k.val := by rw [BitVec.getLsbD_not, decide_eq_true k.isLt, Bool.true_and]
  rw [hbit]
  cases j.getLsbD k.val <;> simp

theorem tableSum_zero (cfg : Config) (i : Fin 8) :
    tableSum cfg i 0 = -∑ k : Fin 8, cfg.coeff[8 * i.val + k.val] := by
  simp [tableSum]

theorem getLsbD_or_twoPow (j : BitVec 8) (k m : Fin 8) :
    (j ||| BitVec.twoPow 8 k.val).getLsbD m.val = (j.getLsbD m.val || decide (k = m)) := by
  rw [BitVec.getLsbD_or, BitVec.getLsbD_twoPow, decide_eq_true k.isLt, Bool.true_and, decide_eq_decide.mpr Fin.val_inj]

/-- The sums differ in the term of the bit that is set, and there from `-c` to `c`. -/
theorem tableSum_or_twoPow (cfg : Config) (i : Fin 8) {j : BitVec 8} {k : Fin 8} (hk : j.getLsbD k.val = false) :
    tableSum cfg i (j ||| BitVec.twoPow 8 k.val) = tableSum cfg i j + 2 * cfg.coeff[8 * i.val + k.val] := by
  have hterms : tableSum cfg i (j ||| BitVec.twoPow 8 k.val) - tableSum cfg i j =
      ∑ m : Fin 8, if k = m then 2 * cfg.coeff[8 * i.val + m.val] else 0 := by
    rw [tableSum, tableSum, ← Finset.sum_sub_distrib]
    refine Finset.sum_congr rfl fun m _ => ?_
    rw [getLsbD_or_twoPow]
    by_cases hm : k = m
    · subst hm
      simp only [hk, decide_true, Bool.or_true, if_true, Bool.false_eq_true, if_false]
      ring
    · simp only [hm, decide_false, Bool.or_false, if_false, sub_self]
  rw [Finset.sum_ite_eq, if_pos (Finset.mem_univ k)] at hterms
  omega

theorem tableSum_of_zero_coefficients {cfg : Config} {i : Fin 8} (h : ∀ k : Fin 8, cfg.coeff[8 * i.val + k.val] = 0)
    (j : BitVec 8) : tableSum cfg i j = 0 :=
  Finset.sum_eq_zero fun k _ => by simp [h k]

/-- The table reads nothing of the configuration but the coefficients (R90; 90_conflicts.md C2). -/
theorem lut_congr {cfg other : Config} (h : other.coeff = cfg.coeff) (i : Nat) (j : BitVec 8) :
    lut other i j = lut cfg i j := by
  simp only [lut, lutSum, coeffAt, h]

/-! ### The laws of the table -/

/-- Settles O34: `lut_toInt` with the bound `abs_tableSum_le`, and the two forms of the sum. -/
theorem tableEntriesAreExact : Obligations.TableEntriesAreExact := by
  intro cfg i j
  obtain ⟨hlow, hhigh⟩ := abs_le.mp (abs_tableSum_le cfg i j)
  exact ⟨lut_toInt cfg i j, hlow, hhigh, (lut_toInt cfg i j).trans (tableSum_eq_two_mul_sub cfg i j),
    fun _ hother => lut_congr hother i.val j⟩

/-- Settles O35: 255 - j complements every bit of j, which negates the sum (`tableSum_not`). -/
theorem tableIsAntisymmetric : Obligations.TableIsAntisymmetric := by
  intro cfg i j
  have hcompl : 255 - j = ~~~j := BitVec.allOnes_sub_eq_not j
  rw [hcompl, lut_toInt, lut_toInt]
  exact ⟨tableSum_not cfg i j, rfl⟩

/-- Settles O36: the laws of the sum, read through `lut_toInt`; entry 255 is entry 0 negated (R92). -/
theorem tableLaws : Obligations.TableLaws := by
  intro cfg i
  refine ⟨?_, ?_, fun j k hk => ?_, fun hzero j => ?_⟩
  · rw [lut_toInt, tableSum_zero]
  · have hones : (255 : BitVec 8) = ~~~0 := by decide
    rw [lut_toInt, hones, tableSum_not, tableSum_zero, neg_neg]
  · rw [lut_toInt, lut_toInt, tableSum_or_twoPow cfg i hk]
  · rw [← BitVec.toInt_inj, lut_toInt, tableSum_of_zero_coefficients hzero j, BitVec.ofNat_eq_ofNat, BitVec.toInt_zero]

/-! ### LUTRD -/

/-- The address `i * 256 + j` holds i and j (R44, R88). -/
theorem romRead_romAddress (cfg : Config) (i : BitVec 3) (j : BitVec 8) :
    romRead cfg (romAddress i j) = lut cfg i.toNat j := by
  have hi : (romAddress i j).extractLsb' 8 3 = i := by
    ext k hk
    have hk' : 8 + k < 11 := by omega
    simp [romAddress, hk', BitVec.getLsbD_eq_getElem hk]
  have hj : (romAddress i j).extractLsb' 0 8 = j := by
    ext k hk
    have hk' : k < 11 := by omega
    simp [romAddress, hk, hk']
  rw [romRead, hi, hj]

/-- A sign extension keeps the signed value (R95). -/
theorem sext64_toInt {w : Nat} (h : w ≤ 64) (v : BitVec w) : (sext64 v).toInt = v.toInt :=
  BitVec.toInt_signExtend_of_le h

/-- Settles O18: the address read is that of (i, j) (`romRead_romAddress`), whose entry is exact (`lut_toInt`). -/
theorem lutrdReadsTheEntry : Obligations.LutrdReadsTheEntry := by
  intro sub idx s
  refine ⟨_, exec_lutrd s sub idx, rfl, ?_⟩
  rw [State.setResult_result, sext64_toInt (by decide), romRead_romAddress]
  exact lut_toInt s.cfg ⟨sub.toNat, sub.isLt⟩ idx

end Sys2Proof.Machine
end


section
/-! The accumulator (42_fir_accumulator.md R98, R99), the sample (R100, R101) and their commands ACC and FILT1 (R102, R103). -/

namespace Sys2Proof.Machine

/-! ### The accumulator and the direct filter (R98, R99) -/

/-- The accumulator never wraps under R8: the direct sum is its own 32-bit store. -/
theorem accSum_toInt (cfg : Config) (x : U64) : (accSum cfg x).toInt = directSum cfg x := by
  rw [accSum_eq_bits, bits_toInt (abs_directSum_le cfg x)]

/-- The two forms of the table's sum (R90), added up over the bytes. -/
theorem directSum_eq_two_mul_sub (cfg : Config) (x : U64) :
    directSum cfg x =
      2 * (∑ k : Fin 64, if x.getLsbD k then cfg.coeff[k] else 0) - ∑ k : Fin 64, cfg.coeff[k] := by
  rw [directSum_by_bytes, sum_by_bytes, sum_by_bytes, Finset.mul_sum, ← Finset.sum_sub_distrib]
  refine Finset.sum_congr rfl fun i _ => ?_
  rw [tableSum_eq_two_mul_sub]
  simp only [byteOf_getLsbD]
  rfl

theorem byteOf_not (x : U64) (i : Fin 8) : byteOf (~~~x) i.val = ~~~byteOf x i.val := by
  ext k hk
  have hbit : 8 * i.val + k < 64 := by omega
  simp [byteOf, hbit]

/-- Complementing the state complements every byte, which negates every table entry (R92). -/
theorem directSum_not (cfg : Config) (x : U64) : directSum cfg (~~~x) = -directSum cfg x := by
  rw [directSum_by_bytes, directSum_by_bytes, ← Finset.sum_neg_distrib]
  refine Finset.sum_congr rfl fun i _ => ?_
  rw [byteOf_not, tableSum_not]

theorem directSum_of_zero_coefficients {cfg : Config} (h : ∀ k : Fin 64, cfg.coeff[k] = 0) (x : U64) :
    directSum cfg x = 0 :=
  Finset.sum_eq_zero fun k _ => by simp [h k]

/-- Settles O37: the accumulator is the direct sum (`accSum_toInt`), which splits into the exact entries of the bytes and has the
bound of R8. -/
theorem accumulatorNeverWraps : Obligations.AccumulatorNeverWraps := by
  intro cfg x
  obtain ⟨hlow, hhigh⟩ := abs_le.mp (abs_directSum_le cfg x)
  rw [accSum_toInt]
  refine ⟨?_, hlow, hhigh⟩
  rw [directSum_by_bytes]
  exact Finset.sum_congr rfl fun i _ => (lut_toInt cfg i (byteOf x i.val)).symm

/-- Settles O38: the accumulator is the direct sum, in its two forms. -/
theorem tableLookupEqualsDirectFilter : Obligations.TableLookupEqualsDirectFilter := fun cfg x =>
  ⟨accSum_toInt cfg x, (accSum_toInt cfg x).trans (directSum_eq_two_mul_sub cfg x)⟩

/-! ### The sample (R100) -/

/-- The sample wraps the floor of the shifted direct sum to 8 bits (R13, R14). -/
theorem filterOne_eq_bits (cfg : Config) (x : U64) :
    filterOne cfg x = bits 8 (Int.fdiv (directSum cfg x) (2 ^ cfg.shift.val)) := by
  rw [filterOne, accSum_toInt, asr, Int.fdiv_eq_ediv_of_nonneg _ (by positivity)]

/-- `trunc8` keeps the value modulo 256 (R14). -/
theorem bits_eight_toInt_emod (z : Int) : (bits 8 z).toInt % 256 = z % 256 := by
  rw [bits, BitVec.toInt_ofInt]
  exact Int.bmod_emod

/-- Settles O39: each case of R101 is the law of the direct sum behind it; with shift 0 the division is by 1. -/
theorem sampleCornerCases : Obligations.SampleCornerCases := by
  intro cfg x
  refine ⟨?_, fun hzero => ?_, fun hshift => ?_⟩
  · rw [accSum_toInt, accSum_toInt, directSum_not]
  · rw [filterOne_eq_bits, directSum_of_zero_coefficients hzero, Int.zero_fdiv]
    rfl
  · simp [filterOne, hshift, asr, trunc8]

/-! ### ACC and FILT1 -/

/-- Settles O19: RESULT is the sign extension of the accumulator, which is exact (`accSum_toInt`). -/
theorem accReturnsTheDirectSum : Obligations.AccReturnsTheDirectSum := by
  intro x s
  refine ⟨_, exec_acc s x, rfl, ?_⟩
  rw [State.setResult_result, sext64_toInt (by decide), accSum_toInt]

/-- Settles O20: RESULT is the sign extension of the sample, a signed 8-bit value in the class of the shifted sum
(`filterOne_eq_bits`). -/
theorem filt1ReturnsTheSample : Obligations.Filt1ReturnsTheSample := by
  intro x s
  refine ⟨_, exec_filt1 s x, rfl, ?_⟩
  rw [State.setResult_result, sext64_toInt (by decide)]
  refine ⟨BitVec.le_toInt _, Int.le_of_lt_add_one BitVec.toInt_lt, ?_⟩
  rw [filterOne_eq_bits, bits_eight_toInt_emod]

end Sys2Proof.Machine
end

section
/-! The partition of a FILTER's indices (43_dispatcher.md R105, R106): each chunk ends where the next begins, and the dispatcher gives
an index to the one chunk that holds it. -/

namespace Sys2Proof.Machine

/-! ### Where a chunk ends -/

/-- A chunk before the last ends where the next begins. -/
theorem chunkEnd_of_inner {n p c : Nat} (hc : c + 1 < p) :
    chunkStart n p c + chunkLen n p c = chunkStart n p (c + 1) := by
  rw [chunkLen, if_pos (by omega)]
  exact (Nat.succ_mul c (n / p)).symm

/-- The last chunk takes all that the others leave. -/
theorem chunkEnd_of_last (n p : Nat) : chunkStart n p (p - 1) + chunkLen n p (p - 1) = n := by
  have hstart : chunkStart n p (p - 1) ≤ n :=
    (Nat.mul_le_mul_right _ (Nat.sub_le p 1)).trans (Nat.mul_div_le n p)
  rw [chunkLen, if_neg (Nat.lt_irrefl _), Nat.add_sub_of_le hstart]

theorem inChunk_inner_iff {n p c k : Nat} (hc : c + 1 < p) :
    inChunk n p c k = true ↔ chunkStart n p c ≤ k ∧ k < chunkStart n p (c + 1) := by
  rw [← chunkEnd_of_inner hc, inChunk, Bool.and_eq_true, decide_eq_true_iff, decide_eq_true_iff]

theorem inChunk_last_iff {n p k : Nat} : inChunk n p (p - 1) k = true ↔ chunkStart n p (p - 1) ≤ k ∧ k < n := by
  rw [inChunk, chunkEnd_of_last, Bool.and_eq_true, decide_eq_true_iff, decide_eq_true_iff]

/-- A chunk below P is the last or one before it. -/
theorem inner_or_last {p c : Nat} (hc : c < p) : c + 1 < p ∨ c = p - 1 := by omega

theorem lt_of_inChunk {n p c k : Nat} (hc : c < p) (h : inChunk n p c k = true) : k < n := by
  rcases inner_or_last hc with hinner | rfl
  · have hend : chunkStart n p (c + 1) ≤ n := (Nat.mul_le_mul_right _ hinner.le).trans (Nat.mul_div_le n p)
    exact ((inChunk_inner_iff hinner).mp h).2.trans_le hend
  · exact (inChunk_last_iff.mp h).2

/-! ### The chunk of an index -/

theorem chunkStart_of_quota_zero {n p : Nat} (hq : n / p = 0) (c : Nat) : chunkStart n p c = 0 := by
  rw [chunkStart, chunkQuota, hq, Nat.mul_zero]

theorem chunkOf_of_quota_zero {n p : Nat} (hq : n / p = 0) (k : Nat) : chunkOf n p k = p - 1 := if_pos hq

theorem chunkOf_of_quota_pos {n p : Nat} (hq : 0 < n / p) (k : Nat) : chunkOf n p k = min (k / (n / p)) (p - 1) :=
  if_neg hq.ne'

theorem chunkOf_lt {n p : Nat} (hp : 1 ≤ p) (k : Nat) : chunkOf n p k < p := by
  unfold chunkOf
  split <;> omega

/-- The chunk the dispatcher computes for an index is the one that holds it: with a quota of 0 that is the last, with a positive one
the quotient, cut off at the last (R105, R111). -/
theorem inChunk_iff_eq_chunkOf {n p c k : Nat} (hk : k < n) (hc : c < p) :
    inChunk n p c k = true ↔ c = chunkOf n p k := by
  rcases (n / p).eq_zero_or_pos with hq | hq
  · rw [chunkOf_of_quota_zero hq]
    rcases inner_or_last hc with hinner | rfl
    · simp only [inChunk_inner_iff hinner, chunkStart_of_quota_zero hq]
      omega
    · simp [inChunk_last_iff, chunkStart_of_quota_zero hq, hk]
  · rw [chunkOf_of_quota_pos hq]
    rcases inner_or_last hc with hinner | rfl
    · rw [inChunk_inner_iff hinner, ← Nat.le_div_iff_mul_le hq, ← Nat.div_lt_iff_lt_mul hq]
      omega
    · rw [inChunk_last_iff, ← Nat.le_div_iff_mul_le hq]
      omega

/-- Settles O40: the chunk an index lies in is the one `chunkOf` computes. -/
theorem chunksPartitionTheRange : Obligations.ChunksPartitionTheRange := by
  intro n p hp
  refine ⟨Nat.zero_mul _, fun c => chunkEnd_of_inner, chunkEnd_of_last n p, fun k hk => ?_, fun c k => lt_of_inChunk⟩
  have hlt : chunkOf n p k < p := chunkOf_lt hp k
  exact ⟨chunkOf n p k, ⟨hlt, (inChunk_iff_eq_chunkOf hk hlt).mpr rfl⟩,
    fun c ⟨hc, hin⟩ => (inChunk_iff_eq_chunkOf hk hc).mp hin⟩

/-- Settles O41: the worker of an index is its `chunkOf`, which is cut off at the last chunk (`inChunk_iff_eq_chunkOf`). -/
theorem eachIndexHasItsWorker : Obligations.EachIndexHasItsWorker :=
  fun _ _ k hp hk => ⟨chunkOf_lt hp k, fun _ => inChunk_iff_eq_chunkOf hk⟩

end Sys2Proof.Machine
end

section
/-! FILTER over its whole run (43_dispatcher.md R106 to R112): whatever the workers' order, each step filters one index that is left,
so after N steps every index below N is filtered and nothing else but OB has moved. -/

namespace Sys2Proof.Machine

/-! ### Part 2 of a long command over any number of steps (R106, R107) -/

/-- The job when the indices in `todo` are left and the chunks in `active` are in progress. -/
def filterJobAt (cmd : LongCommand) (todo active : List Nat) : Option Job :=
  if todo.isEmpty then afterFilterJob cmd else some ⟨cmd, .filter todo active⟩

theorem filterJobAt_nil (cmd : LongCommand) (active : List Nat) : filterJobAt cmd [] active = afterFilterJob cmd := rfl

theorem filterJobAt_of_ne_nil {cmd : LongCommand} {todo active : List Nat} (h : todo ≠ []) :
    filterJobAt cmd todo active = some ⟨cmd, .filter todo active⟩ :=
  if_neg (List.isEmpty_iff.not.mpr h)

theorem nextFilterJob_eq (cmd : LongCommand) (todo active : List Nat) (k : Nat) :
    nextFilterJob cmd todo active k = filterJobAt cmd (todo.erase k)
      (activeAfter cmd.count cmd.chunks (chunkOf cmd.count cmd.chunks k) (todo.erase k) active) := rfl

theorem filterJob_eq (cmd : LongCommand) : filterJob cmd = filterJobAt cmd (List.range cmd.count) [] := by
  rcases cmd.count.eq_zero_or_pos with h | h
  · rw [filterJob, if_pos h, h, List.range_zero, filterJobAt_nil, afterFilterJob_of_count_zero cmd h]
  · rw [filterJob_of_count_pos h, filterJobAt_of_ne_nil (List.ne_nil_of_mem (List.mem_range.mpr h))]

/-- `t` is `s` after the workers of part 2 have processed all indices but those in `todo`: the entries of OB at the others are
filtered, the sequencer holds what is left, and nothing else but the pins is changed. -/
structure FilteredTo (cmd : LongCommand) (todo active : List Nat) (s t : State) : Prop where
  nodup : todo.Nodup
  below : ∀ k ∈ todo, k < cmd.count
  same : SameButPins { s with ob := t.ob, job := filterJobAt cmd todo active } t
  entries : ∀ a, Memory.read t.ob a =
    if a < cmd.count ∧ a ∉ todo then (Memory.read s.sb a).map (filterOne s.cfg) else Memory.read s.ob a

namespace FilteredTo

variable {cmd : LongCommand} {todo active : List Nat} {s t : State}

theorem start (hj : s.job = filterJobAt cmd (List.range cmd.count) []) :
    FilteredTo cmd (List.range cmd.count) [] s s :=
  ⟨List.nodup_range, fun _ => List.mem_range.mp, SameButPins.of_fields rfl rfl rfl rfl rfl rfl hj rfl rfl,
    fun a => (if_neg (by simp)).symm⟩

theorem job (h : FilteredTo cmd todo active s t) : t.job = filterJobAt cmd todo active := by rw [h.same]

theorem sb (h : FilteredTo cmd todo active s t) : t.sb = s.sb := by rw [h.same]

theorem cfg (h : FilteredTo cmd todo active s t) : t.cfg = s.cfg := by rw [h.same]

/-- A worker's step writes OB and the sequencer alone. -/
theorem same_write (h : FilteredTo cmd todo active s t) (k : Nat) (v : S8) (later : Option Job) :
    SameButPins { s with ob := Memory.write t.ob k v, job := later }
      (State.setJob later (State.writeOB k v (State.clock t))) := by
  rw [h.same]
  exact SameButPins.of_fields rfl rfl rfl rfl rfl rfl rfl rfl rfl

/-- A worker's write at an index that is left filters that entry and no other. -/
theorem entries_write {k : Nat} {x : U64} (h : FilteredTo cmd todo active s t) (hk : k ∈ todo)
    (hx : Memory.read s.sb k = some x) (a : Nat) :
    Memory.read (Memory.write t.ob k (filterOne s.cfg x)) a =
      if a < cmd.count ∧ a ∉ todo.erase k then (Memory.read s.sb a).map (filterOne s.cfg) else Memory.read s.ob a := by
  simp only [Memory.read_write, h.entries, h.nodup.mem_erase_iff]
  by_cases hak : a = k
  · subst hak
    simp [h.below a hk, hx]
  · simp [hak]

/-- While an index is left whose state is written, one step more filters one of those left. -/
theorem step (h : FilteredTo cmd todo active s t) (hr : t.inputs.rst = false) (htodo : todo ≠ [])
    (hwritten : ∀ k ∈ todo, StateWritten s k) :
    ∃ k ∈ todo, ∃ active' u, Machine.step t = .next u ∧ FilteredTo cmd (todo.erase k) active' s u := by
  have hpick := pickIndex_mem s.cfg.lanes cmd.count cmd.chunks active t.inputs.worker htodo
  have hstep := step_of_work hr (h.job.trans (filterJobAt_of_ne_nil htodo))
  rw [workOn_filter, filterAdvance_eq, State.clock_cfg, State.clock_sb, h.cfg, h.sb] at hstep
  generalize pickIndex s.cfg.lanes cmd.count cmd.chunks todo active t.inputs.worker = k at hpick hstep
  obtain ⟨x, hx⟩ := Option.isSome_iff_exists.mp (hwritten k hpick)
  rw [hx] at hstep
  rw [nextFilterJob_eq] at hstep
  exact ⟨k, hpick, _, _, hstep, h.nodup.erase k, fun j hj => h.below j (List.mem_of_mem_erase hj),
    h.same_write k (filterOne s.cfg x) _, h.entries_write hpick hx⟩

end FilteredTo

/-- With no reset to come and every state written, part 2 filters one index a step, whatever the lanes and the workers' order. -/
theorem filter_run {cmd : LongCommand} {s : State} (hr : NoReset s)
    (hj : s.job = filterJobAt cmd (List.range cmd.count) []) (hwritten : ∀ k, k < cmd.count → StateWritten s k) {m : Nat}
    (hm : m ≤ cmd.count) :
    ∃ t todo active, runFor m s = .next t ∧ NoReset t ∧ todo.length + m = cmd.count ∧ FilteredTo cmd todo active s t := by
  induction m with
  | zero => exact ⟨s, _, _, runFor_zero s, hr, List.length_range, .start hj⟩
  | succ m ih =>
    obtain ⟨t, todo, active, hrun, hrt, hlen, hfiltered⟩ := ih (Nat.le_of_succ_le hm)
    have htodo : todo ≠ [] := List.ne_nil_of_length_pos (by omega)
    obtain ⟨k, hk, active', u, hstep, hfiltered'⟩ :=
      hfiltered.step hrt.1 htodo fun k hk => hwritten k (hfiltered.below k hk)
    have hlen' := List.length_erase_add_one hk
    exact ⟨u, todo.erase k, active', by rw [runFor_add hrun 1, runFor_succ hstep, runFor_zero], hrt.step hstep,
      by omega, hfiltered'⟩

/-- All of part 2: after N steps the part that follows begins, and the first N entries of OB are filtered. -/
theorem filter_run_to_join {cmd : LongCommand} {s : State} (hr : NoReset s)
    (hj : s.job = filterJobAt cmd (List.range cmd.count) []) (hwritten : ∀ k, k < cmd.count → StateWritten s k) :
    ∃ t active, runFor cmd.count s = .next t ∧ NoReset t ∧ FilteredTo cmd [] active s t := by
  obtain ⟨t, todo, active, hrun, hrt, hlen, hfiltered⟩ := filter_run hr hj hwritten le_rfl
  obtain rfl : todo = [] := List.eq_nil_of_length_eq_zero (by omega)
  exact ⟨t, active, hrun, hrt, hfiltered⟩

/-- Before the join an index is left, so the core is in phase 2. -/
theorem filter_run_before_join {cmd : LongCommand} {s : State} (hr : NoReset s)
    (hj : s.job = filterJobAt cmd (List.range cmd.count) []) (hwritten : ∀ k, k < cmd.count → StateWritten s k) {m : Nat}
    (hm : m < cmd.count) : ∃ t, runFor m s = .next t ∧ State.busy t = true ∧ State.phase t = 2 := by
  obtain ⟨t, todo, active, hrun, -, hlen, hfiltered⟩ := filter_run hr hj hwritten hm.le
  have htodo : todo ≠ [] := List.ne_nil_of_length_pos (by omega)
  have hjob := hfiltered.job.trans (filterJobAt_of_ne_nil htodo)
  exact ⟨t, hrun, by rw [State.busy, hjob]; rfl, by rw [State.phase, hjob]; rfl⟩

/-! ### FILTER (R108, R110) -/

/-- Settles O25: the run of part 2 from the acceptance of FILTER. -/
theorem filterFiltersEveryEntry : Obligations.FilterFiltersEveryEntry := by
  intro n p s hj hr hp hn hwritten
  have hexec := exec_filter_accepts hp hn
  have hr' := hr.of_samePins (exec_keeps_outside hexec).1
  have hstart : (State.setJob (filterJob (.filter n p)) (State.accept s)).job =
      filterJobAt (.filter n p) (List.range n.toNat) [] := filterJob_eq _
  obtain ⟨u, active, hrun, -, -, -, hsame, hentries⟩ := filter_run_to_join hr' hstart hwritten
  have hend : filterJobAt (.filter n p) [] active = s.job := hj.symm
  rw [hend] at hsame
  refine ⟨_, u, hexec, rfl, rfl, hrun, fun m hm => filter_run_before_join hr' hstart hwritten hm, hsame,
    fun k hk => ?_, fun k hk => ?_⟩
  · rw [hentries, if_pos ⟨hk, List.not_mem_nil⟩]; rfl
  · rw [hentries, if_neg fun h => hk.not_gt h.1]; rfl

/-- A sample depends on the coefficients and the shift alone, not on the depth or the lanes. -/
theorem filterOne_congr {cfg other : Config} (hcoeff : other.coeff = cfg.coeff) (hshift : other.shift = cfg.shift) :
    filterOne other = filterOne cfg := by
  funext x
  simp only [filterOne, accSum, lut_congr hcoeff, hshift]

/-- Settles O42: each core's run is that of `filterFiltersEveryEntry`, whose samples name neither P, the lanes nor the choices. -/
theorem filterDoesNotDependOnTheWorkers : Obligations.FilterDoesNotDependOnTheWorkers := by
  intro n p q s z hp hq hsj hzj hrs hrz hns hnz hcoeff hshift hstates
  have hzWritten : ∀ k, k < n.toNat → StateWritten z k := by
    intro k hk
    obtain ⟨hwritten, hread⟩ := hstates k hk
    rwa [StateWritten, hread]
  obtain ⟨t, u, hexec, -, -, hrun, -, hsame, hob, -⟩ :=
    filterFiltersEveryEntry n p s hsj hrs hp hns fun k hk => (hstates k hk).1
  obtain ⟨v, w, hexec', -, -, hrun', -, hsame', hob', -⟩ := filterFiltersEveryEntry n q z hzj hrz hq hnz hzWritten
  refine ⟨t, u, v, w, n.toNat, n.toNat, hexec, hrun, ?_, hexec', hrun', ?_, fun k hk => ⟨hob k hk, ?_⟩⟩
  · rw [hsame, State.busy, hsj]; rfl
  · rw [hsame', State.busy, hzj]; rfl
  · rw [hob' k hk, hob k hk, (hstates k hk).2, filterOne_congr hcoeff hshift]

end Sys2Proof.Machine
end

section
/-! The sample port (44_stream.md R113 to R117): what part 3 of an ITER offers, the step in which the sink takes the byte, the step in
which it does not, and why no part of an ITER meets an unwritten entry. -/

namespace Sys2Proof.Machine

/-! ### The byte on offer (R114, R115) -/

theorem offered_of_emit {s : State} {cmd : LongCommand} {k : Nat} (hj : s.job = some ⟨cmd, .emit k⟩) :
    State.offered s = Memory.read s.ob k := by
  rw [State.offered, hj]

theorem sampleValid_of_emit {s : State} {cmd : LongCommand} {k : Nat} {b : BitVec 8}
    (hj : s.job = some ⟨cmd, .emit k⟩) (hb : Memory.read s.ob k = some b) : State.sampleValid s = true := by
  rw [State.sampleValid, offered_of_emit hj, hb, Option.isSome_some]

theorem sampleData_of_emit {s : State} {cmd : LongCommand} {k : Nat} {b : BitVec 8}
    (hj : s.job = some ⟨cmd, .emit k⟩) (hb : Memory.read s.ob k = some b) : State.sampleData s = b := by
  rw [State.sampleData, offered_of_emit hj, hb, Option.getD_some]

theorem sampleValid_of_not_emit {s : State} (h : ∀ cmd k, s.job ≠ some ⟨cmd, .emit k⟩) :
    State.sampleValid s = false := by
  unfold State.sampleValid State.offered
  split
  · next cmd k hj => exact absurd hj (h cmd k)
  all_goals rfl

/-- PHASE is 3 in part 3 of a long command alone (R26). -/
theorem phase_eq_three_iff (s : State) : State.phase s = 3 ↔ ∃ cmd k, s.job = some ⟨cmd, .emit k⟩ := by
  unfold State.phase
  cases s.job with
  | none => simp
  | some job =>
    obtain ⟨cmd, work⟩ := job
    cases work <;> simp [Work.phase]

theorem phase_of_emit {s : State} {cmd : LongCommand} {k : Nat} (hj : s.job = some ⟨cmd, .emit k⟩) :
    State.phase s = 3 := (phase_eq_three_iff s).mpr ⟨cmd, k, hj⟩

theorem busy_of_job {s : State} {job : Job} (hj : s.job = some job) : State.busy s = true := (busy_iff s).mpr ⟨job, hj⟩

/-- Part 3 runs after the join: the entry on offer is one of those filtered (R107, R113). -/
theorem emit_reads_of_coreInv {s : State} {cmd : LongCommand} {k : Nat} (hi : CoreInv s)
    (hj : s.job = some ⟨cmd, .emit k⟩) : ∃ b, Memory.read s.ob k = some b := by
  obtain ⟨-, -, hjob⟩ := hi
  obtain ⟨-, -, -, hk, hfiltered⟩ := hjob _ hj
  obtain ⟨x, -, hb⟩ := hfiltered k hk
  exact ⟨_, hb⟩

/-! ### The two steps of part 3 (R114, R117) -/

theorem step_of_taken {s : State} {cmd : LongCommand} {k : Nat} {b : BitVec 8} (hr : s.inputs.rst = false)
    (hj : s.job = some ⟨cmd, .emit k⟩) (hb : Memory.read s.ob k = some b) (hready : s.inputs.sampleReady = true) :
    step s = .next (State.setJob (nextEmitJob cmd k) (State.pushSink b (State.clock s))) := by
  rw [step_of_work hr hj, workOn_emit, emitAdvance_eq, State.clock_ob, hb, hready]
  rfl

theorem step_of_stalled {s : State} {cmd : LongCommand} {k : Nat} {b : BitVec 8} (hr : s.inputs.rst = false)
    (hj : s.job = some ⟨cmd, .emit k⟩) (hb : Memory.read s.ob k = some b) (hready : s.inputs.sampleReady = false) :
    step s = .next (State.clock s) := by
  rw [step_of_work hr hj, workOn_emit, emitAdvance_eq, State.clock_ob, hb, hready]
  rfl

theorem SameButPins.clock (s : State) : SameButPins s (State.clock s) :=
  SameButPins.of_fields rfl rfl rfl rfl rfl rfl rfl rfl rfl

theorem SameButPins.trans {s t u : State} (hst : SameButPins s t) (htu : SameButPins t u) : SameButPins s u := by
  rw [SameButPins, hst] at htu
  exact htu

theorem SameButPins.job {s t : State} (h : SameButPins s t) : t.job = s.job := by rw [h]

/-- Settles O44: the invariant has the entry on offer written, and after the step the entry at the next index (`emit_reads_of_coreInv`). -/
theorem readySinkTakesTheOfferedByte : Obligations.ReadySinkTakesTheOfferedByte := by
  refine ⟨fun s => sampleValid_of_not_emit, fun s hi => ?_, fun s cmd k b hi hj hb hr hready => ?_⟩
  · rw [phase_eq_three_iff]
    constructor
    · intro hvalid
      by_contra hnot
      rw [sampleValid_of_not_emit fun cmd k hj => hnot ⟨cmd, k, hj⟩] at hvalid
      cases hvalid
    · rintro ⟨cmd, k, hj⟩
      obtain ⟨b, hb⟩ := emit_reads_of_coreInv hi hj
      exact sampleValid_of_emit hj hb
  · have hstep := step_of_taken hr hj hb hready
    refine ⟨sampleValid_of_emit hj hb, sampleData_of_emit hj hb, _, hstep,
      SameButPins.of_fields rfl rfl rfl rfl rfl rfl rfl rfl rfl, fun hmore => ?_, fun hlast => ?_⟩
    · have hnext : nextEmitJob cmd k = some ⟨cmd, .emit (k + 1)⟩ := if_pos hmore
      obtain ⟨b', hb'⟩ := emit_reads_of_coreInv (invariantKeptByEveryStep s _ hi hstep) hnext
      exact ⟨hnext, sampleValid_of_emit hnext hb'⟩
    · have hnext : nextEmitJob cmd k = none := if_neg hlast.not_gt
      refine ⟨hnext, sampleValid_of_not_emit fun cmd' k' hj' => ?_⟩
      rw [State.setJob_job, hnext] at hj'
      cases hj'

/-! ### A sink that takes no byte (R117) -/

theorem SinkNeverReady.clock {s : State} (h : SinkNeverReady s) : SinkNeverReady (State.clock s) := by
  obtain ⟨hnow, hlater⟩ := h
  constructor
  · cases hs : s.script with
    | nil => simp [hs, hnow]
    | cons i is => simpa [hs] using hlater i (by simp [hs])
  · exact fun i hi => hlater i (List.mem_of_mem_tail hi)

/-- Part 3 with a sink that is never ready: any number of steps moves the pins alone. -/
theorem stalled_run {s : State} {cmd : LongCommand} {k : Nat} {b : BitVec 8} (hj : s.job = some ⟨cmd, .emit k⟩)
    (hb : Memory.read s.ob k = some b) (hr : NoReset s) (hsink : SinkNeverReady s) (steps : Nat) :
    ∃ t, runFor steps s = .next t ∧ SameButPins s t := by
  induction steps generalizing s with
  | zero => exact ⟨s, runFor_zero s, SameButPins.of_fields rfl rfl rfl rfl rfl rfl rfl rfl rfl⟩
  | succ steps ih =>
    obtain ⟨t, hrun, hsame⟩ := ih (s := State.clock s) hj hb hr.clock hsink.clock
    exact ⟨t, by rw [runFor_succ (step_of_stalled hr.1 hj hb hsink.1), hrun], (SameButPins.clock s).trans hsame⟩

/-- Settles O45: a step without a ready sink is `State.clock` alone (`step_of_stalled`, `stalled_run`). -/
theorem stalledSinkHoldsTheCore : Obligations.StalledSinkHoldsTheCore := by
  refine ⟨fun s cmd k hi hj hr hsink => ?_, fun s cmd k steps hi hj hr hsink => ?_⟩
  · obtain ⟨b, hb⟩ := emit_reads_of_coreInv hi hj
    have hj' : (State.clock s).job = some ⟨cmd, .emit k⟩ := hj
    exact ⟨_, step_of_stalled hr hj hb hsink, SameButPins.clock s, busy_of_job hj', phase_of_emit hj',
      sampleValid_of_emit hj' hb, (sampleData_of_emit hj' hb).trans (sampleData_of_emit hj hb).symm⟩
  · obtain ⟨b, hb⟩ := emit_reads_of_coreInv hi hj
    obtain ⟨t, hrun, hsame⟩ := stalled_run hj hb hr hsink steps
    have hj' := hsame.job.trans hj
    exact ⟨t, hrun, hsame, busy_of_job hj', phase_of_emit hj'⟩

/-! ### The parts of an ITER (R113) -/

/-- Settles O49: part 1 reads no entry, part 2 of an ITER has every state written, and part 3 has the entry on offer written. -/
theorem iterNeverFaults : Obligations.IterNeverFaults := by
  intro s n p work hi hj
  cases hr : s.inputs.rst with
  | true => exact ⟨_, step_of_reset hr⟩
  | false =>
    cases work with
    | fill k => exact ⟨_, (step_of_work hr hj).trans (workOn_fill _ k _ _)⟩
    | filter todo active =>
      obtain ⟨-, -, hjob⟩ := hi
      obtain ⟨-, -, -, htodo, -, hbelow, -, hwritten, -⟩ := hjob _ hj
      obtain ⟨k, hk, ⟨hunwritten, -⟩ | ⟨-, t, hstep, -⟩⟩ := filter_step_cases hr hj htodo
      · exact absurd (hwritten n p rfl k (hbelow k hk)) hunwritten
      · exact ⟨t, hstep⟩
    | emit k =>
      obtain ⟨b, hb⟩ := emit_reads_of_coreInv hi hj
      cases hready : s.inputs.sampleReady with
      | true => exact ⟨_, step_of_taken hr hj hb hready⟩
      | false => exact ⟨_, step_of_stalled hr hj hb hready⟩

end Sys2Proof.Machine
end

section
/-! ITER over its whole run with a sink that takes every byte (44_stream.md R113, R114): the runs of the three parts one after another,
each from the state in which the part before it ends. -/

namespace Sys2Proof.Machine

/-! ### What every step keeps, a run keeps -/

theorem runFor_succ_iff {k : Nat} {s u : State} :
    runFor (k + 1) s = .next u ↔ ∃ t, step s = .next t ∧ runFor k t = .next u := by
  constructor
  · intro h
    simp only [runFor] at h
    split at h
    · next t hstep => exact ⟨t, hstep, h⟩
    all_goals cases h
  · rintro ⟨t, hstep, hrun⟩
    rw [runFor_succ hstep, hrun]

theorem runFor_keeps {P : State → Prop} (hstep : ∀ s t, P s → step s = .next t → P t) {k : Nat} {s t : State}
    (hs : P s) (hrun : runFor k s = .next t) : P t := by
  induction k generalizing s with
  | zero => cases hrun; exact hs
  | succ k ih =>
    obtain ⟨u, hu, hrest⟩ := runFor_succ_iff.mp hrun
    exact ih (hstep s u hs hu) hrest

theorem NoReset.run {s t : State} (h : NoReset s) {k : Nat} (hrun : runFor k s = .next t) : NoReset t :=
  runFor_keeps (fun _ _ => NoReset.step) h hrun

theorem HostReady.run {s t : State} (h : HostReady s) {k : Nat} (hrun : runFor k s = .next t) : HostReady t :=
  runFor_keeps (fun _ _ => HostReady.step) h hrun

theorem SinkReady.run {s t : State} (h : SinkReady s) {k : Nat} (hrun : runFor k s = .next t) : SinkReady t :=
  runFor_keeps (fun _ _ => SinkReady.step) h hrun

/-! ### Part 3 of a long command over any number of steps (R114) -/

/-- The job when `k` of the N bytes have been taken. -/
def emitJobAt (cmd : LongCommand) (k : Nat) : Option Job := if k < cmd.count then some ⟨cmd, .emit k⟩ else none

theorem emitJobAt_of_lt {cmd : LongCommand} {k : Nat} (h : k < cmd.count) : emitJobAt cmd k = some ⟨cmd, .emit k⟩ :=
  if_pos h

theorem emitJobAt_count (cmd : LongCommand) : emitJobAt cmd cmd.count = none := if_neg (Nat.lt_irrefl _)

theorem nextEmitJob_eq (cmd : LongCommand) (k : Nat) : nextEmitJob cmd k = emitJobAt cmd (k + 1) := rfl

theorem emitJob_eq (cmd : LongCommand) : emitJob cmd = emitJobAt cmd 0 := by
  rcases cmd.count.eq_zero_or_pos with h | h
  · rw [emitJob, emitJobAt, if_pos h, if_neg h.not_gt]
  · rw [emitJob, emitJobAt_of_lt h, if_neg h.ne']

/-- The sequencer with `k` bytes taken and those bytes at the end of the sink's history. -/
def emittedTo (cmd : LongCommand) (sample : Nat → S8) (k : Nat) (s : State) : State :=
  { s with sink := s.sink ++ (List.range k).map sample, job := emitJobAt cmd k }

/-- With no reset to come and a sink that takes every byte, part 3 sends the entries of OB one a step, in ascending order. -/
theorem emit_run {cmd : LongCommand} {s : State} {sample : Nat → S8} (hr : NoReset s) (hsink : SinkReady s)
    (hj : s.job = emitJobAt cmd 0) (hsample : ∀ k, k < cmd.count → Memory.read s.ob k = some (sample k)) {k : Nat}
    (hk : k ≤ cmd.count) :
    ∃ t, runFor k s = .next t ∧ NoReset t ∧ SinkReady t ∧ SameButPins (emittedTo cmd sample k s) t := by
  induction k with
  | zero =>
    have hnone : s.sink = s.sink ++ (List.range 0).map sample := (List.append_nil _).symm
    exact ⟨s, runFor_zero s, hr, hsink, SameButPins.of_fields rfl rfl rfl rfl rfl rfl hj hnone rfl⟩
  | succ k ih =>
    obtain ⟨t, hrun, hrt, hsinkt, hsame⟩ := ih (Nat.le_of_succ_le hk)
    have hjob : t.job = some ⟨cmd, .emit k⟩ := hsame.job.trans (emitJobAt_of_lt hk)
    have hread : Memory.read t.ob k = some (sample k) := by rw [hsame]; exact hsample k hk
    have hstep := step_of_taken hrt.1 hjob hread hsinkt.1
    have hsinks : t.sink ++ [sample k] = s.sink ++ (List.range (k + 1)).map sample := by
      rw [hsame, List.range_succ, List.map_append, ← List.append_assoc]
      rfl
    refine ⟨_, by rw [runFor_add hrun 1, runFor_succ hstep, runFor_zero], hrt.step hstep, hsinkt.step hstep, ?_⟩
    rw [hsame] at hsinks ⊢
    exact SameButPins.of_fields rfl rfl rfl rfl rfl rfl rfl hsinks rfl

/-! ### The three parts (R113) -/

/-- The parts of ITER n, p that need no sink: `v` is `s` after part 1, and `w` is `v` after part 2. -/
structure IterParts (n p : U32) (s v w : State) : Prop where
  runFill : runFor n.toNat s = .next v
  filled : FilledTo (.iter n p) n.toNat s v
  runFilter : runFor n.toNat v = .next w
  filtered : ∃ active, FilteredTo (.iter n p) [] active v w

/-- Part 1 ends where part 2 begins. -/
theorem FilledTo.filterJob_of_iter {n p : U32} {s v : State} (h : FilledTo (.iter n p) n.toNat s v) :
    v.job = filterJobAt (.iter n p) (List.range n.toNat) [] :=
  h.job.trans ((fillJobAt_count (.iter n p)).trans (filterJob_eq (.iter n p)))

/-- After part 1 every state that part 2 reads is written (R113). -/
theorem FilledTo.read_state {cmd : LongCommand} {n k : Nat} {s v : State} (h : FilledTo cmd n s v) (hk : k < n) :
    Memory.read v.sb k = some (nextN (k + 1) s.S) := by rw [h.entries, if_pos hk]

theorem FilledTo.stateWritten {cmd : LongCommand} {n k : Nat} {s v : State} (h : FilledTo cmd n s v) (hk : k < n) :
    StateWritten v k := by rw [StateWritten, h.read_state hk, Option.isSome_some]

/-- With no reset to come an ITER makes its parts 1 and 2, whatever the workers' order. -/
theorem iter_parts {n p : U32} {s : State} (hr : NoReset s) (hj : s.job = fillJobAt (.iter n p) 0) :
    ∃ v w, IterParts n p s v w ∧ NoReset v ∧ NoReset w := by
  obtain ⟨v, hrun, hrv, hfilled⟩ := fill_run (cmd := .iter n p) hr hj le_rfl
  obtain ⟨w, active, hrun', hrw, hfiltered⟩ :=
    filter_run_to_join hrv hfilled.filterJob_of_iter fun _ => hfilled.stateWritten
  exact ⟨v, w, ⟨hrun, hfilled, hrun', active, hfiltered⟩, hrv, hrw⟩

namespace IterParts

variable {n p : U32} {s v w : State}

/-- Part 2 ends where part 3 begins. -/
theorem job (h : IterParts n p s v w) : w.job = emitJobAt (.iter n p) 0 := by
  obtain ⟨active, hfiltered⟩ := h.filtered
  exact hfiltered.job.trans (emitJob_eq (.iter n p))

/-- Parts 1 and 2 write S, SB, OB and the sequencer. -/
theorem same (h : IterParts n p s v w) :
    SameButPins { s with S := nextN n.toNat s.S, sb := v.sb, ob := w.ob, job := emitJobAt (.iter n p) 0 } w := by
  obtain ⟨active, hfiltered⟩ := h.filtered
  have hjob := h.job
  rw [hfiltered.same, h.filled.same] at hjob ⊢
  exact SameButPins.of_fields rfl rfl rfl rfl rfl rfl hjob rfl rfl

theorem read_sample (h : IterParts n p s v w) {k : Nat} (hk : k < n.toNat) :
    Memory.read w.ob k = some (filterOne s.cfg (nextN (k + 1) s.S)) := by
  obtain ⟨active, hfiltered⟩ := h.filtered
  have hcfg : v.cfg = s.cfg := by rw [h.filled.same]
  rw [hfiltered.entries, if_pos ⟨hk, List.not_mem_nil⟩, h.filled.read_state hk, hcfg, Option.map_some]

theorem read_above (h : IterParts n p s v w) {k : Nat} (hk : n.toNat ≤ k) :
    Memory.read v.sb k = Memory.read s.sb k ∧ Memory.read w.ob k = Memory.read s.ob k := by
  obtain ⟨active, hfiltered⟩ := h.filtered
  have hob : v.ob = s.ob := by rw [h.filled.same]
  refine ⟨by rw [h.filled.entries, if_neg hk.not_gt], ?_⟩
  rw [hfiltered.entries, if_neg fun hlt => hk.not_gt hlt.1, hob]

/-- Part 3 from the end of part 2, with the samples of R113. -/
theorem emitted (h : IterParts n p s v w) (hr : NoReset w) (hsink : SinkReady w) {k : Nat} (hk : k ≤ n.toNat) :
    ∃ u, runFor k w = .next u ∧
      SameButPins (emittedTo (.iter n p) (fun j => filterOne s.cfg (nextN (j + 1) s.S)) k w) u := by
  obtain ⟨u, hrun, -, -, hsame⟩ := emit_run (cmd := .iter n p) hr hsink h.job (fun _ => h.read_sample) hk
  exact ⟨u, hrun, hsame⟩

end IterParts

theorem phase_of_job {s : State} {cmd : LongCommand} {work : Work} (hj : s.job = some ⟨cmd, work⟩) :
    State.phase s = Work.phase work := by rw [State.phase, hj]

/-- Before its last step an ITER is in part 1 for N steps, in part 2 for N and in part 3 for N (R26). -/
theorem iter_phases {n p : U32} {s v w : State} (h : IterParts n p s v w) (hr : NoReset s) (hrv : NoReset v)
    (hrw : NoReset w) (hsink : SinkReady w) (hj : s.job = fillJobAt (.iter n p) 0) {m : Nat} (hm : m < 3 * n.toNat) :
    ∃ t, runFor m s = .next t ∧ State.busy t = true ∧
      State.phase t = if m < n.toNat then 1 else if m < 2 * n.toNat then 2 else 3 := by
  have hrunFill := runFor_add h.runFill
  rcases Nat.lt_or_ge m n.toNat with hfill | hfill
  · obtain ⟨t, hrun, -, hfilled⟩ := fill_run (cmd := .iter n p) hr hj hfill.le
    have hjob := hfilled.job.trans (fillJobAt_of_lt hfill)
    exact ⟨t, hrun, busy_of_job hjob, by rw [if_pos hfill, phase_of_job hjob]; rfl⟩
  obtain ⟨j, rfl⟩ := Nat.exists_eq_add_of_le hfill
  rw [hrunFill, if_neg hfill.not_gt]
  rcases Nat.lt_or_ge j n.toNat with hfilter | hfilter
  · rw [if_pos (by omega)]
    exact filter_run_before_join hrv h.filled.filterJob_of_iter (fun _ => h.filled.stateWritten) hfilter
  · obtain ⟨i, rfl⟩ := Nat.exists_eq_add_of_le hfilter
    have hemit : i < n.toNat := by omega
    obtain ⟨t, hrun, hsame⟩ := h.emitted hrw hsink hemit.le
    have hjob := hsame.job.trans (emitJobAt_of_lt hemit)
    exact ⟨t, by rw [runFor_add h.runFilter, hrun], busy_of_job hjob, by rw [if_neg (by omega), phase_of_job hjob]; rfl⟩

/-! ### ITER from its acceptance (R113) -/

theorem exec_iter_accepts {n p : U32} {s : State} (hp : p ≠ 0) (hn : n.toNat ≤ s.cfg.bufDepth) :
    exec (.iter n p) s = .next (State.setJob (fillJobAt (.iter n p) 0) (State.accept s)) := by
  rw [exec_iter, withCountAndChunks_accepts hp hn, fillJob_eq]

/-- Settles O26: the runs of the three parts from the acceptance of ITER. -/
theorem iterFillsFiltersAndEmits : Obligations.IterFillsFiltersAndEmits := by
  intro n p s hj hr hsink hp hn
  have hexec := exec_iter_accepts hp hn
  obtain ⟨hpins, -⟩ := exec_keeps_outside hexec
  have hr' := hr.of_samePins hpins
  obtain ⟨v, w, h, hrv, hrw⟩ := iter_parts hr' rfl
  have hsinkw := ((hsink.of_samePins hpins).run h.runFill).run h.runFilter
  obtain ⟨u, hrun, hsame⟩ := h.emitted hrw hsinkw le_rfl
  have hsb : u.sb = v.sb := by rw [hsame, emittedTo, h.same]
  have hob : u.ob = w.ob := by rw [hsame]; rfl
  have hend : emitJobAt (.iter n p) n.toNat = s.job := (emitJobAt_count (.iter n p)).trans hj.symm
  refine ⟨_, u, hexec, rfl, rfl, rfl, ?_, fun m => iter_phases h hr' hrv hrw hsinkw rfl, ?_, fun k hk => ?_,
    fun k hk => ?_, fun k hk => ?_, ?_⟩
  · rw [show 3 * n.toNat = n.toNat + (n.toNat + n.toNat) by omega, runFor_add h.runFill, runFor_add h.runFilter, hrun]
  · rw [hsame, emittedTo, hend, h.same]
    exact SameButPins.of_fields rfl rfl rfl rfl rfl rfl rfl rfl rfl
  · rw [hsb]; exact h.filled.read_state hk
  · rw [hob]; exact h.read_sample hk
  · rw [hsb, hob]; exact h.read_above hk
  · rw [hsame, emittedTo, h.same]; rfl

end Sys2Proof.Machine
end

section
/-! The stream law (44_stream.md R116) as a conservation law: S and the sink's history as the running command and the commands still to
issue will leave them are the same before and after every step without reset, however the host and the sink wait and the workers run. -/

namespace Sys2Proof.Machine

/-! ### What the running command will leave -/

/-- The state of entry j as the running part finds it (R113): an entry of SB, or an advance still to be made. -/
def stateAt (s : State) (done j : Nat) : U64 :=
  if j < done then (Memory.read s.sb j).getD 0 else nextN (j + 1 - done) s.S

/-- The sample that entry j of an ITER will send, in each part. -/
def sampleAt (s : State) : Work → Nat → S8
  | .fill done, j => filterOne s.cfg (stateAt s done j)
  | .filter todo _, j =>
    if j ∈ todo then filterOne s.cfg ((Memory.read s.sb j).getD 0) else (Memory.read s.ob j).getD 0
  | .emit _, j => (Memory.read s.ob j).getD 0

/-- How many bytes the sink has taken of the running command. -/
def Work.taken : Work → Nat
  | .fill _ => 0
  | .filter _ _ => 0
  | .emit taken => taken

/-- How many advances the running command has still to make. -/
def Job.advancesLeft (job : Job) : Nat :=
  match job.work with
  | .fill done => job.command.count - done
  | .filter _ _ => 0
  | .emit _ => 0

/-- S and the sink's history when the job has run to its end from `s`. -/
def completedWith (s : State) : Option Job → U64 × List (BitVec 8)
  | none => (s.S, s.sink)
  | some job => (nextN job.advancesLeft s.S,
      s.sink ++ ((List.range job.command.emitSteps).drop job.work.taken).map (sampleAt s job.work))

/-- S and the sink's history when the running command has completed. -/
def completed (s : State) : U64 × List (BitVec 8) := completedWith s s.job

theorem completed_of_idle {s : State} (h : s.job = none) : completed s = (s.S, s.sink) := by rw [completed, h]; rfl

theorem completed_setJob (s : State) (job : Option Job) : completed (State.setJob job s) = completedWith s job := rfl

theorem emitSteps_le_count (cmd : LongCommand) : cmd.emitSteps ≤ cmd.count := by
  cases cmd <;> simp [LongCommand.emitSteps, LongCommand.count]

/-! ### The end of a part and the start of the next promise the same -/

theorem completedWith_emitJobAt (s : State) {cmd : LongCommand} {k : Nat} (hk : k ≤ cmd.count) :
    completedWith s (emitJobAt cmd k) = completedWith s (some ⟨cmd, .emit k⟩) := by
  rcases hk.lt_or_eq with hlt | rfl
  · rw [emitJobAt_of_lt hlt]
  · rw [emitJobAt_count]
    simp [completedWith, Job.advancesLeft, Work.taken, emitSteps_le_count]

theorem completedWith_filterJobAt (s : State) (cmd : LongCommand) (todo active : List Nat) :
    completedWith s (filterJobAt cmd todo active) = completedWith s (some ⟨cmd, .filter todo active⟩) := by
  rcases eq_or_ne todo [] with rfl | htodo
  · rw [filterJobAt_nil]
    cases cmd with
    | fill n => simp [completedWith, afterFilterJob, Job.advancesLeft, LongCommand.emitSteps]
    | filter n p => simp [completedWith, afterFilterJob, Job.advancesLeft, LongCommand.emitSteps]
    | iter n p =>
      rw [afterFilterJob, emitJob_eq, completedWith_emitJobAt s (Nat.zero_le _)]
      simp [completedWith, Job.advancesLeft, Work.taken, sampleAt]
  · rw [filterJobAt_of_ne_nil htodo]

theorem completedWith_fillJobAt (s : State) {cmd : LongCommand} {k : Nat} (hk : k ≤ cmd.count) :
    completedWith s (fillJobAt cmd k) = completedWith s (some ⟨cmd, .fill k⟩) := by
  rcases hk.lt_or_eq with hlt | rfl
  · rw [fillJobAt_of_lt hlt]
  · rw [fillJobAt_count]
    cases cmd with
    | fill n => simp [completedWith, afterFillJob, Job.advancesLeft, LongCommand.emitSteps]
    | filter n p => simp [completedWith, afterFillJob, Job.advancesLeft, LongCommand.emitSteps]
    | iter n p =>
      rw [afterFillJob, filterJob_eq, completedWith_filterJobAt]
      simp +contextual [completedWith, Job.advancesLeft, Work.taken, sampleAt, stateAt, LongCommand.count,
        LongCommand.emitSteps]

/-! ### A step of the running command keeps its promise -/

theorem sampleAt_advanced (s : State) (k : Nat) :
    sampleAt (advanced k s) (.fill (k + 1)) = sampleAt s (.fill k) := by
  funext j
  have hstate : stateAt (advanced k s) (k + 1) j = stateAt s k j := by
    unfold stateAt
    rcases lt_trichotomy j k with hlt | rfl | hgt
    · rw [if_pos hlt, if_pos (by omega)]
      exact congrArg (Option.getD · 0) (Memory.read_write_other s.sb (next s.S) hlt.ne)
    · rw [if_pos j.lt_succ_self, if_neg (Nat.lt_irrefl j), Nat.add_sub_cancel_left]
      exact congrArg (Option.getD · 0) (Memory.read_write_same s.sb j (next s.S))
    · rw [if_neg (by omega), if_neg hgt.not_gt, show j + 1 - k = (j + 1 - (k + 1)) + 1 by omega]
      rfl
  rw [sampleAt, sampleAt, hstate]
  rfl

theorem completedWith_advanced (s : State) {cmd : LongCommand} {k : Nat} (hk : k < cmd.count) :
    completedWith (advanced k s) (some ⟨cmd, .fill (k + 1)⟩) = completedWith s (some ⟨cmd, .fill k⟩) := by
  have hleft : Job.advancesLeft ⟨cmd, .fill k⟩ = Job.advancesLeft ⟨cmd, .fill (k + 1)⟩ + 1 := by
    simp only [Job.advancesLeft]
    omega
  rw [completedWith, completedWith, sampleAt_advanced, hleft]
  rfl

theorem sampleAt_writeOB {s : State} {k : Nat} {x : U64} {todo active active' : List Nat} (hk : k ∈ todo)
    (hx : Memory.read s.sb k = some x) :
    sampleAt (State.writeOB k (filterOne s.cfg x) s) (.filter (todo.erase k) active') =
      sampleAt s (.filter todo active) := by
  funext j
  by_cases hjk : j = k
  · subst hjk
    simp [sampleAt, hk, hx]
  · simp [sampleAt, Memory.read_write_other s.ob _ hjk, List.mem_erase_of_ne hjk]

theorem completedWith_writeOB {s : State} {cmd : LongCommand} {k : Nat} {x : U64} {todo active active' : List Nat}
    (hk : k ∈ todo) (hx : Memory.read s.sb k = some x) :
    completedWith (State.writeOB k (filterOne s.cfg x) s) (some ⟨cmd, .filter (todo.erase k) active'⟩) =
      completedWith s (some ⟨cmd, .filter todo active⟩) := by
  rw [completedWith, completedWith, sampleAt_writeOB hk hx]
  rfl

theorem completedWith_pushSink {s : State} {cmd : LongCommand} {k : Nat} {b : BitVec 8} (hk : k < cmd.emitSteps)
    (hb : Memory.read s.ob k = some b) :
    completedWith (State.pushSink b s) (some ⟨cmd, .emit (k + 1)⟩) = completedWith s (some ⟨cmd, .emit k⟩) := by
  have hdrop : (List.range cmd.emitSteps).drop k = k :: (List.range cmd.emitSteps).drop (k + 1) := by
    rw [List.drop_eq_getElem_cons (by simpa using hk), List.getElem_range]
  have hsample : sampleAt s (.emit k) k = b := by simp [sampleAt, hb]
  simp only [completedWith, Work.taken, hdrop, List.map_cons, hsample, State.pushSink_sink, List.append_assoc,
    List.singleton_append]
  rfl

/-- No step of a busy command changes what it will leave: an advance, a worker's write and a byte taken each turn one item of the
promise into a fact. -/
theorem workOn_keeps_completed {s t : State} {job : Job} {inputs : Inputs} (hinv : JobInv s job)
    (hj : s.job = some job) (h : workOn job inputs s = .next t) : completed t = completed s := by
  have hs : completed s = completedWith s (some job) := by rw [completed, hj]
  obtain ⟨cmd, work⟩ := job
  rw [hs]
  cases work with
  | fill k =>
    obtain ⟨-, -, -, hk, -⟩ := hinv
    rw [workOn_fill] at h
    cases h
    rw [completed_setJob, nextFillJob_eq, completedWith_fillJobAt _ hk]
    exact completedWith_advanced s hk
  | filter todo active =>
    obtain ⟨-, -, -, htodo, -⟩ := hinv
    rw [workOn_filter, filterAdvance_eq] at h
    split at h <;> cases h
    next x hx =>
    rw [completed_setJob, nextFilterJob_eq, completedWith_filterJobAt]
    exact completedWith_writeOB (pickIndex_mem _ _ _ _ _ htodo) hx
  | emit k =>
    obtain ⟨-, -, ⟨n, p, rfl⟩, hk, -⟩ := hinv
    rw [workOn_emit, emitAdvance_eq] at h
    split at h
    · cases h
    next b hb =>
    split at h <;> cases h
    · rw [completed_setJob, nextEmitJob_eq, completedWith_emitJobAt _ hk]
      exact completedWith_pushSink hk hb
    · exact hs

/-! ### The meaning of a command at its acceptance is its promise -/

theorem streamStep_iter {cfg : Config} {n p : U32} (hp : p ≠ 0) (hn : n.toNat ≤ cfg.bufDepth) (S : U64) :
    streamStep cfg S (.iter n p) =
      (nextN n.toNat S, (List.range n.toNat).map fun k => filterOne cfg (nextN (k + 1) S)) :=
  if_neg (not_or.mpr ⟨hp, Nat.not_lt.mpr hn⟩)

theorem streamStep_fill {cfg : Config} {n : U32} (hn : n.toNat ≤ cfg.bufDepth) (S : U64) :
    streamStep cfg S (.fill n) = (nextN n.toNat S, []) := if_neg (Nat.not_lt.mpr hn)

/-- A long command that starts will leave what `streamStep` says of it. -/
theorem completedWith_startJob {s : State} {cmd : LongCommand} (hcount : cmd.count ≤ s.cfg.bufDepth)
    (hchunks : 1 ≤ cmd.chunks) :
    completedWith s (startJob cmd) =
      ((streamStep s.cfg s.S cmd.instr).1, s.sink ++ (streamStep s.cfg s.S cmd.instr).2) := by
  cases cmd with
  | fill n =>
    rw [startJob, fillJob_eq, completedWith_fillJobAt s (Nat.zero_le _), LongCommand.instr, streamStep_fill hcount]
    rfl
  | filter n p =>
    rw [startJob, filterJob_eq, completedWith_filterJobAt]
    rfl
  | iter n p =>
    have hp : p ≠ 0 := by
      rintro rfl
      simp [LongCommand.chunks] at hchunks
    have hsample : sampleAt s (.fill 0) = fun k => filterOne s.cfg (nextN (k + 1) s.S) := rfl
    rw [startJob, fillJob_eq, completedWith_fillJobAt s (Nat.zero_le _), LongCommand.instr, streamStep_iter hp hcount,
      completedWith, hsample]
    rfl

/-- An idle core that stays so promises what S has become and no byte. -/
theorem completed_of_stays_idle {s t : State} {x : U64} (hj : s.job = none) (hS : t.S = x) (hjob : t.job = s.job)
    (hsink : t.sink = s.sink) : completed t = (x, s.sink ++ []) := by
  rw [completed_of_idle (hjob.trans hj), hS, hsink, List.append_nil]

/-- Every meaning but those of SEED, STEP and the long commands leaves S and the sequencer as they were. -/
theorem exec_keeps_stream {i : Instr} {s t : State} (h : exec i s = .next t) (hlong : ∀ cmd : LongCommand, i ≠ cmd.instr)
    (hstep : i ≠ .step) (hseed : ∀ x, i ≠ .seed x) : t.S = s.S ∧ t.job = s.job := by
  obtain ⟨-, -, hS, -⟩ := exec_writes h
  constructor
  · rcases hS with hS | ⟨hi, -⟩ | ⟨x, hi, -⟩
    · exact hS
    · exact absurd hi hstep
    · exact absurd hi (hseed x)
  · rcases exec_job h with hjob | ⟨cmd, hi, -⟩
    · exact hjob
    · exact absurd hi (hlong cmd)

/-- What a command accepted by an idle core will leave is what `streamStep` says of it, rejected or not. -/
theorem completed_of_exec {i : Instr} {s t : State} (hj : s.job = none) (h : exec i s = .next t) :
    completed t = ((streamStep s.cfg s.S i).1, s.sink ++ (streamStep s.cfg s.S i).2) := by
  cases i with
  | fill n =>
    rw [exec_fill] at h
    rcases withCount_cases n s _ with ⟨hn, e⟩ | ⟨hn, e⟩ <;> rw [e] at h <;> cases h
    · rw [streamStep, if_pos hn]
      exact completed_of_stays_idle hj rfl rfl rfl
    · exact completedWith_startJob (cmd := .fill n) hn (le_refl 1)
  | filter n p =>
    rw [exec_filter] at h
    rcases withCountAndChunks_cases n p s _ with ⟨_, e⟩ | ⟨_, _, e⟩ | ⟨hp, hn, e⟩ <;> rw [e] at h <;> cases h
    · exact completed_of_stays_idle hj rfl rfl rfl
    · exact completed_of_stays_idle hj rfl rfl rfl
    · exact completedWith_startJob (cmd := .filter n p) hn (BitVec.toNat_pos_of_ne_zero hp)
  | iter n p =>
    rw [exec_iter] at h
    rcases withCountAndChunks_cases n p s _ with ⟨hp, e⟩ | ⟨_, hn, e⟩ | ⟨hp, hn, e⟩ <;> rw [e] at h <;> cases h
    · rw [streamStep, if_pos (.inl hp)]
      exact completed_of_stays_idle hj rfl rfl rfl
    · rw [streamStep, if_pos (.inr hn)]
      exact completed_of_stays_idle hj rfl rfl rfl
    · exact completedWith_startJob (cmd := .iter n p) hn (BitVec.toNat_pos_of_ne_zero hp)
  | seed x =>
    rw [exec_seed] at h
    cases h
    exact completed_of_stays_idle hj rfl rfl rfl
  | step =>
    rw [exec_step] at h
    cases h
    exact completed_of_stays_idle hj rfl rfl rfl
  | _ =>
    obtain ⟨hS, hjob⟩ := exec_keeps_stream h (fun cmd => by cases cmd <;> nofun) nofun nofun
    obtain ⟨-, -, hsink, -⟩ := exec_keeps_outside h
    exact completed_of_stays_idle hj hS hjob hsink

/-! ### The law (R116) -/

/-- S and the sink's history when the running command and all the commands still to issue have completed. -/
def promised (s : State) : U64 × List (BitVec 8) :=
  let rest := streamRun s.cfg (completed s).1 s.host
  (rest.1, (completed s).2 ++ rest.2)

theorem promised_of_ended {s : State} (h : RunEnded s) : promised s = (s.S, s.sink) := by
  obtain ⟨hhost, hbusy⟩ := h
  have hj : s.job = none := Option.isNone_iff_eq_none.mp (by simpa [State.busy] using hbusy)
  rw [promised, hhost, completed_of_idle hj, streamRun, List.append_nil]

theorem promised_of_idle {s : State} (hj : s.job = none) :
    promised s = ((streamRun s.cfg s.S s.host).1, s.sink ++ (streamRun s.cfg s.S s.host).2) := by
  rw [promised, completed_of_idle hj]

/-- An idle core that accepts a command moves its part of the promise from the host's list to the running command. -/
theorem promised_of_acceptance {s t : State} {c : Command} {cs : List Command} (hj : s.job = none)
    (hhost : s.host = c :: cs) (hcfg : t.cfg = s.cfg) (hrest : t.host = cs)
    (hdone : completed t = ((streamCommand s.cfg s.S c).1, s.sink ++ (streamCommand s.cfg s.S c).2)) :
    promised t = promised s := by
  rw [promised_of_idle hj, promised, hdone, hcfg, hrest, hhost, streamRun, List.append_assoc]

/-- What `CoreInv` says of the sequencer is kept without what it says of the form of the buffers, of which the law assumes nothing. -/
theorem workOn_keeps_jobsInv {job : Job} {inputs : Inputs} {s t : State} (hs : JobsInv s s.job) (hj : s.job = some job)
    (h : workOn job inputs s = .next t) : JobsInv t t.job := by
  have hjob := hs job hj
  obtain ⟨cmd, work⟩ := job
  cases work with
  | fill k =>
    rw [workOn_fill] at h
    cases h
    exact jobsInv_nextFillJob hjob
  | filter todo active =>
    rw [workOn_filter, filterAdvance_eq] at h
    split at h <;> cases h
    next x hx => exact jobsInv_nextFilterJob hjob hx
  | emit k =>
    rw [workOn_emit, emitAdvance_eq] at h
    split at h
    · cases h
    split at h <;> cases h
    · exact jobsInv_nextEmitJob hjob
    · exact hs

theorem step_keeps_jobsInv {s t : State} (hs : JobsInv s s.job) (h : step s = .next t) : JobsInv t t.job := by
  cases stepsTo_of_step h with
  | reset _ ht => subst ht; exact jobsInv_none _
  | work _ job hj hw => exact workOn_keeps_jobsInv (s := State.clock s) hs hj hw
  | idle _ _ ht => subst ht; exact hs
  | accept _ hj _ _ i _ _ hx =>
    obtain ⟨-, hcfg, -⟩ := exec_keeps_outside hx
    rcases exec_job hx with hkept | ⟨cmd, -, hcount, hchunks, hstart⟩
    · rw [hkept, afterAcceptance_job, hj]; exact jobsInv_none t
    · rw [hstart]; exact jobsInv_startJob (hcfg ▸ hcount) hchunks
  | reject _ _ _ _ ht => subst ht; exact hs

theorem step_keeps_promised {s t : State} (hinv : JobsInv s s.job) (hr : s.inputs.rst = false)
    (h : step s = .next t) : promised t = promised s := by
  rcases step_cases s with ⟨hrst, -⟩ | ⟨-, ⟨job, hj, e⟩ | ⟨hj, -, e⟩ | ⟨hj, c, cs, i, hhost, hd, -, e⟩ |
    ⟨hj, c, cs, code, hhost, hd, -, e⟩⟩
  · rw [hr] at hrst; cases hrst
  · rw [e] at h
    obtain ⟨-, hcfg, hhost⟩ := workOn_keeps_outside h
    rw [promised, workOn_keeps_completed (s := State.clock s) (hinv job hj) hj h, hcfg, hhost]
    rfl
  · rw [e] at h
    cases h
    rfl
  · rw [e] at h
    obtain ⟨-, hcfg, -, hrest⟩ := exec_keeps_outside h
    have hdone := completed_of_exec (s := afterAcceptance s) hj h
    refine promised_of_acceptance hj hhost hcfg (hrest.trans (congrArg List.tail hhost)) ?_
    rw [streamCommand, hd]
    exact hdone
  · rw [e] at h
    cases h
    refine promised_of_acceptance hj hhost rfl (congrArg List.tail hhost) ?_
    rw [streamCommand, hd]
    exact completed_of_stays_idle hj rfl rfl rfl

/-- `t` is on the way from `s` to the end of a run with no reset: what was promised at `s` is promised still. -/
structure OnTheWay (s t : State) : Prop where
  noReset : NoReset t
  jobsInv : JobsInv t t.job
  kept : promised t = promised s

theorem OnTheWay.step {s t u : State} (h : OnTheWay s t) (hstep : Machine.step t = .next u) : OnTheWay s u :=
  ⟨h.noReset.step hstep, step_keeps_jobsInv h.jobsInv hstep,
    (step_keeps_promised h.jobsInv h.noReset.1 hstep).trans h.kept⟩

/-- Settles O47: a run keeps what is promised (`step_keeps_promised`), and at its end that is S and the sink's history. -/
theorem streamLaw : Obligations.StreamLaw := by
  intro s u steps hj hr hrun hended
  have hway : OnTheWay s u := runFor_keeps (fun _ _ => OnTheWay.step) ⟨hr, hj ▸ jobsInv_none s, rfl⟩ hrun
  have hkept := hway.kept
  rw [promised_of_ended hended, promised_of_idle hj] at hkept
  exact Prod.mk.inj hkept

/-! ### A host that issues ITERs (R116) -/

/-- The host's list for ITERs of the given N and P. -/
def itersOf (counts : List (U32 × U32)) : List Command := counts.map fun np => encode (.iter np.1 np.2)

/-- T, the sum of the counts. -/
def totalOf (counts : List (U32 × U32)) : Nat := (counts.map fun np => np.1.toNat).sum

/-- ITERs of legal counts one after another give one stream: the advances of each go on from those before. -/
theorem streamRun_iters {cfg : Config} {counts : List (U32 × U32)}
    (h : ∀ np ∈ counts, np.1.toNat ≤ cfg.bufDepth ∧ np.2 ≠ 0) (S : U64) :
    streamRun cfg S (itersOf counts) =
      (nextN (totalOf counts) S, (List.range (totalOf counts)).map fun t => filterOne cfg (nextN (t + 1) S)) := by
  induction counts generalizing S with
  | nil => rfl
  | cons np counts ih =>
    obtain ⟨⟨hn, hp⟩, hrest⟩ := List.forall_mem_cons.mp h
    have htotal : totalOf (np :: counts) = np.1.toNat + totalOf counts := rfl
    have hfirst : streamCommand cfg S (encode (.iter np.1 np.2)) = streamStep cfg S (.iter np.1 np.2) := by
      rw [streamCommand, decodeOfEncode (.iter np.1 np.2) rfl]
    have hshift : ∀ t, nextN (np.1.toNat + t + 1) S = nextN (t + 1) (nextN np.1.toNat S) := fun t => by
      rw [Nat.add_assoc, nextN_add]
    rw [show itersOf (np :: counts) = encode (.iter np.1 np.2) :: itersOf counts from rfl, streamRun, hfirst,
      streamStep_iter hp hn, ih hrest, htotal, nextN_add, List.range_add, List.map_append, List.map_map]
    simp only [Function.comp_def, hshift]

/-- With a host, a sink and a reset pin that hold nothing up, the ITERs run to their end one after another. -/
theorem iters_run_to_end {counts : List (U32 × U32)} {s : State} (hj : s.job = none) (hr : NoReset s)
    (hsink : SinkReady s) (hhost : HostReady s) (h : ∀ np ∈ counts, np.1.toNat ≤ s.cfg.bufDepth ∧ np.2 ≠ 0)
    (hlist : s.host = itersOf counts) : ∃ steps u, runFor steps s = .next u ∧ RunEnded u := by
  induction counts generalizing s with
  | nil => exact ⟨0, s, rfl, hlist, by rw [State.busy, hj]; rfl⟩
  | cons np counts ih =>
    obtain ⟨⟨hn, hp⟩, hrest⟩ := List.forall_mem_cons.mp h
    have hstep := step_of_accept hr.1 hj hhost.1 hlist (decodeOfEncode (.iter np.1 np.2) rfl)
    obtain ⟨t, v, hexec, -, -, -, hrun, -, hsame, -⟩ :=
      iterFillsFiltersAndEmits np.1 np.2 (afterAcceptance s) hj hr.clock hsink.clock hp hn
    have hrun' : runFor (3 * np.1.toNat + 1) s = .next v := runFor_succ_iff.mpr ⟨t, hstep.trans hexec, hrun⟩
    have hjv : v.job = none := hsame.job.trans hj
    have hcfg : v.cfg = s.cfg := by rw [hsame]; rfl
    have hlistv : v.host = itersOf counts := by
      rw [hsame]
      exact congrArg List.tail hlist
    obtain ⟨steps, u, hrunu, hended⟩ :=
      ih hjv (hr.run hrun') (hsink.run hrun') (hhost.run hrun') (by rwa [hcfg]) hlistv
    exact ⟨_, u, by rw [runFor_add hrun', hrunu], hended⟩

/-- Settles O46: the ITERs run to their end (`iters_run_to_end`), and the stream law says what that end is. -/
theorem streamOfIterations : Obligations.StreamOfIterations := by
  intro s counts hj hr hsink hhost h hlist
  obtain ⟨steps, u, hrun, hended⟩ := iters_run_to_end hj hr hsink hhost h hlist
  obtain ⟨hS, hbytes⟩ := streamLaw s u steps hj hr hrun hended
  rw [hlist, show counts.map (fun np => encode (.iter np.1 np.2)) = itersOf counts from rfl, streamRun_iters h] at hS hbytes
  exact ⟨steps, u, hrun, hended, hS, hbytes⟩

end Sys2Proof.Machine
end

section
/-! The host access commands (45_host_access.md R118 to R121), each at a written, an unwritten and an outside address (20_memory.md R45,
60_exceptions.md R127). -/

namespace Sys2Proof.Machine

/-- Settles O15: the meaning of NOP is the acceptance alone. -/
theorem nopOnlyClearsErr : Obligations.NopOnlyClearsErr := exec_nop

/-! ### Commands with an address, at an entry of the buffer -/

variable {a : EntryAddr} {s : State}

theorem exec_sbwr_of_lt (h : a.toNat < s.cfg.bufDepth) (x : U64) :
    exec (.sbwr a x) s = .next (State.writeSB a.toNat x (State.accept s)) := by
  rw [exec_sbwr, withEntry_accepts h]

theorem exec_sbrd_of_written (h : a.toNat < s.cfg.bufDepth) {x : U64} (hx : Memory.read s.sb a.toNat = some x) :
    exec (.sbrd a) s = .next (State.setResult x (State.accept s)) := by
  rw [exec_sbrd, withEntry_accepts h, hx]

theorem exec_sbrd_of_unwritten (h : a.toNat < s.cfg.bufDepth) (hnone : Memory.read s.sb a.toNat = none) :
    exec (.sbrd a) s = .fault (.unwrittenState a.toNat) := by
  rw [exec_sbrd, withEntry_accepts h, hnone]

theorem exec_obrd_of_written (h : a.toNat < s.cfg.bufDepth) {b : S8} (hb : Memory.read s.ob a.toNat = some b) :
    exec (.obrd a) s = .next (State.setResult (sext64 b) (State.accept s)) := by
  rw [exec_obrd, withEntry_accepts h, hb]

theorem exec_obrd_of_unwritten (h : a.toNat < s.cfg.bufDepth) (hnone : Memory.read s.ob a.toNat = none) :
    exec (.obrd a) s = .fault (.unwrittenSample a.toNat) := by
  rw [exec_obrd, withEntry_accepts h, hnone]

/-! ### SBWR, SBRD and OBRD at every address -/

/-- Settles O21: an accepted SBWR makes one `Memory.write`, whose reads are known (`Memory.read_write`). -/
theorem sbwrWritesOneEntry : Obligations.SbwrWritesOneEntry := by
  refine fun a x s => ⟨fun h => ⟨_, exec_sbwr_of_lt h x, rfl, fun k => ?_⟩, fun h => ?_⟩
  · exact Memory.read_write s.sb a.toNat k x
  · exact (exec_sbwr s a x).trans (withEntry_rejects h _)

/-- Settles O22: whether the entry is written decides what an accepted SBRD answers. -/
theorem sbrdReadsOneEntry : Obligations.SbrdReadsOneEntry := by
  refine fun a s => ⟨fun h x hx => ?written, fun h hnone => ?unwritten, fun h => ?outside⟩
  case written => exact exec_sbrd_of_written h hx
  case unwritten => exact exec_sbrd_of_unwritten h hnone
  case outside => exact (exec_sbrd s a).trans (withEntry_rejects h _)

/-- Settles O23: as for SBRD, and the sign extension keeps the sample's value (`sext64_toInt`). -/
theorem obrdReadsOneSample : Obligations.ObrdReadsOneSample := by
  refine fun a s => ⟨fun h b hb => ?written, fun h hnone => ?unwritten, fun h => ?outside⟩
  case written => exact ⟨_, exec_obrd_of_written h hb, rfl, sext64_toInt (by decide) b⟩
  case unwritten => exact exec_obrd_of_unwritten h hnone
  case outside => exact (exec_obrd s a).trans (withEntry_rejects h _)

end Sys2Proof.Machine
end

section
/-! The checks at acceptance and the idle core (60_exceptions.md R127, R128, 70_reset_and_hazards.md R139): the decoder's checks and those of the
meanings are, in this order, the checks of R128 on the command's numbers. -/

namespace Sys2Proof.Machine

/-- Settles O12: the event is idle, and only the clock moves. -/
theorem idleCoreKeepsAllState : Obligations.IdleCoreKeepsAllState :=
  fun s hj hv hr => ⟨_, step_of_idle hr hj hv, SameButPins.clock s⟩

/-! ### The checks left to the meanings (R73, R128) -/

/-- Check 4 of formats C and CP. -/
def countCode (depth : Nat) (n : U32) : ErrCode := if depth < n.toNat then .range else .ok

/-- Check 3, then check 4, of format CP. -/
def countAndChunksCode (depth : Nat) (n p : U32) : ErrCode := if p = 0 then .badOperand else countCode depth n

/-- Check 4 of formats A and AV. -/
def entryCode (depth : Nat) (a : EntryAddr) : ErrCode := if depth ≤ a.toNat then .range else .ok

/-- The code the meaning of a decoded instruction reports. -/
def meaningCode (depth : Nat) : Instr → ErrCode
  | .nop => .ok
  | .seed _ => .ok
  | .step => .ok
  | .fill n => countCode depth n
  | .lutrd _ _ => .ok
  | .acc _ => .ok
  | .filt1 _ => .ok
  | .filter n p => countAndChunksCode depth n p
  | .iter n p => countAndChunksCode depth n p
  | .sbwr a _ => entryCode depth a
  | .sbrd a => entryCode depth a
  | .obrd a => entryCode depth a
  | .illegal _ _ => .illegalOp

/-- What an answer given from `s` makes of a code: a rejection raises it and does nothing else, an acceptance leaves ERR = 0 (R27, R127). -/
def Reports (code : ErrCode) (s : State) (answer : Answer) : Prop :=
  (code ≠ .ok → answer = .next (State.raise code s)) ∧ (code = .ok → ∀ t, answer = .next t → t.err = .ok)

section
variable {s : State} {f : State → Answer}

theorem reports_raise {code : ErrCode} (h : code ≠ .ok) : Reports code s (.next (State.raise code s)) :=
  ⟨fun _ => rfl, fun hok => absurd hok h⟩

theorem reports_next {t : State} (h : t.err = .ok) : Reports .ok s (.next t) :=
  ⟨fun hne => absurd rfl hne, fun _ _ ht => Host.Outcome.next.inj ht ▸ h⟩

theorem reports_fault (fault : Fault) : Reports .ok s (.fault fault) :=
  ⟨fun hne => absurd rfl hne, fun _ _ ht => nomatch ht⟩

theorem reports_withCount {n : U32} (hf : Reports .ok s (f s)) :
    Reports (countCode s.cfg.bufDepth n) s (withCount n s f) := by
  rcases withCount_cases n s f with ⟨h, e⟩ | ⟨h, e⟩ <;> rw [e, countCode]
  · rw [if_pos h]; exact reports_raise (by decide)
  · rw [if_neg (Nat.not_lt.mpr h)]; exact hf

theorem reports_withCountAndChunks {n p : U32} (hf : Reports .ok s (f s)) :
    Reports (countAndChunksCode s.cfg.bufDepth n p) s (withCountAndChunks n p s f) := by
  rcases withCountAndChunks_cases n p s f with ⟨hp, e⟩ | ⟨hp, h, e⟩ | ⟨hp, h, e⟩ <;> rw [e, countAndChunksCode]
  · rw [if_pos hp]; exact reports_raise (by decide)
  · rw [if_neg hp, countCode, if_pos h]; exact reports_raise (by decide)
  · rw [if_neg hp, countCode, if_neg (Nat.not_lt.mpr h)]; exact hf

theorem reports_withEntry {a : EntryAddr} {g : Nat → State → Answer} (hg : Reports .ok s (g a.toNat s)) :
    Reports (entryCode s.cfg.bufDepth a) s (withEntry a s g) := by
  rcases withEntry_cases a s g with ⟨h, e⟩ | ⟨h, e⟩ <;> rw [e, entryCode]
  · rw [if_pos h]; exact reports_raise (by decide)
  · rw [if_neg (Nat.not_le.mpr h)]; exact hg

end

/-- R127, R128: every meaning reports its code. -/
theorem exec_reports (i : Instr) (s : State) : Reports (meaningCode s.cfg.bufDepth i) s (exec i s) := by
  cases i with
  | fill n => rw [exec_fill]; exact reports_withCount (reports_next rfl)
  | filter n p => rw [exec_filter]; exact reports_withCountAndChunks (reports_next rfl)
  | iter n p => rw [exec_iter]; exact reports_withCountAndChunks (reports_next rfl)
  | sbwr a x => rw [exec_sbwr]; exact reports_withEntry (reports_next rfl)
  | sbrd a =>
    rw [exec_sbrd]
    refine reports_withEntry ?_
    split
    · exact reports_fault _
    · exact reports_next rfl
  | obrd a =>
    rw [exec_obrd]
    refine reports_withEntry ?_
    split
    · exact reports_fault _
    · exact reports_next rfl
  | illegal w o => exact reports_raise (code := .illegalOp) (by decide)
  | _ => exact reports_next rfl

/-! ### The checks in their order, on the command and on its numbers -/

/-- The code of a command: the decoder's, or that of the meaning it decodes to. -/
def commandCode (depth : Nat) (c : Command) : ErrCode :=
  match decode c with
  | .ok i => meaningCode depth i
  | .error code => code

/-- What the decoder rejects with is an error (R70). -/
theorem ne_ok_of_decode_error {c : Command} {code : ErrCode} (h : decode c = .error code) : code ≠ .ok := by
  unfold decode at h
  split at h
  · cases h
  · split_ifs at h <;> cases h <;> decide

/-- An opcode with a format is legal (R67, R69). -/
theorem opField_lt_of_format {w : U32} {f : Format} (h : formatOf (opField w) = some f) : (opField w).toNat < 12 := by
  by_contra hge
  rw [opField_toNat, not_lt, ← illegalWord_iff, ← formatOf_eq_none_iff, h] at hge
  cases hge

/-- A legal opcode's command passes the checks of its fields one after the other, then those of its meaning (R128). -/
theorem commandCode_of_format {c : Command} {f : Format} (depth : Nat) (hf : formatOf (opField c.word) = some f) :
    commandCode depth c =
      if rsvField c.word ≠ 0 then .reservedField
      else if f.usesAddr = false ∧ addrField c.word ≠ 0 then .reservedField
      else if f.operandExcess c.operand = true then .badOperand
      else meaningCode depth (instrOf c) := by
  rw [commandCode, decode, hf]
  dsimp only
  split_ifs <;> rfl

/-- The bits format T does not use, as a number (R65). -/
theorem tableExcess_toNat (o : U64) : (o.extractLsb' 11 53).toNat = o.toNat / 2 ^ 11 := by
  have := o.isLt
  simp [Nat.shiftRight_eq_div_pow]
  omega

/-- The checks of R128 on the two numbers are the core's on the word and the operand, opcode by opcode (R67). -/
theorem checkCode_eq_commandCode (depth : Nat) (c : Command) :
    checkCode depth c.word.toNat c.operand.toNat = commandCode depth c := by
  rw [checkCode, ← opField_toNat, ← rsvField_toNat, ← addrField_toNat, ← countField_toNat, ← chunksField_toNat,
    ← tableExcess_toNat]
  cases hf : formatOf (opField c.word) with
  | none =>
    have hill := (formatOf_eq_none_iff c.word).mp hf
    rw [commandCode, decode_of_illegal hill, opField_toNat, if_pos ((illegalWord_iff c.word).mp hill)]
    rfl
  | some f =>
    rw [commandCode_of_format depth hf]
    have hlegal := opField_lt_of_format hf
    generalize hop : (opField c.word).toNat = op at hlegal ⊢
    interval_cases op
    all_goals
      simp only [formatOf, hop, Option.some.injEq] at hf
      subst hf
      simp [instrOf, hop, Format.usesAddr, Format.operandExcess, chunksField, meaningCode, countCode,
        countAndChunksCode, entryCode, ← BitVec.toNat_inj]

/-- Settles O7: the decoder rejects with its code, and a meaning reports its own (`exec_reports`). -/
theorem acceptanceReportsTheFirstFailingCheck : Obligations.AcceptanceReportsTheFirstFailingCheck := by
  intro s c hp
  dsimp only
  rw [checkCode_eq_commandCode, commandCode]
  cases hd : decode c with
  | ok i =>
    have hstep := stepRunsTheDecodedCommand s c i hp hd
    obtain ⟨hreject, haccept⟩ := exec_reports i (afterAcceptance s)
    exact ⟨fun hne => hstep.trans (hreject hne), fun hok => ⟨i, rfl, hstep, fun t ht => haccept hok t (hstep ▸ ht)⟩⟩
  | error code =>
    obtain ⟨hidle, hrst, hvalid, hhead⟩ := hp
    obtain ⟨cs, hhost⟩ := List.head?_eq_some_iff.mp hhead
    exact ⟨fun _ => step_of_reject hrst hidle hvalid hhost hd, fun hok => absurd hok (ne_ok_of_decode_error hd)⟩

end Sys2Proof.Machine
end

section
/-! Progress and reset (70_reset_and_hazards.md R141, R142, R152): each step of a busy command that the sink does not hold up leaves one
step less to go, and a step with reset asserted ends every command. -/

namespace Sys2Proof.Machine

/-! ### The steps left of a job -/

/-- Steps left of the job, if there is one. -/
def leftOf (job : Option Job) : Nat := (job.map Job.left).getD 0

@[simp] theorem leftOf_none : leftOf none = 0 := rfl

@[simp] theorem leftOf_some (job : Job) : leftOf (some job) = job.left := rfl

theorem left_fill (cmd : LongCommand) (k : Nat) :
    Job.left ⟨cmd, .fill k⟩ = cmd.count - k + (cmd.filterSteps + cmd.emitSteps) := rfl

theorem left_filter (cmd : LongCommand) (todo active : List Nat) :
    Job.left ⟨cmd, .filter todo active⟩ = todo.length + cmd.emitSteps := rfl

theorem left_emit (cmd : LongCommand) (k : Nat) : Job.left ⟨cmd, .emit k⟩ = cmd.count - k := rfl

theorem stepsLeft_of_job {s : State} {job : Job} (hj : s.job = some job) : stepsLeft s = job.left := by
  rw [stepsLeft, hj]; rfl

theorem stepsLeft_eq (s : State) : stepsLeft s = leftOf s.job := rfl

theorem leftOf_emitJobAt (cmd : LongCommand) (k : Nat) : leftOf (emitJobAt cmd k) = cmd.count - k := by
  unfold emitJobAt
  split
  · rfl
  · next h => exact (Nat.sub_eq_zero_of_le (Nat.not_lt.mp h)).symm

/-- The join is followed by part 3, one step for each byte, or by nothing. -/
theorem leftOf_afterFilterJob (cmd : LongCommand) : leftOf (afterFilterJob cmd) = cmd.emitSteps := by
  cases cmd with
  | fill n => rfl
  | filter n p => rfl
  | iter n p => exact (congrArg leftOf (emitJob_eq _)).trans (leftOf_emitJobAt _ 0)

theorem leftOf_filterJobAt (cmd : LongCommand) (todo active : List Nat) :
    leftOf (filterJobAt cmd todo active) = todo.length + cmd.emitSteps := by
  rcases eq_or_ne todo [] with rfl | htodo
  · rw [filterJobAt_nil, leftOf_afterFilterJob, List.length_nil, Nat.zero_add]
  · rw [filterJobAt_of_ne_nil htodo]; rfl

/-- The last advance is followed by part 2, one step for each entry, or by nothing. -/
theorem leftOf_afterFillJob {cmd : LongCommand} (hcmd : ∀ n p, cmd ≠ .filter n p) :
    leftOf (afterFillJob cmd) = cmd.filterSteps + cmd.emitSteps := by
  cases cmd with
  | fill n => rfl
  | filter n p => exact absurd rfl (hcmd n p)
  | iter n p =>
    rw [afterFillJob, filterJob_eq, leftOf_filterJobAt, List.length_range]
    rfl

theorem leftOf_fillJobAt {cmd : LongCommand} {k : Nat} (hcmd : ∀ n p, cmd ≠ .filter n p) (hk : k ≤ cmd.count) :
    leftOf (fillJobAt cmd k) = cmd.count - k + (cmd.filterSteps + cmd.emitSteps) := by
  rcases hk.lt_or_eq with hlt | rfl
  · rw [fillJobAt_of_lt hlt]; rfl
  · rw [fillJobAt_count, leftOf_afterFillJob hcmd, Nat.sub_self, Nat.zero_add]

/-- A busy command always has a step to go. -/
theorem left_pos_of_jobInv {s : State} {job : Job} (h : JobInv s job) : 0 < job.left := by
  obtain ⟨cmd, work⟩ := job
  cases work with
  | fill k =>
    obtain ⟨-, -, -, hk, -⟩ := h
    exact Nat.add_pos_left (Nat.sub_pos_of_lt hk) _
  | filter todo active =>
    obtain ⟨-, -, -, htodo, -⟩ := h
    exact Nat.add_pos_left (List.length_pos_iff.mpr htodo) _
  | emit k =>
    obtain ⟨-, -, -, hk, -⟩ := h
    exact Nat.sub_pos_of_lt hk

theorem stepsLeft_eq_zero_iff {s : State} (h : CoreInv s) : stepsLeft s = 0 ↔ State.busy s = false := by
  obtain ⟨-, -, hjobs⟩ := h
  rw [stepsLeft_eq, State.busy]
  cases hj : s.job with
  | none => simp
  | some job => simp [(left_pos_of_jobInv (hjobs job hj)).ne']

/-! ### One step of each part (R152) -/

theorem fill_step_left {s : State} {cmd : LongCommand} {k : Nat} (hi : CoreInv s) (hr : s.inputs.rst = false)
    (hj : s.job = some ⟨cmd, .fill k⟩) : ∃ t, step s = .next t ∧ stepsLeft t + 1 = stepsLeft s := by
  obtain ⟨-, -, hjobs⟩ := hi
  obtain ⟨-, -, hcmd, hk, -⟩ := hjobs _ hj
  refine ⟨_, (step_of_work hr hj).trans (workOn_fill cmd k _ _), ?_⟩
  change k < cmd.count at hk
  rw [stepsLeft_eq, State.setJob_job, nextFillJob_eq, leftOf_fillJobAt (cmd := cmd) hcmd hk, stepsLeft_of_job hj, left_fill]
  omega

/-- A worker's step takes one index off those left, or is the fault of R45 at one of them. -/
theorem filter_step_left {s : State} {cmd : LongCommand} {todo active : List Nat} (hr : s.inputs.rst = false)
    (hj : s.job = some ⟨cmd, .filter todo active⟩) (htodo : todo ≠ []) :
    (∃ t, step s = .next t ∧ stepsLeft t + 1 = stepsLeft s) ∨
      ∃ k ∈ todo, ¬ StateWritten s k ∧ step s = .fault (.unwrittenState k) := by
  obtain ⟨k, hk, ⟨hunwritten, hstep⟩ | ⟨-, t, hstep, -, hjob⟩⟩ := filter_step_cases hr hj htodo
  · exact .inr ⟨k, hk, hunwritten, hstep⟩
  · refine .inl ⟨t, hstep, ?_⟩
    rw [stepsLeft_eq, hjob, nextFilterJob_eq, leftOf_filterJobAt, stepsLeft_of_job hj, left_filter,
      ← List.length_erase_add_one hk, Nat.add_right_comm]

theorem emit_step_left {s : State} {cmd : LongCommand} {k : Nat} (hi : CoreInv s) (hr : s.inputs.rst = false)
    (hj : s.job = some ⟨cmd, .emit k⟩) (hready : s.inputs.sampleReady = true) :
    ∃ t, step s = .next t ∧ stepsLeft t + 1 = stepsLeft s := by
  obtain ⟨b, hb⟩ := emit_reads_of_coreInv hi hj
  obtain ⟨-, -, hjobs⟩ := hi
  obtain ⟨-, -, -, hk, -⟩ := hjobs _ hj
  refine ⟨_, step_of_taken hr hj hb hready, ?_⟩
  rw [stepsLeft_eq, State.setJob_job, nextEmitJob_eq, leftOf_emitJobAt, stepsLeft_of_job hj, left_emit]
  change k < cmd.count at hk
  omega

/-- Settles O58: one lemma for each part; in part 2 an ITER has every state written, so the fault is a FILTER's. -/
theorem busyStepsMakeProgress : Obligations.BusyStepsMakeProgress := by
  intro s hi hr hb hsink
  have hprogress (h : ∃ t, step s = .next t ∧ stepsLeft t + 1 = stepsLeft s) :
      ∃ t, step s = .next t ∧ stepsLeft t + 1 = stepsLeft s ∧ (stepsLeft t = 0 ↔ State.busy t = false) := by
    obtain ⟨t, hstep, hleft⟩ := h
    exact ⟨t, hstep, hleft, stepsLeft_eq_zero_iff (invariantKeptByEveryStep s t hi hstep)⟩
  obtain ⟨⟨cmd, work⟩, hj⟩ := (busy_iff s).mp hb
  cases work with
  | fill k => exact .inl (hprogress (fill_step_left hi hr hj))
  | emit k => exact .inl (hprogress (emit_step_left hi hr hj (hsink ⟨cmd, k, hj⟩)))
  | filter todo active =>
    have ⟨_, _, hjobs⟩ := hi
    obtain ⟨-, -, -, htodo, -, hbelow, -, hwritten, -⟩ := hjobs _ hj
    rcases filter_step_left hr hj htodo with h | ⟨a, ha, hunwritten, hstep⟩
    · exact .inl (hprogress h)
    · rcases filters_of_coreInv hi hj with ⟨n, p, rfl⟩ | ⟨n, p, rfl⟩
      · exact .inr ⟨a, n, p, todo, active, hstep, hj, hbelow a ha, hunwritten⟩
      · exact absurd (hwritten n p rfl a (hbelow a ha)) hunwritten

/-! ### The run of a busy FILL or ITER (R152) -/

/-- With no FILTER busy, the steps left are all made: an idle core has none, and a busy one makes one less. -/
theorem run_of_stepsLeft {n : Nat} {s : State} (hn : stepsLeft s = n) (hi : CoreInv s)
    (hcmd : ∀ job, s.job = some job → ∀ m p, job.command ≠ .filter m p) (hr : NoReset s) (hsink : SinkReady s) :
    ∃ u, runFor n s = .next u ∧ State.busy u = false := by
  induction n generalizing s with
  | zero => exact ⟨s, runFor_zero s, (stepsLeft_eq_zero_iff hi).mp hn⟩
  | succ n ih =>
    have hb : State.busy s = true := by
      rw [← Bool.not_eq_false, ← stepsLeft_eq_zero_iff hi, hn]
      exact n.succ_ne_zero
    rcases busyStepsMakeProgress s hi hr.1 hb fun _ => hsink.1 with ⟨t, hstep, hleft, -⟩ | ⟨_, m, p, _, _, -, hj, -⟩
    · obtain ⟨job, hj⟩ := (busy_iff s).mp hb
      have hcmd' : ∀ later, t.job = some later → ∀ m p, later.command ≠ .filter m p := fun later hlater => by
        rw [workOn_keeps_command (workOn_of_step hstep hr.1 hj) hj later hlater]
        exact hcmd job hj
      obtain ⟨u, hrun, hidle⟩ :=
        ih (by omega) (invariantKeptByEveryStep s t hi hstep) hcmd' (hr.step hstep) (hsink.step hstep)
      exact ⟨u, by rw [runFor_succ hstep, hrun], hidle⟩
    · exact absurd rfl (hcmd _ hj m p)

/-- Settles O59: `run_of_stepsLeft`, whose command is the one busy. -/
theorem fillAndIterComplete : Obligations.FillAndIterComplete := by
  intro s job hi hj hcmd hr hsink
  refine run_of_stepsLeft rfl hi (fun later hlater => ?_) hr hsink
  rw [hj] at hlater
  cases hlater
  exact hcmd

/-! ### Reset (R141, R142) -/

/-- Settles O9: the step is `State.resetCore`, whatever the state. -/
theorem resetPinResetsTheCore : Obligations.ResetPinResetsTheCore := by
  intro s hr
  have hready : State.cmdReady s = false := by rw [State.cmdReady, hr, Bool.not_true, Bool.and_false]
  have hstatus : State.status (State.resetCore (State.clock s)) = 0 := status_eq_zero rfl rfl (by simp)
  have hvalid : State.sampleValid (State.resetCore (State.clock s)) = false := sampleValid_of_not_emit nofun
  exact ⟨hready, _, step_of_reset hr, rfl, rfl, hstatus, fun _ => rfl, fun _ => rfl, rfl, rfl, hvalid, rfl,
    List.prefix_rfl⟩

end Sys2Proof.Machine
end

section
/-! What a run leaves does not depend on time (70_reset_and_hazards.md R151, R153). The outlook of a state is what the running command will
leave, together with the commands still to come. Every step but an acceptance keeps it, whatever the pins and the workers do; two idle
states with the same outlook differ in the pins alone, and so do the states in which they accept the next command. -/

namespace Sys2Proof.Machine

/-! ### The buffers that the running command will leave -/

/-- The indices whose sample the job has still to write. -/
def Job.unfiltered (job : Job) : List Nat :=
  match job.work with
  | .fill _ => List.range job.command.filterSteps
  | .filter todo _ => todo
  | .emit _ => []

/-- The entries of SB when the job has run to its end from `s`. -/
def statesWith (s : State) : Option Job → Nat → Option U64
  | none, a => Memory.read s.sb a
  | some job, a =>
    match job.work with
    | .fill done =>
      if done ≤ a ∧ a < job.command.count then some (nextN (a + 1 - done) s.S) else Memory.read s.sb a
    | .filter _ _ => Memory.read s.sb a
    | .emit _ => Memory.read s.sb a

/-- The entries of OB when the job has run to its end from `s`. -/
def samplesWith (s : State) : Option Job → Nat → Option S8
  | none, a => Memory.read s.ob a
  | some job, a =>
    if a ∈ job.unfiltered then (statesWith s (some job) a).map (filterOne s.cfg) else Memory.read s.ob a

/-- The entries of both buffers when the job has run to its end from `s`. -/
def entriesWith (s : State) (job : Option Job) : (Nat → Option U64) × (Nat → Option S8) :=
  (statesWith s job, samplesWith s job)

/-! ### The end of a part and the start of the next leave the same entries -/

theorem samplesWith_filter (s : State) (cmd : LongCommand) (todo active : List Nat) (a : Nat) :
    samplesWith s (some ⟨cmd, .filter todo active⟩) a =
      if a ∈ todo then (Memory.read s.sb a).map (filterOne s.cfg) else Memory.read s.ob a := rfl

/-- With no sample left to write OB stays as it is. -/
theorem samplesWith_of_unfiltered_nil (s : State) {job : Job} (h : job.unfiltered = []) :
    samplesWith s (some job) = samplesWith s none := by
  funext a
  have hnot : a ∉ job.unfiltered := by rw [h]; exact List.not_mem_nil
  exact if_neg hnot

theorem entriesWith_emit (s : State) (cmd : LongCommand) (k : Nat) :
    entriesWith s (some ⟨cmd, .emit k⟩) = entriesWith s none := by
  rw [entriesWith, samplesWith_of_unfiltered_nil s rfl]
  rfl

theorem entriesWith_emitJobAt (s : State) (cmd : LongCommand) (k : Nat) :
    entriesWith s (emitJobAt cmd k) = entriesWith s none := by
  unfold emitJobAt
  split
  · exact entriesWith_emit s cmd k
  · rfl

/-- Part 3 writes no buffer. -/
theorem entriesWith_afterFilterJob (s : State) (cmd : LongCommand) :
    entriesWith s (afterFilterJob cmd) = entriesWith s none := by
  cases cmd with
  | fill n => rfl
  | filter n p => rfl
  | iter n p => rw [afterFilterJob, emitJob_eq, entriesWith_emitJobAt]

theorem entriesWith_filterJobAt (s : State) (cmd : LongCommand) (todo active : List Nat) :
    entriesWith s (filterJobAt cmd todo active) = entriesWith s (some ⟨cmd, .filter todo active⟩) := by
  rcases eq_or_ne todo [] with rfl | htodo
  · rw [filterJobAt_nil, entriesWith_afterFilterJob, entriesWith, entriesWith, samplesWith_of_unfiltered_nil s rfl]
    rfl
  · rw [filterJobAt_of_ne_nil htodo]

/-- With every advance made, part 1 leaves what part 2 of an ITER makes of it. -/
theorem entriesWith_fill_count (s : State) (cmd : LongCommand) (active : List Nat) :
    entriesWith s (some ⟨cmd, .fill cmd.count⟩) =
      entriesWith s (some ⟨cmd, .filter (List.range cmd.filterSteps) active⟩) := by
  have hstates : statesWith s (some ⟨cmd, .fill cmd.count⟩) =
      statesWith s (some ⟨cmd, .filter (List.range cmd.filterSteps) active⟩) :=
    funext fun a => if_neg fun ⟨hge, hlt⟩ => hge.not_gt hlt
  have hsamples : samplesWith s (some ⟨cmd, .fill cmd.count⟩) =
      samplesWith s (some ⟨cmd, .filter (List.range cmd.filterSteps) active⟩) := by
    funext a
    rw [samplesWith, samplesWith, hstates]
    rfl
  rw [entriesWith, entriesWith, hstates, hsamples]

theorem entriesWith_fillJobAt (s : State) {cmd : LongCommand} {k : Nat} (hcmd : ∀ n p, cmd ≠ .filter n p)
    (hk : k ≤ cmd.count) : entriesWith s (fillJobAt cmd k) = entriesWith s (some ⟨cmd, .fill k⟩) := by
  rcases hk.lt_or_eq with hlt | rfl
  · rw [fillJobAt_of_lt hlt]
  · rw [fillJobAt_count, entriesWith_fill_count s cmd [], ← entriesWith_filterJobAt]
    cases cmd with
    | fill n => rfl
    | filter n p => exact absurd rfl (hcmd n p)
    | iter n p => rw [afterFillJob, filterJob_eq]; rfl

/-! ### A step of the running command keeps the entries it will leave -/

theorem statesWith_advanced (s : State) {cmd : LongCommand} {k : Nat} (hk : k < cmd.count) :
    statesWith (advanced k s) (some ⟨cmd, .fill (k + 1)⟩) = statesWith s (some ⟨cmd, .fill k⟩) := by
  funext a
  simp only [statesWith]
  rcases lt_trichotomy a k with hlt | rfl | hgt
  · rw [if_neg (by omega), if_neg (by omega)]
    exact Memory.read_write_other s.sb (next s.S) hlt.ne
  · rw [if_neg (by omega), if_pos ⟨le_rfl, hk⟩, Nat.add_sub_cancel_left]
    exact Memory.read_write_same s.sb a (next s.S)
  · have hother : Memory.read (advanced k s).sb a = Memory.read s.sb a :=
      Memory.read_write_other s.sb (next s.S) hgt.ne'
    have hrange : k + 1 ≤ a ∧ a < cmd.count ↔ k ≤ a ∧ a < cmd.count := by omega
    have hadvances : nextN (a + 1 - (k + 1)) (advanced k s).S = nextN (a + 1 - k) s.S := by
      rw [show a + 1 - k = (a + 1 - (k + 1)) + 1 by omega]
      rfl
    simp only [hother, hrange, hadvances]

theorem entriesWith_advanced (s : State) {cmd : LongCommand} {k : Nat} (hk : k < cmd.count) :
    entriesWith (advanced k s) (some ⟨cmd, .fill (k + 1)⟩) = entriesWith s (some ⟨cmd, .fill k⟩) := by
  have hsamples : samplesWith (advanced k s) (some ⟨cmd, .fill (k + 1)⟩) = samplesWith s (some ⟨cmd, .fill k⟩) := by
    funext a
    rw [samplesWith, samplesWith, statesWith_advanced s hk]
    rfl
  rw [entriesWith, entriesWith, statesWith_advanced s hk, hsamples]

/-- A worker writes the sample its entry was to have, whichever of the entries left it is (R108). -/
theorem entriesWith_writeOB {s : State} {cmd : LongCommand} {k : Nat} {x : U64} {todo active active' : List Nat}
    (hnodup : todo.Nodup) (hk : k ∈ todo) (hx : Memory.read s.sb k = some x) :
    entriesWith (State.writeOB k (filterOne s.cfg x) s) (some ⟨cmd, .filter (todo.erase k) active'⟩) =
      entriesWith s (some ⟨cmd, .filter todo active⟩) := by
  have hsamples : samplesWith (State.writeOB k (filterOne s.cfg x) s) (some ⟨cmd, .filter (todo.erase k) active'⟩) =
      samplesWith s (some ⟨cmd, .filter todo active⟩) := by
    funext a
    rw [samplesWith_filter, samplesWith_filter]
    by_cases hak : a = k
    · subst hak
      simp [hnodup.mem_erase_iff, hk, hx]
    · simp [List.mem_erase_of_ne hak, Memory.read_write_other s.ob _ hak]
  rw [entriesWith, entriesWith, hsamples]
  rfl

theorem workOn_keeps_entries {s t : State} {job : Job} {inputs : Inputs} (hinv : JobInv s job)
    (hj : s.job = some job) (h : workOn job inputs s = .next t) : entriesWith t t.job = entriesWith s s.job := by
  rw [hj]
  obtain ⟨cmd, work⟩ := job
  cases work with
  | fill k =>
    obtain ⟨-, -, hcmd, hk, -⟩ := hinv
    rw [workOn_fill] at h
    cases h
    rw [State.setJob_job, nextFillJob_eq]
    exact (entriesWith_fillJobAt (advanced k s) hcmd hk).trans (entriesWith_advanced s hk)
  | filter todo active =>
    obtain ⟨-, -, -, htodo, hnodup, -⟩ := hinv
    rw [workOn_filter, filterAdvance_eq] at h
    split at h <;> cases h
    next x hx =>
    rw [State.setJob_job, nextFilterJob_eq]
    exact (entriesWith_filterJobAt (State.writeOB _ _ s) cmd _ _).trans
      (entriesWith_writeOB hnodup (pickIndex_mem _ _ _ _ _ htodo) hx)
  | emit k =>
    rw [workOn_emit, emitAdvance_eq] at h
    split at h
    · cases h
    next b hb =>
    split at h <;> cases h
    · rw [State.setJob_job, nextEmitJob_eq, entriesWith_emit]
      exact entriesWith_emitJobAt (State.pushSink b s) cmd (k + 1)
    · rw [hj]

/-! ### The outlook -/

/-- What the running command will leave, and the commands still to come. -/
structure Outlook where
  cfg : Config
  stream : U64 × List (BitVec 8)
  entries : (Nat → Option U64) × (Nat → Option S8)
  result : U64
  err : ErrCode
  host : List Command

/-- The outlook of a state. -/
def outlook (s : State) : Outlook :=
  { cfg := s.cfg, stream := completed s, entries := entriesWith s s.job, result := s.result, err := s.err, host := s.host }

/-- The pins take no part in the outlook. -/
theorem SameButPins.outlook_eq {s t : State} (h : SameButPins s t) : outlook t = outlook s := by rw [h]; rfl

theorem workOn_keeps_outlook {s t : State} {job : Job} {inputs : Inputs} (hinv : JobInv s job)
    (hj : s.job = some job) (h : workOn job inputs s = .next t) : outlook t = outlook s := by
  obtain ⟨-, hcfg, hhost⟩ := workOn_keeps_outside h
  obtain ⟨hresult, herr, -⟩ := workOn_writes h
  rw [outlook, outlook, workOn_keeps_completed hinv hj h, workOn_keeps_entries hinv hj h, hcfg, hresult, herr, hhost]

theorem entriesWith_none {s : State} (hj : s.job = none) :
    entriesWith s s.job = (Memory.read s.sb, Memory.read s.ob) := by rw [hj]; rfl

theorem Memory.rising_of_wf {w depth : Nat} {m : Memory w} (h : Memory.wf depth m = true) : Memory.rising m = true :=
  ((Memory.wf_iff depth m).mp h).1

/-- An idle core's outlook is its state but for the pins: a buffer in canonical form is its entries. -/
theorem sameButPins_of_outlook {s z : State} (hs : CoreInv s) (hz : CoreInv z) (hsj : s.job = none) (hzj : z.job = none)
    (h : outlook s = outlook z) : SameButPins s z := by
  obtain ⟨hsbs, hobs, -⟩ := hs
  obtain ⟨hsbz, hobz, -⟩ := hz
  simp only [outlook, completed_of_idle hsj, completed_of_idle hzj, entriesWith_none hsj, entriesWith_none hzj,
    Outlook.mk.injEq, Prod.mk.injEq] at h
  obtain ⟨hcfg, ⟨hS, hsink⟩, ⟨hsb, hob⟩, hresult, herr, hhost⟩ := h
  have hsbEq := Memory.ext_of_read (Memory.rising_of_wf hsbz) (Memory.rising_of_wf hsbs) (congrFun hsb.symm)
  have hobEq := Memory.ext_of_read (Memory.rising_of_wf hobz) (Memory.rising_of_wf hobs) (congrFun hob.symm)
  exact .of_fields hcfg.symm hS.symm hresult.symm herr.symm hsbEq hobEq (hzj.trans hsj.symm) hsink.symm hhost.symm

/-! ### A meaning depends on no pin -/

/-- An operation that neither reads nor moves the pins keeps two states the same but for them. -/
theorem SameButPins.map {s z : State} (h : SameButPins s z) (f : State → State)
    (hf : ∀ (st : State) (i : Inputs) (l : List Inputs) (k : Nat),
      f { st with inputs := i, script := l, tick := k } = { f st with inputs := i, script := l, tick := k }) :
    SameButPins (f s) (f z) := by
  have hfz : f z = { f s with inputs := z.inputs, script := z.script, tick := z.tick } := (congrArg f h).trans (hf _ _ _ _)
  rw [SameButPins, hfz]

/-- If both answer a next state, these are the same but for the pins. -/
def SameAnswers (a b : Answer) : Prop := ∀ t y, a = .next t → b = .next y → SameButPins t y

theorem sameAnswers_next {s z : State} (h : SameButPins s z) : SameAnswers (.next s) (.next z) := by
  rintro t y ⟨⟩ ⟨⟩
  exact h

theorem sameAnswers_fault (f : Fault) (b : Answer) : SameAnswers (.fault f) b := by
  intro t y h
  cases h

section
variable {s z : State} (h : SameButPins s z)
include h

theorem SameButPins.raise (code : ErrCode) : SameAnswers (.next (State.raise code s)) (.next (State.raise code z)) :=
  sameAnswers_next (h.map _ fun _ _ _ _ => rfl)

theorem SameButPins.bufDepth_eq : z.cfg.bufDepth = s.cfg.bufDepth := by rw [h]

theorem SameButPins.withCount {n : U32} {f : State → Answer} (hf : SameAnswers (f s) (f z)) :
    SameAnswers (withCount n s f) (withCount n z f) := by
  rcases Nat.lt_or_ge s.cfg.bufDepth n.toNat with hn | hn
  · rw [withCount_rejects hn, withCount_rejects (h.bufDepth_eq ▸ hn)]; exact h.raise _
  · rw [withCount_accepts hn, withCount_accepts (h.bufDepth_eq ▸ hn)]; exact hf

theorem SameButPins.withCountAndChunks {n p : U32} {f : State → Answer} (hf : SameAnswers (f s) (f z)) :
    SameAnswers (withCountAndChunks n p s f) (withCountAndChunks n p z f) := by
  unfold Machine.withCountAndChunks
  split
  · exact h.raise _
  · exact h.withCount hf

theorem SameButPins.withEntry {a : EntryAddr} {f : Nat → State → Answer} (hf : SameAnswers (f a.toNat s) (f a.toNat z)) :
    SameAnswers (withEntry a s f) (withEntry a z f) := by
  rcases Nat.lt_or_ge a.toNat s.cfg.bufDepth with ha | ha
  · rw [withEntry_accepts ha, withEntry_accepts (h.bufDepth_eq ▸ ha)]; exact hf
  · rw [withEntry_rejects ha, withEntry_rejects (h.bufDepth_eq ▸ ha)]; exact h.raise _

/-- Every meaning answers alike whatever the pins are. -/
theorem SameButPins.exec (i : Instr) : SameAnswers (exec i s) (exec i z) := by
  cases i with
  | fill n =>
    rw [exec_fill, exec_fill]
    exact h.withCount (sameAnswers_next (h.map (fun st => State.setJob _ (State.accept st)) fun _ _ _ _ => rfl))
  | filter n p =>
    rw [exec_filter, exec_filter]
    exact h.withCountAndChunks (sameAnswers_next (h.map (fun st => State.setJob _ (State.accept st)) fun _ _ _ _ => rfl))
  | iter n p =>
    rw [exec_iter, exec_iter]
    exact h.withCountAndChunks (sameAnswers_next (h.map (fun st => State.setJob _ (State.accept st)) fun _ _ _ _ => rfl))
  | sbwr a x =>
    rw [exec_sbwr, exec_sbwr]
    exact h.withEntry (sameAnswers_next (h.map (fun st => State.writeSB _ x (State.accept st)) fun _ _ _ _ => rfl))
  | sbrd a =>
    rw [exec_sbrd, exec_sbrd]
    refine h.withEntry ?_
    rw [show z.sb = s.sb by rw [h]]
    cases Memory.read s.sb a.toNat with
    | none => exact sameAnswers_fault _ _
    | some x => exact sameAnswers_next (h.map (fun st => State.setResult x (State.accept st)) fun _ _ _ _ => rfl)
  | obrd a =>
    rw [exec_obrd, exec_obrd]
    refine h.withEntry ?_
    rw [show z.ob = s.ob by rw [h]]
    cases Memory.read s.ob a.toNat with
    | none => exact sameAnswers_fault _ _
    | some b => exact sameAnswers_next (h.map (fun st => State.setResult (sext64 b) (State.accept st)) fun _ _ _ _ => rfl)
  | nop => exact sameAnswers_next (h.map State.accept fun _ _ _ _ => rfl)
  | seed x => exact sameAnswers_next (h.map (fun st => State.setS x (State.accept st)) fun _ _ _ _ => rfl)
  | step =>
    exact sameAnswers_next (h.map (fun st => State.setResult (next st.S) (State.setS (next st.S) (State.accept st)))
      fun _ _ _ _ => rfl)
  | lutrd i j =>
    exact sameAnswers_next (h.map (fun st => State.setResult (sext64 (romRead st.cfg (romAddress i j))) (State.accept st))
      fun _ _ _ _ => rfl)
  | acc x =>
    exact sameAnswers_next (h.map (fun st => State.setResult (sext64 (accSum st.cfg x)) (State.accept st))
      fun _ _ _ _ => rfl)
  | filt1 x =>
    exact sameAnswers_next (h.map (fun st => State.setResult (sext64 (filterOne st.cfg x)) (State.accept st))
      fun _ _ _ _ => rfl)
  | illegal w o => exact h.raise _

end

/-! ### A run from one acceptance to the next -/

/-- What the step that accepts command c answers (R62, R127). -/
def accepted (c : Command) (s : State) : Answer :=
  match decode c with
  | .ok i => exec i (afterAcceptance s)
  | .error code => .next (State.raise code (afterAcceptance s))

theorem accepted_host {c : Command} {s t : State} (h : accepted c s = .next t) : t.host = s.host.tail := by
  unfold accepted at h
  split at h
  · obtain ⟨-, -, -, hhost⟩ := exec_keeps_outside h
    exact hhost
  · cases h; rfl

theorem SameButPins.afterAcceptance {s z : State} (h : SameButPins s z) :
    SameButPins (afterAcceptance s) (afterAcceptance z) := by
  rw [h]
  exact .of_fields rfl rfl rfl rfl rfl rfl rfl rfl rfl

theorem SameButPins.accepted {s z : State} (h : SameButPins s z) (c : Command) :
    SameAnswers (accepted c s) (accepted c z) := by
  unfold Machine.accepted
  cases decode c with
  | ok i => exact h.afterAcceptance.exec i
  | error code => exact h.afterAcceptance.raise code

/-- A step with no reset keeps the outlook, or accepts the host's next command. -/
theorem step_keeps_outlook_or_accepts {s t : State} (hi : CoreInv s) (hr : s.inputs.rst = false)
    (h : step s = .next t) :
    outlook t = outlook s ∨ (s.job = none ∧ ∃ c cs, s.host = c :: cs ∧ accepted c s = .next t) := by
  rcases step_cases s with ⟨hrst, -⟩ | ⟨-, ⟨job, hj, e⟩ | ⟨-, -, e⟩ | ⟨hj, c, cs, i, hhost, hd, -, e⟩ |
    ⟨hj, c, cs, code, hhost, hd, -, e⟩⟩
  · rw [hr] at hrst; cases hrst
  · obtain ⟨-, -, hjobs⟩ := hi
    rw [e] at h
    exact .inl ((workOn_keeps_outlook (s := State.clock s) (hjobs job hj) hj h).trans (SameButPins.clock s).outlook_eq)
  · rw [e] at h
    cases h
    exact .inl (SameButPins.clock s).outlook_eq
  · exact .inr ⟨hj, c, cs, hhost, by rw [accepted, hd, ← h, e]; rfl⟩
  · exact .inr ⟨hj, c, cs, hhost, by rw [accepted, hd, ← h, e]; rfl⟩

/-- `s` is a state of the invariant from which a run with no reset ends in `u`, every command completed. -/
structure EndsIn (s u : State) : Prop where
  inv : CoreInv s
  noReset : NoReset s
  ended : RunEnded u
  run : ∃ k, runFor k s = .next u

/-- A run to its end keeps the outlook to the end, when the host has no command left, and else to the acceptance of the next one, from
which it goes on. -/
theorem EndsIn.cases {s u : State} (h : EndsIn s u) :
    (s.host = [] ∧ CoreInv u ∧ outlook u = outlook s) ∨
    ∃ c cs t v, s.host = c :: cs ∧ CoreInv t ∧ t.job = none ∧ outlook t = outlook s ∧ accepted c t = .next v ∧
      v.host = cs ∧ EndsIn v u := by
  obtain ⟨hi, hr, hended, k, hrun⟩ := h
  induction k generalizing s with
  | zero =>
    cases hrun
    exact .inl ⟨hended.1, hi, rfl⟩
  | succ k ih =>
    obtain ⟨t, hstep, hrest⟩ := runFor_succ_iff.mp hrun
    have hit := invariantKeptByEveryStep s t hi hstep
    have hrt := hr.step hstep
    rcases step_keeps_outlook_or_accepts hi hr.1 hstep with hkept | ⟨hj, c, cs, hhost, haccepted⟩
    · have hsame : t.host = s.host := congrArg Outlook.host hkept
      rw [← hsame, ← hkept]
      exact ih hit hrt hrest
    · have hrest' : t.host = cs := by rw [accepted_host haccepted, hhost, List.tail_cons]
      exact .inr ⟨c, cs, s, t, hhost, hi, hj, rfl, haccepted, hrest', hit, hrt, hended, k, hrest⟩

theorem RunEnded.job {s : State} (h : RunEnded s) : s.job = none := by
  obtain ⟨-, hbusy⟩ := h
  simpa [State.busy] using hbusy

/-- Two runs from the same outlook end in the same state but for the pins: they accept the same commands in the same states. -/
theorem sameButPins_of_ends {l : List Command} {s z u v : State} (hl : s.host = l) (hs : EndsIn s u) (hz : EndsIn z v)
    (h : outlook s = outlook z) : SameButPins u v := by
  have hzl : z.host = l := (congrArg Outlook.host h).symm.trans hl
  induction l generalizing s z with
  | nil =>
    rcases hs.cases with ⟨-, hu, hsu⟩ | ⟨c, cs, _, _, hhost, -⟩
    · rcases hz.cases with ⟨-, hv, hzv⟩ | ⟨c, cs, _, _, hhost, -⟩
      · exact sameButPins_of_outlook hu hv hs.ended.job hz.ended.job (hsu.trans (h.trans hzv.symm))
      · rw [hzl] at hhost; cases hhost
    · rw [hl] at hhost; cases hhost
  | cons c cs ih =>
    rcases hs.cases with ⟨hnil, -⟩ | ⟨c₁, cs₁, s₁, s₂, hhost₁, hi₁, hj₁, hout₁, hacc₁, hrest₁, hs₂⟩
    · rw [hl] at hnil; cases hnil
    rcases hz.cases with ⟨hnil, -⟩ | ⟨c₂, cs₂, z₁, z₂, hhost₂, hi₂, hj₂, hout₂, hacc₂, hrest₂, hz₂⟩
    · rw [hzl] at hnil; cases hnil
    obtain ⟨rfl, rfl⟩ := List.cons.inj (hl.symm.trans hhost₁)
    obtain ⟨rfl, rfl⟩ := List.cons.inj (hzl.symm.trans hhost₂)
    have hsame : SameButPins s₁ z₁ := sameButPins_of_outlook hi₁ hi₂ hj₁ hj₂ (hout₁.trans (h.trans hout₂.symm))
    have hsame' : SameButPins s₂ z₂ := hsame.accepted c s₂ z₂ hacc₁ hacc₂
    exact ih hrest₁ hs₂ hz₂ hsame'.outlook_eq.symm hrest₂

theorem SameButPins.observe_eq {s t : State} (h : SameButPins s t) : State.observe s = State.observe t := by rw [h]; rfl

/-- Settles O48: the two runs begin with the same outlook (`sameButPins_of_ends`). -/
theorem observationDoesNotDependOnTiming : Obligations.ObservationDoesNotDependOnTiming := by
  intro s z u v j k hi hj hsame hrs hrz hrunS hrunZ hu hv
  have hiz : CoreInv z := by rw [hsame]; exact hi
  exact (sameButPins_of_ends rfl ⟨hi, hrs, hu, j, hrunS⟩ ⟨hiz, hrz, hv, k, hrunZ⟩ hsame.outlook_eq.symm).observe_eq

end Sys2Proof.Machine
end
